-- ==== Sys2Proof/Word.lean ====
section
/-! DEFINITION. The widths of the block: bus words, bytes, radix-2^31 digits, register numbers (00_scope.md R2, R7, R8). -/

namespace Sys2Proof

/-- A 32-bit bus word or register (R7, R21). -/
abbrev Word := BitVec 32

/-- One byte of BUF, of a key, of an AES block (R9, R41). -/
abbrev Byte := BitVec 8

/-- One stored digit: 31 bits, since bit 31 of the digit word always reads 0 (R2, R37). -/
abbrev Digit := BitVec 31

/-- A BigNum register number 0-7 (R36, R103). -/
abbrev RegNo := Fin 8

/-- The radix b = 2^31 (R2). -/
abbrev radix : Nat := 2 ^ 31

end Sys2Proof
end

