-- ==== Sys2Proof/Config.lean ====
section
/-! DEFINITION. The parameters of R6 and the free values of 93_implementation_defined.md U1-U4. -/

namespace Sys2Proof

/-- The implementation parameters of R6. They are fixed for a machine; the state carries them so that
every statement over all states is a statement over all parameters. -/
structure Config where
  /-- L_MAX: digits in each BigNum register. -/
  lMax : Nat
  /-- BUF_BYTES: bytes of the buffer BUF. -/
  bufBytes : Nat
  /-- BASE_ADDR divided by 0x4000: R6 wants BASE_ADDR aligned to 16 KiB. -/
  baseIndex : Nat
  deriving DecidableEq, Repr

namespace Config

/-- BASE_ADDR, aligned to 0x4000 by construction (R6). -/
def baseAddr (c : Config) : Nat := c.baseIndex * 0x4000

/-- The legal parameter values of R6: 1 <= L_MAX <= 128; BUF_BYTES a multiple of 4 from 16 to 8192. -/
def legal (c : Config) : Bool :=
  decide (1 ≤ c.lMax ∧ c.lMax ≤ 128) &&
    decide (c.bufBytes % 4 = 0 ∧ 16 ≤ c.bufBytes ∧ c.bufBytes ≤ 8192)

/-- Where the platform puts the window: R6 and U6 leave it open, so nothing here says where
(log entry 1). -/
opaque platformBaseIndex : Nat

/-- The default parameters of R6: L_MAX = 67, BUF_BYTES = 4096, BASE_ADDR open. -/
def default : Config := ⟨67, 4096, platformBaseIndex⟩

/-- The free byte that draw number `draw` gives address `addr` (R9 `unspecified`; U1, U3, U4;
log entries 3, 5). -/
opaque freeByte (draw addr : Nat) : Byte

/-- The free word that draw number `draw` gives a host read while BUSY = 1 (R134(e); U2; log entry 5). -/
opaque freeWord (draw : Nat) : Word

end Config

end Sys2Proof
end

