-- ==== Sys2Proof/Syntax.lean ====
section
/-! DEFINITION. The commands: one constructor per row of spec/opcode_table.json (30_encoding.md R101). -/

namespace Sys2Proof

/-- The eleven commands with the operand fields R101 and R102 give each. -/
inductive Instr where
  /-- NOP (R140). -/
  | nop
  /-- LOADB: destination register, swizzle size (0 = off), preZero (R161). -/
  | loadb (rd : RegNo) (swsz : Nat) (pz : Bool)
  /-- STOREB: source register, swizzle size (R167). -/
  | storeb (rs1 : RegNo) (swsz : Nat)
  /-- MINV (R181). -/
  | minv
  /-- MONTMUL: destination, x, y (R186). -/
  | montmul (rd rs1 rs2 : RegNo)
  /-- MONTEXP: destination, x, exponent (R192). -/
  | montexp (rd rs1 rs2 : RegNo)
  /-- RSAENC: exponent (R212). -/
  | rsaenc (rs2 : RegNo)
  /-- RSADEC: exponent (R216). -/
  | rsadec (rs2 : RegNo)
  /-- AESKEYEXP (R241). -/
  | aeskeyexp
  /-- AESBLK (R246). -/
  | aesblk
  /-- AESCTR (R251). -/
  | aesctr
  deriving DecidableEq, Repr

/-- The fixed roles of N5, N6 and N7, with R111's alias names: R^2 mod m, R mod m, the modulus (R36). -/
def RegNo.rr : RegNo := 5
def RegNo.rm : RegNo := 6
def RegNo.m : RegNo := 7

end Sys2Proof
end

