-- ==== Sys2Proof/WellFormed.lean ====
section
/-! DEFINITION. Which terms of Instr the command word can hold (30_encoding.md R103). -/

namespace Sys2Proof

/-- SWSZ is a 4-bit field: 0 (off) or a group size 1-15 (R103). Register numbers are `Fin 8`, so the
3-bit fields RD, RS1 and RS2 hold every one of them. -/
def Instr.wellFormed : Instr → Bool
  | .nop => true
  | .loadb _ swsz _ => decide (swsz ≤ 15)
  | .storeb _ swsz => decide (swsz ≤ 15)
  | .minv => true
  | .montmul _ _ _ => true
  | .montexp _ _ _ => true
  | .rsaenc _ => true
  | .rsadec _ => true
  | .aeskeyexp => true
  | .aesblk => true
  | .aesctr => true

end Sys2Proof
end

