-- ==== Sys2Proof/Decode.lean ====
section
/-! DEFINITION. The decoder and the encoder of the command word (30_encoding.md R100-R107) and the
opcode table's (mask, match) pairs. -/

namespace Sys2Proof

/-- Why a word is Illegal (R104, R105): all three complete with ILLEGAL_COMMAND. -/
inductive DecodeReject where
  /-- OPC is 0x0B-0xFF. -/
  | unassignedOpcode
  /-- One of the bits 11, 15, 19, 31:25 is 1. -/
  | reservedBits
  /-- A field the opcode does not use is not 0. -/
  | unusedField
  deriving DecidableEq, Repr

/-- The fields of the one command format (R100). -/
structure Fields where
  opc : BitVec 8
  rd : BitVec 3
  rs1 : BitVec 3
  rs2 : BitVec 3
  swsz : BitVec 4
  pz : Bool
  deriving DecidableEq, Repr

/-- The must-be-zero bits of every command: 11, 15, 19 and 31:25 (R104). -/
def reservedClear (c : Word) : Bool :=
  !(c.getLsbD 11 || c.getLsbD 15 || c.getLsbD 19 || c.extractLsb' 25 7 != 0)

/-- Field positions of R100. -/
def fieldsOf (c : Word) : Fields where
  opc := c.extractLsb' 0 8
  rd := c.extractLsb' 8 3
  rs1 := c.extractLsb' 12 3
  rs2 := c.extractLsb' 16 3
  swsz := c.extractLsb' 20 4
  pz := c.getLsbD 24

/-- A `require` of R107: the instruction when the unused fields are 0, else Illegal. -/
def requireZero (ok : Bool) (i : Instr) : Except DecodeReject Instr :=
  if ok then .ok i else .error .unusedField

/-- The case analysis of R107 on the opcode. -/
def decodeFields (f : Fields) : Except DecodeReject Instr :=
  match f.opc.toNat with
  | 0x00 => requireZero (f.rd == 0 && f.rs1 == 0 && f.rs2 == 0 && f.swsz == 0 && !f.pz) .nop
  | 0x01 => requireZero (f.rs1 == 0 && f.rs2 == 0) (.loadb f.rd.toFin f.swsz.toNat f.pz)
  | 0x02 => requireZero (f.rd == 0 && f.rs2 == 0 && !f.pz) (.storeb f.rs1.toFin f.swsz.toNat)
  | 0x03 => requireZero (f.rd == 0 && f.rs1 == 0 && f.rs2 == 0 && f.swsz == 0 && !f.pz) .minv
  | 0x04 => requireZero (f.swsz == 0 && !f.pz) (.montmul f.rd.toFin f.rs1.toFin f.rs2.toFin)
  | 0x05 => requireZero (f.swsz == 0 && !f.pz) (.montexp f.rd.toFin f.rs1.toFin f.rs2.toFin)
  | 0x06 => requireZero (f.rd == 0 && f.rs1 == 0 && f.swsz == 0 && !f.pz) (.rsaenc f.rs2.toFin)
  | 0x07 => requireZero (f.rd == 0 && f.rs1 == 0 && f.swsz == 0 && !f.pz) (.rsadec f.rs2.toFin)
  | 0x08 => requireZero (f.rd == 0 && f.rs1 == 0 && f.rs2 == 0 && f.swsz == 0 && !f.pz) .aeskeyexp
  | 0x09 => requireZero (f.rd == 0 && f.rs1 == 0 && f.rs2 == 0 && f.swsz == 0 && !f.pz) .aesblk
  | 0x0A => requireZero (f.rd == 0 && f.rs1 == 0 && f.rs2 == 0 && f.swsz == 0 && !f.pz) .aesctr
  | _ => .error .unassignedOpcode

/-- The decoder of R107, total on every 32-bit word. -/
def decode (c : Word) : Except DecodeReject Instr :=
  if reservedClear c then decodeFields (fieldsOf c) else .error .reservedBits

/-- A word that holds `v` with its bit 0 at bit `n`, and 0 elsewhere (R7). -/
def fieldAt {k : Nat} (n : Nat) (v : BitVec k) : Word := v.setWidth 32 <<< n

/-- The pattern of R100, bit 31 on the left: `0000000 z wwww 0 ttt 0 sss 0 ddd oooooooo`. -/
def packFields (f : Fields) : Word :=
  fieldAt 24 (BitVec.ofBool f.pz) ||| fieldAt 20 f.swsz ||| fieldAt 16 f.rs2 ||| fieldAt 12 f.rs1 |||
    fieldAt 8 f.rd ||| fieldAt 0 f.opc

/-- The fields of each command (R101, R102); a field marked "-" there is 0. A swizzle size beyond 15
does not fit its field: only well-formed instructions have an encoding. -/
def Instr.fields : Instr → Fields
  | .nop => ⟨0x00, 0, 0, 0, 0, false⟩
  | .loadb rd swsz pz => ⟨0x01, BitVec.ofFin rd, 0, 0, BitVec.ofNat 4 swsz, pz⟩
  | .storeb rs1 swsz => ⟨0x02, 0, BitVec.ofFin rs1, 0, BitVec.ofNat 4 swsz, false⟩
  | .minv => ⟨0x03, 0, 0, 0, 0, false⟩
  | .montmul rd rs1 rs2 => ⟨0x04, BitVec.ofFin rd, BitVec.ofFin rs1, BitVec.ofFin rs2, 0, false⟩
  | .montexp rd rs1 rs2 => ⟨0x05, BitVec.ofFin rd, BitVec.ofFin rs1, BitVec.ofFin rs2, 0, false⟩
  | .rsaenc rs2 => ⟨0x06, 0, 0, BitVec.ofFin rs2, 0, false⟩
  | .rsadec rs2 => ⟨0x07, 0, 0, BitVec.ofFin rs2, 0, false⟩
  | .aeskeyexp => ⟨0x08, 0, 0, 0, 0, false⟩
  | .aesblk => ⟨0x09, 0, 0, 0, 0, false⟩
  | .aesctr => ⟨0x0A, 0, 0, 0, 0, false⟩

/-- The command word of an instruction (R100, R101). -/
def encode (i : Instr) : Word := packFields i.fields

/-- One row of spec/opcode_table.json: a word c is this command exactly when `c &&& mask = pattern`
(R107). -/
structure OpRow where
  mnemonic : String
  pattern : Word
  mask : Word
  deriving DecidableEq, Repr

/-- spec/opcode_table.json's (match, mask) pairs. -/
def opTable : List OpRow :=
  [⟨"NOP", 0x00000000, 0xFFFFFFFF⟩,
   ⟨"LOADB", 0x00000001, 0xFE0FF8FF⟩,
   ⟨"STOREB", 0x00000002, 0xFF0F8FFF⟩,
   ⟨"MINV", 0x00000003, 0xFFFFFFFF⟩,
   ⟨"MONTMUL", 0x00000004, 0xFFF888FF⟩,
   ⟨"MONTEXP", 0x00000005, 0xFFF888FF⟩,
   ⟨"RSAENC", 0x00000006, 0xFFF8FFFF⟩,
   ⟨"RSADEC", 0x00000007, 0xFFF8FFFF⟩,
   ⟨"AESKEYEXP", 0x00000008, 0xFFFFFFFF⟩,
   ⟨"AESBLK", 0x00000009, 0xFFFFFFFF⟩,
   ⟨"AESCTR", 0x0000000A, 0xFFFFFFFF⟩]

/-- Whether a word is in a row of the table (R107). -/
def OpRow.holds (r : OpRow) (c : Word) : Bool := c &&& r.mask == r.pattern

/-- The table's name of an instruction (R101). -/
def Instr.mnemonic : Instr → String
  | .nop => "NOP"
  | .loadb _ _ _ => "LOADB"
  | .storeb _ _ => "STOREB"
  | .minv => "MINV"
  | .montmul _ _ _ => "MONTMUL"
  | .montexp _ _ _ => "MONTEXP"
  | .rsaenc _ => "RSAENC"
  | .rsadec _ => "RSADEC"
  | .aeskeyexp => "AESKEYEXP"
  | .aesblk => "AESBLK"
  | .aesctr => "AESCTR"

/-- The decoder on a word numbered as the opcode table numbers it. A command is one 32-bit word that the
host writes whole to CMD (R100, R106), so no byte order enters; a number beyond 32 bits is no command. -/
def decodeTableWord (nbits w : Nat) : Option Instr :=
  if w % 2 ^ nbits < 2 ^ 32 then (decode (BitVec.ofNat 32 (w % 2 ^ nbits))).toOption else none

end Sys2Proof
end

