-- ==== Sys2Proof/Machine/State.lean ====
section
/-! DEFINITION. The state of the block (10_state.md R20-R44), the events of its two agents and of the
reset input, the reasons to stop, and the state after power-on reset (70_reset_and_hazards.md R300). -/

namespace Sys2Proof.Machine

/-- The error codes of R270. Codes 6-15 are never produced, so they have no name. -/
inductive ErrCode where
  /-- 0: the last command completed successfully. -/
  | noError
  /-- 1: an operand value is outside the operation's domain. -/
  | invalidArgument
  /-- 2: the modulus is not coprime to the radix, or MPRIME does not match it. -/
  | preconditionFailed
  /-- 3: RSADEC's output would overflow its destination. -/
  | capacityExceeded
  /-- 4: CMD does not decode. -/
  | illegalCommand
  /-- 5: a BUF range passes the end of BUF, or a LOADB result does not fit in L_MAX digits. -/
  | outOfRange
  deriving DecidableEq, Repr

/-- The fields of STATUS (R27); its other bits read 0 and ignore writes. -/
structure Status where
  busy : Bool
  done : Bool
  err : Bool
  busyErr : Bool
  errcode : ErrCode
  deriving DecidableEq, Repr

/-- What can happen next at the block (R13, R80, R276): one host access, the engine's step, the reset
input. `bytes` is the width of the access in bytes and `addr` the platform's byte address. -/
inductive Event where
  | read (addr bytes : Nat)
  | write (addr bytes : Nat) (data : Word)
  | engine
  | powerOn
  deriving DecidableEq, Repr

/-- What the host port answered to the last access (R71, R72, R273). -/
inductive BusResp where
  /-- No access yet. -/
  | none
  /-- The word an admitted read returned. -/
  | readData (w : Word)
  /-- An admitted write was taken (dropped writes too: R273). -/
  | writeAck
  /-- A refused access: wrong width or misaligned (R71). -/
  | busError
  deriving DecidableEq, Repr

/-- What a word of the host window is (R21-R23). -/
inductive WindowReg where
  | id
  | param
  | ctrl
  | status
  | cmd
  | result
  | mprime
  | arg (k : Fin 4)
  | used (k : RegNo)
  | key (k : Fin 8)
  | ctr (k : Fin 4)
  | rk (i : Fin 60)
  | digit (k : RegNo) (i : Nat)
  | bufWord (j : Nat)
  /-- RAZ/WI. -/
  | reserved
  deriving DecidableEq, Repr

/-- The whole state (R20). -/
structure State where
  /-- The parameters of R6: constant, behind PARAM and the window's decode. -/
  cfg : Config
  /-- CTRL.IRQEN (R26). -/
  irqen : Bool
  /-- STATUS (R27). -/
  status : Status
  /-- CMD (R28). -/
  cmd : Word
  /-- RESULT (R29). -/
  result : Word
  /-- MPRIME, 31 bits (R30). -/
  mprime : BitVec 31
  /-- ARG0-ARG3 (R31). -/
  args : Vector Word 4
  /-- KEY0-KEY7 (R33). -/
  key : Vector Word 8
  /-- CTR0-CTR3 (R34). -/
  ctr : Vector Word 4
  /-- RK0-RK59 (R35). -/
  rk : Vector Word 60
  /-- N0-N7, each its L_MAX digits, digit 0 first (R36). -/
  nreg : Vector (List Digit) 8
  /-- BUF: the bytes written since power-on, by strictly rising address (R41). -/
  buf : List Host.Cell
  /-- The draw that BUF's unwritten bytes come from (the model's own field, log entry 3). -/
  bufFill : Nat
  /-- How many free draws have been made (the model's own field, log entry 5). -/
  draws : Nat
  /-- What happens next, first entry first (the model's own field, log entry 2). -/
  sched : List Event
  /-- The host port's last response (the model's own field, log entry 4). -/
  resp : BusResp
  deriving DecidableEq, Repr

/-- Why the model stops. -/
inductive Fault where
  /-- Raised by a host access outside the 16 KiB window: the block does not decode it, and the
  platform's behaviour is not in the spec (R71; U10 "stuck"). Safe: the model makes no claim past it. -/
  | outsideWindow
  deriving DecidableEq, Repr

/-- Why the model gives an instruction no meaning. -/
inductive Refusal where
  /-- Raised only by an arm of `exec` whose instruction has no meaning yet; there is no such arm now.
  Safe: nothing is claimed. -/
  | notModelled (mnemonic : String)
  deriving DecidableEq, Repr

/-- The outcome of a step of this machine. -/
abbrev Out := Host.Outcome State Fault Refusal

/-- STATUS after reset: 0x00000000 (R300). -/
def Status.reset : Status := ⟨false, false, false, false, .noError⟩

/-- The state when power-on reset is released, for parameters `c` (R300). Registers are 0; BUF lists
nothing, so each of its bytes is the free byte of draw 0; nothing is scheduled. -/
def State.resetWith (c : Config) : State where
  cfg := c
  irqen := false
  status := Status.reset
  cmd := 0
  result := 0
  mprime := 0
  args := Vector.replicate 4 0
  key := Vector.replicate 8 0
  ctr := Vector.replicate 4 0
  rk := Vector.replicate 60 0
  nreg := Vector.replicate 8 (List.replicate c.lMax 0)
  buf := []
  bufFill := 0
  draws := 1
  sched := []
  resp := .none

/-- The machine right after power-on reset, with the default parameters of R6 (R300). -/
def State.reset : State := State.resetWith Config.default

end Sys2Proof.Machine
end

