-- ==== Sys2Proof/Machine/Bytes.lean ====
section
/-! DEFINITION. Byte strings: big-endian values, swizzle, and the packing of bytes in words
(00_scope.md R9; 41_bigint_datapath.md R160; 20_memory.md R74; 10_state.md R33-R35). -/

namespace Sys2Proof.Machine

/-- BE(s): the value of a byte sequence read big-endian, 0 for the empty one (R9). -/
def beVal (s : List Byte) : Nat := s.foldl (fun v x => v * 256 + x.toNat) 0

/-- BEbytes(v, n): the n-byte big-endian sequence of v mod 256^n (R9). -/
def beBytes (v : Nat) : Nat → List Byte
  | 0 => []
  | n + 1 => BitVec.ofNat 8 (v / 256 ^ n) :: beBytes v n

/-- swz(s, g): the bytes of each consecutive group of g reversed (R160). The byte at position p, in
group q = p / g at place j = p mod g, comes from place g - 1 - j of that group. -/
def swizzle (s : List Byte) (g : Nat) : List Byte :=
  (List.range s.length).map fun p => s.getD (p / g * g + (g - 1 - p % g)) 0

/-- The swizzle a SWSZ field asks for: 0 means off (R103). -/
def swizzleBy (swsz : Nat) (s : List Byte) : List Byte := if swsz = 0 then s else swizzle s swsz

/-- The four bytes of a KEY, CTR or RK word: byte 0 is bits [31:24] (R33-R35, R232). -/
def wordBytesBE (w : Word) : List Byte :=
  [w.extractLsb' 24 8, w.extractLsb' 16 8, w.extractLsb' 8 8, w.extractLsb' 0 8]

/-- The word whose bytes are x0 (bits [31:24]) to x3 (bits [7:0]) (R232). -/
def wordOfBytesBE (x0 x1 x2 x3 : Byte) : Word :=
  fieldAt 24 x0 ||| fieldAt 16 x1 ||| fieldAt 8 x2 ||| fieldAt 0 x3

/-- Lane j of a host BUF word: bits [8j+7 : 8j] (R74). -/
def lane (w : Word) (j : Nat) : Byte := w.extractLsb' (8 * j) 8

/-- The host BUF word with BUF[4j] in bits [7:0] up to BUF[4j+3] in bits [31:24] (R74). -/
def wordOfLanes (x0 x1 x2 x3 : Byte) : Word :=
  fieldAt 24 x3 ||| fieldAt 16 x2 ||| fieldAt 8 x1 ||| fieldAt 0 x0

end Sys2Proof.Machine
end

