-- ==== Sys2Proof/Machine/BigNum.lean ====
section
/-! DEFINITION. Multi-precision values: digits, lengths and bit counts (00_scope.md R8;
41_bigint_datapath.md R155, R158). -/

namespace Sys2Proof.Machine

/-- val: the sum of d[i] * b^i, digit 0 first (R8). -/
def digitsVal : List Digit → Nat
  | [] => 0
  | d :: ds => d.toNat + radix * digitsVal ds

/-- The first `n` digits of v: digit i is (v div b^i) mod b (R8, `N[k] <- v`). -/
def toDigits : Nat → Nat → List Digit
  | 0, _ => []
  | n + 1, v => BitVec.ofNat 31 (v % radix) :: toDigits n (v / radix)

/-- The source's `used` of a digit sequence: its length without the zero digits at the top (R32). -/
def usedDigits : List Digit → Nat
  | [] => 0
  | d :: ds => if usedDigits ds = 0 ∧ d = 0 then 0 else usedDigits ds + 1

/-- bitlen(v): 0 for 0, else the position of the highest set bit plus 1 (R8). -/
def bitlen (v : Nat) : Nat := if v = 0 then 0 else v.log2 + 1

/-- len(v): how many digits v has, ceil(bitlen(v) / 31), since a digit is 31 bits (R8, R155). -/
def len (v : Nat) : Nat := (bitlen v + 30) / 31

/-- nbytes(v) = ceil(bitlen(v) / 8) (R8). -/
def nbytes (v : Nat) : Nat := (bitlen v + 7) / 8

/-- ebits(e): the bits of e from its highest set bit down to bit 0; none for 0 (R158). -/
def ebits (e : Nat) : List Bool := (List.range (bitlen e)).reverse.map e.testBit

end Sys2Proof.Machine
end

