-- ==== Sys2Proof/Machine/Flags.lean ====
section
/-! DEFINITION. STATUS, CTRL and the IRQ wire: the register words and every way the flags change
(10_state.md R26, R27, R40, R44; 40_command.md R131-R134). -/

namespace Sys2Proof.Machine

/-- The number of an error code in ERRCODE (R270). -/
def ErrCode.bits : ErrCode → BitVec 4
  | .noError => 0
  | .invalidArgument => 1
  | .preconditionFailed => 2
  | .capacityExceeded => 3
  | .illegalCommand => 4
  | .outOfRange => 5

/-- STATUS as the host reads it: BUSY, DONE, ERR, BUSYERR in bits 0-3, ERRCODE in [11:8], every other
bit 0 (R27). -/
def Status.word (st : Status) : Word :=
  fieldAt 8 st.errcode.bits ||| fieldAt 3 (BitVec.ofBool st.busyErr) ||| fieldAt 2 (BitVec.ofBool st.err) |||
    fieldAt 1 (BitVec.ofBool st.done) ||| fieldAt 0 (BitVec.ofBool st.busy)

/-- CTRL as the host reads it: IRQEN in bit 1; START and SRST read 0 (R26). -/
def ctrlWord (irqen : Bool) : Word := fieldAt 1 (BitVec.ofBool irqen)

/-- An accepted START: DONE, ERR and ERRCODE cleared, BUSY set; BUSYERR stays (R131). -/
def Status.start (st : Status) : Status :=
  { st with busy := true, done := false, err := false, errcode := .noError }

/-- A successful completion: ERRCODE <- 0, BUSY <- 0, DONE <- 1; ERR is not written (R133). -/
def Status.complete (st : Status) : Status :=
  { st with busy := false, done := true, errcode := .noError }

/-- An error completion: ERRCODE <- code, ERR <- 1, BUSY <- 0, DONE <- 1 (R133, R274). -/
def Status.fail (st : Status) (code : ErrCode) : Status :=
  { st with busy := false, done := true, err := true, errcode := code }

/-- A host write to STATUS: writing 1 clears DONE, ERR, BUSYERR; no other bit is writable (R27). -/
def Status.w1c (st : Status) (w : Word) : Status :=
  { st with
    done := st.done && !w.getLsbD 1
    err := st.err && !w.getLsbD 2
    busyErr := st.busyErr && !w.getLsbD 3 }

/-- A dropped write or a START while busy: BUSYERR <- 1 (R134). -/
def Status.dropped (st : Status) : Status := { st with busyErr := true }

/-- The interrupt wire: IRQ = STATUS.DONE and CTRL.IRQEN (R44, R280). -/
def State.irq (s : State) : Bool := s.status.done && s.irqen

end Sys2Proof.Machine
end

