-- ==== Sys2Proof/Machine/Ops.lean ====
section
/-! DEFINITION. The named operations over registers and BUF, completion and error completion
(10_state.md R36, R41; 20_memory.md R76, R77; 40_command.md R131, R133; 60_exceptions.md R274, R278). -/

namespace Sys2Proof.Machine

/-! ### BUF as a list of written bytes -/

/-- The byte stored at an address, if any byte was. -/
def Memory.get? : List Host.Cell → Nat → Option Byte
  | [], _ => none
  | (k, x) :: m, a => if a = k then some x else Memory.get? m a

/-- Store a byte, keeping the addresses strictly rising. -/
def Memory.set : List Host.Cell → Nat → Byte → List Host.Cell
  | [], a, x => [(a, x)]
  | (k, y) :: m, a, x =>
    if a < k then (a, x) :: (k, y) :: m
    else if a = k then (a, x) :: m
    else (k, y) :: Memory.set m a x

/-- Every address is below `bound` and the addresses rise strictly from `low` on. -/
def Memory.risesFrom (low bound : Nat) : List Host.Cell → Bool
  | [] => true
  | (k, _) :: m => decide (low ≤ k) && decide (k < bound) && Memory.risesFrom (k + 1) bound m

/-- The canonical form of BUF: one entry an address, addresses strictly rising and inside BUF. An
unlisted address has no stored byte (log entry 3), so equal contents are equal lists. -/
def Memory.wf (bound : Nat) (m : List Host.Cell) : Bool := Memory.risesFrom 0 bound m

/-- BUF[a]: the stored byte, or the free byte the last power-on left there (R41, R300, U1). -/
def State.bufRead (s : State) (a : Nat) : Byte :=
  (Memory.get? s.buf a).getD (Config.freeByte s.bufFill a)

/-- BUF[a] <- x. An address past BUF is no byte of BUF: nothing is stored (R41). Every command checks its
ranges first (R76), so no rule of the spec comes to such an address. -/
def State.bufWrite (s : State) (a : Nat) (x : Byte) : State :=
  if a < s.cfg.bufBytes then { s with buf := Memory.set s.buf a x } else s

/-- MemRead(a, n) (R9). -/
def State.memRead (s : State) (a n : Nat) : List Byte :=
  (List.range n).map fun j => s.bufRead (a + j)

/-- MemWrite(a, n, xs), n the length of xs, in increasing order (R9). -/
def State.memWrite (s : State) (a : Nat) : List Byte → State
  | [] => s
  | x :: xs => (s.bufWrite a x).memWrite (a + 1) xs

/-- InBuf(a, n) := a + n <= BUF_BYTES, in unbounded arithmetic (R76). -/
def State.inBuf (s : State) (a n : Nat) : Bool := decide (a + n ≤ s.cfg.bufBytes)

/-- unspecified(BUF[a .. a+n)): a free byte for each address, from one fresh draw (R9; U3, U4). -/
def State.unspecify (s : State) (a n : Nat) : State :=
  { s.memWrite a ((List.range n).map fun j => Config.freeByte s.draws (a + j)) with
    draws := s.draws + 1 }

/-! ### Registers -/

/-- N[k] in an expression: val(N[k]) (R8). -/
def State.nval (s : State) (k : RegNo) : Nat := digitsVal s.nreg[k]

/-- N[k] <- v, every digit of the register written (R8). -/
def State.setN (s : State) (k : RegNo) (v : Nat) : State :=
  { s with nreg := s.nreg.set k (toDigits s.cfg.lMax v) }

/-- A host write to one digit: w[30:0] stored, bit 31 dropped (R37). -/
def State.setDigit (s : State) (k : RegNo) (i : Nat) (w : Word) : State :=
  { s with nreg := s.nreg.set k (s.nreg[k].set i (w.extractLsb' 0 31)) }

/-- MPRIME <- the low 31 bits of w (R30). -/
def State.setMprime (s : State) (v : BitVec 31) : State := { s with mprime := v }

/-- The 60 RK words of a schedule, word i to RKi (R240). -/
@[irreducible] def rkWords (ws : List Word) : Vector Word 60 := Vector.ofFn fun i : Fin 60 => ws.getD i 0

/-- RK0-RK59 <- the schedule words (R240). -/
def State.setRk (s : State) (ws : List Word) : State := { s with rk := rkWords ws }

/-- CTRVAL = {CTR0, CTR1, CTR2, CTR3} (R34). -/
def State.ctrVal (s : State) : Nat :=
  s.ctr[0].toNat * 2 ^ 96 + s.ctr[1].toNat * 2 ^ 64 + s.ctr[2].toNat * 2 ^ 32 + s.ctr[3].toNat

/-- The four CTR words of a 128-bit value, the most significant in CTR0 (R34). -/
def ctrWords (v : Nat) : Vector Word 4 :=
  #v[BitVec.ofNat 32 (v / 2 ^ 96), BitVec.ofNat 32 (v / 2 ^ 64), BitVec.ofNat 32 (v / 2 ^ 32),
     BitVec.ofNat 32 v]

/-- CTRVAL <- v, v below 2^128 (R34, R251). -/
def State.setCtrVal (s : State) (v : Nat) : State := { s with ctr := ctrWords v }

/-! ### Completion, error completion (the block's only exception), START and acknowledgement -/

/-- Successful completion with a result (R133; RESULT: R29). -/
def State.completeOk (s : State) (result : Word) : State :=
  { s with result := result, status := s.status.complete }

/-- ERROR COMPLETION, the analogue of taking an exception (R274, R277): RESULT <- 0, ERRCODE <- code,
ERR <- 1, BUSY <- 0, DONE <- 1, and nothing else. -/
def State.errorCompletion (s : State) (code : ErrCode) : State :=
  { s with result := 0, status := s.status.fail code }

/-- An accepted START (R131): IRQEN <- w[1], DONE, ERR and ERRCODE cleared, BUSY set. With `acknowledge`
it is all there is of a return from an error completion: nothing else needs restoring (R278). -/
def State.acceptStart (s : State) (irqen : Bool) : State :=
  { s with irqen := irqen, status := s.status.start }

/-- The host's acknowledgement: a W1C write to STATUS (R27, R278). -/
def State.acknowledge (s : State) (w : Word) : State := { s with status := s.status.w1c w }

/-! ### Check lists -/

/-- The code of the first failing check: the checks are made in order, and each pairs "it fails" with its
code (R138, R275). -/
def firstFailing : List (Bool × ErrCode) → Option ErrCode
  | [] => none
  | (fails, code) :: rest => if fails then some code else firstFailing rest

/-- Make the checks in order; the first failure is an error completion with no other effect (R139,
R274), else the command goes on. -/
def State.guarded (s : State) (checks : List (Bool × ErrCode)) (go : Out) : Out :=
  match firstFailing checks with
  | some code => .next (s.errorCompletion code)
  | none => go

end Sys2Proof.Machine
end

