-- ==== Sys2Proof/Machine/Operands.lean ====
section
/-! DEFINITION. The operand forms: register operands, the implicit N5, N6, N7 and MPRIME, the ARG
operands, and the checks the Montgomery and RSA commands share (30_encoding.md R102, R103;
40_command.md R137, R138). -/

namespace Sys2Proof.Machine

/-- ARG0: source byte address (R31). -/
def State.srcAddr (s : State) : Nat := s.args[0].toNat

/-- ARG1: source length in bytes (R31). -/
def State.srcLen (s : State) : Nat := s.args[1].toNat

/-- ARG2: destination byte address (R31). -/
def State.dstAddr (s : State) : Nat := s.args[2].toNat

/-- ARG3: destination capacity or count in bytes (R31). -/
def State.dstLen (s : State) : Nat := s.args[3].toNat

/-- The implicit modulus m = val(N7) (R36). -/
def State.modulus (s : State) : Nat := s.nval RegNo.m

/-- The implicit RM = val(N6), R mod m (R36). -/
def State.rModM (s : State) : Nat := s.nval RegNo.rm

/-- The implicit RR = val(N5), R^2 mod m (R36). -/
def State.rrModM (s : State) : Nat := s.nval RegNo.rr

/-- The implicit m' = MPRIME[30:0] (R30). -/
def State.mp (s : State) : Nat := s.mprime.toNat

/-- MPrimeOK(m, mp): m * m' = -1 mod b (R137). -/
def mPrimeOK (m mp : Nat) : Bool := (m * mp + 1) % radix == 0

/-- Checks 2 and 3 of R138, MINV's own (R181): m = 0, m even. -/
def modulusChecks (m : Nat) : List (Bool × ErrCode) :=
  [(m == 0, .invalidArgument), (m % 2 == 0, .preconditionFailed)]

/-- Checks 2-4 of R138: m = 0, m even, MPRIME wrong. -/
def State.contextChecks (s : State) : List (Bool × ErrCode) :=
  modulusChecks s.modulus ++ [(!mPrimeOK s.modulus s.mp, .preconditionFailed)]

/-- A value that must be below m (R186, R192). -/
def belowCheck (v m : Nat) : Bool × ErrCode := (decide (m ≤ v), .invalidArgument)

/-- A BUF range that must be inside BUF (R76). -/
def State.rangeCheck (s : State) (a n : Nat) : Bool × ErrCode := (!s.inBuf a n, .outOfRange)

/-- A byte count that must be a multiple of a nonzero swizzle size (R161, R167). -/
def swizzleCheck (swsz n : Nat) : Bool × ErrCode :=
  (decide (swsz ≠ 0) && decide (n % swsz ≠ 0), .invalidArgument)

end Sys2Proof.Machine
end

