-- ==== Sys2Proof/Machine/Reset.lean ====
section
/-! DEFINITION. Power-on reset and soft reset (70_reset_and_hazards.md R300-R303). -/

namespace Sys2Proof.Machine

/-- Every register but ID and PARAM at its reset value, every digit 0; BUF, the schedule and the port are
not registers of the block and stay (R302). -/
def State.resetRegisters (s : State) : State :=
  { State.resetWith s.cfg with
    buf := s.buf, bufFill := s.bufFill, draws := s.draws, sched := s.sched, resp := s.resp }

/-- Power-on reset, at any time (R300): the registers as R300 says, every byte of BUF a free byte of a
fresh draw (U1). The block's reset does not touch what the outside does next. -/
def State.powerOn (s : State) : State :=
  { s.resetRegisters with buf := [], bufFill := s.draws, draws := s.draws + 1 }

/-- Dest(cmd): address and length of the range a command would write (R302). -/
def State.dest (s : State) : Instr → Option (Nat × Nat)
  | .nop => none
  | .loadb _ _ _ => none
  | .storeb _ _ => some (s.dstAddr, s.dstLen)
  | .minv => none
  | .montmul _ _ _ => none
  | .montexp _ _ _ => none
  | .rsaenc _ => some (s.dstAddr, s.dstLen)
  | .rsadec _ => some (s.dstAddr, s.dstLen)
  | .aeskeyexp => none
  | .aesblk => some (s.dstAddr, 16)
  | .aesctr => some (s.dstAddr, s.srcLen)

/-- Dest of the latched command; an illegal CMD has none (R302). -/
def State.latchedDest (s : State) : Option (Nat × Nat) :=
  match decode s.cmd with
  | .ok i => s.dest i
  | .error _ => none

/-- The bytes of [a, a+n) that are in BUF: how many there are from a on (R302). -/
def State.clip (s : State) (a n : Nat) : Nat := min (a + n) s.cfg.bufBytes - a

/-- The abort of a command in flight: its destination range inside BUF becomes unspecified; idle, nothing
(R302, R303; U4). -/
def State.abort (s : State) : State :=
  if s.status.busy then
    match s.latchedDest with
    | some (a, n) => s.unspecify a (s.clip a n)
    | none => s
  else s

/-- Soft reset (R302): abort, then every register to its reset value, atomically. -/
def State.softReset (s : State) : State := s.abort.resetRegisters

end Sys2Proof.Machine
end

