-- ==== Sys2Proof/Machine/Bus.lean ====
section
/-! DEFINITION. The host port: window decode, admitted and refused accesses, reads and writes of every
register, the BUSY rules (10_state.md R21-R37; 20_memory.md R70-R75; 40_command.md R131, R134). -/

namespace Sys2Proof.Machine

/-- The byte address is in the block's 16 KiB window (R70, R78). -/
def inWindow (c : Config) (addr : Nat) : Bool :=
  decide (c.baseAddr ≤ addr) && decide (addr < c.baseAddr + 0x4000)

/-- Only aligned 32-bit accesses are admitted (R71). -/
def admitted (off bytes : Nat) : Bool := bytes == 4 && off % 4 == 0

/-- What stands at a word offset below 0x1000 (R21). -/
def controlReg (off : Nat) : WindowReg :=
  if off = 0x000 then .id
  else if off = 0x004 then .param
  else if off = 0x008 then .ctrl
  else if off = 0x00C then .status
  else if off = 0x010 then .cmd
  else if off = 0x014 then .result
  else if off = 0x018 then .mprime
  else if h : 0x020 ≤ off ∧ off < 0x030 then .arg ⟨(off - 0x020) / 4, by omega⟩
  else if h : 0x040 ≤ off ∧ off < 0x060 then .used ⟨(off - 0x040) / 4, by omega⟩
  else if h : 0x080 ≤ off ∧ off < 0x0A0 then .key ⟨(off - 0x080) / 4, by omega⟩
  else if h : 0x0A0 ≤ off ∧ off < 0x0B0 then .ctr ⟨(off - 0x0A0) / 4, by omega⟩
  else if h : 0x100 ≤ off ∧ off < 0x1F0 then .rk ⟨(off - 0x100) / 4, by omega⟩
  else .reserved

/-- What stands at a word offset of the window: the control registers (R21), the BigNum windows (R22),
the BUF window (R23); everything else is reserved. -/
def windowAt (c : Config) (off : Nat) : WindowReg :=
  if off < 0x1000 then controlReg off
  else if h : off < 0x2000 then
    if (off - 0x1000) % 0x200 / 4 < c.lMax then
      .digit ⟨(off - 0x1000) / 0x200, by omega⟩ ((off - 0x1000) % 0x200 / 4)
    else .reserved
  else if off - 0x2000 < c.bufBytes then .bufWord ((off - 0x2000) / 4)
  else .reserved

/-- Registers the host may read and write in full sense while BUSY = 1: ID, PARAM, CTRL, STATUS are
legible (R134(d)). -/
def WindowReg.legibleBusy : WindowReg → Bool
  | .id => true
  | .param => true
  | .ctrl => true
  | .status => true
  | .cmd => false
  | .result => false
  | .mprime => false
  | .arg _ => false
  | .used _ => false
  | .key _ => false
  | .ctr _ => false
  | .rk _ => false
  | .digit _ _ => false
  | .bufWord _ => false
  | .reserved => false

/-- ID (R24). -/
def idWord : Word := 0x4D504531#32

/-- PARAM: L_MAX in [7:0], BUF_BYTES in [31:16] (R25). -/
def paramWord (c : Config) : Word :=
  fieldAt 16 (BitVec.ofNat 16 c.bufBytes) ||| fieldAt 0 (BitVec.ofNat 8 c.lMax)

/-- USEDk: the digits in use of N[k] (R32). -/
def State.used (s : State) (k : RegNo) : Nat := usedDigits s.nreg[k]

/-- The word a read of a window register returns (R24-R37, R74). -/
def State.readReg (s : State) : WindowReg → Word
  | .id => idWord
  | .param => paramWord s.cfg
  | .ctrl => ctrlWord s.irqen
  | .status => s.status.word
  | .cmd => s.cmd
  | .result => s.result
  | .mprime => s.mprime.setWidth 32
  | .arg k => s.args[k]
  | .used k => BitVec.ofNat 32 (s.used k)
  | .key k => s.key[k]
  | .ctr k => s.ctr[k]
  | .rk i => s.rk[i]
  | .digit k i => (s.nreg[k].getD i 0).setWidth 32
  | .bufWord j =>
    wordOfLanes (s.bufRead (4 * j)) (s.bufRead (4 * j + 1)) (s.bufRead (4 * j + 2)) (s.bufRead (4 * j + 3))
  | .reserved => 0

/-- CTRL.START while BUSY = 1: no START, BUSYERR <- 1, IRQEN still written (R134(a)). -/
def State.refuseStart (s : State) (irqen : Bool) : State :=
  { s with irqen := irqen, status := s.status.dropped }

/-- A write to CTRL: SRST wins over everything; then START, accepted only when idle; else IRQEN alone
(R26, R131, R134(a), R302). -/
def State.writeCtrl (s : State) (w : Word) : State :=
  if w.getLsbD 2 then s.softReset
  else if w.getLsbD 0 then
    if s.status.busy then s.refuseStart (w.getLsbD 1) else s.acceptStart (w.getLsbD 1)
  else { s with irqen := w.getLsbD 1 }

/-- A write the idle block takes; read-only registers and reserved offsets ignore it (R21, R24-R37,
D51). CTRL and STATUS are written the same way busy or idle. -/
def State.writeReg (s : State) (r : WindowReg) (w : Word) : State :=
  match r with
  | .id => s
  | .param => s
  | .ctrl => s.writeCtrl w
  | .status => s.acknowledge w
  | .cmd => { s with cmd := w }
  | .result => s
  | .mprime => s.setMprime (w.extractLsb' 0 31)
  | .arg k => { s with args := s.args.set k w }
  | .used _ => s
  | .key k => { s with key := s.key.set k w }
  | .ctr k => { s with ctr := s.ctr.set k w }
  | .rk _ => s
  | .digit k i => s.setDigit k i w
  | .bufWord j => s.memWrite (4 * j) [lane w 0, lane w 1, lane w 2, lane w 3]
  | .reserved => s

/-- The registers a write reaches while BUSY = 1: CTRL and STATUS (R134(a), (b)). -/
def WindowReg.writableBusy : WindowReg → Bool
  | .id => false
  | .param => false
  | .ctrl => true
  | .status => true
  | .cmd => false
  | .result => false
  | .mprime => false
  | .arg _ => false
  | .used _ => false
  | .key _ => false
  | .ctr _ => false
  | .rk _ => false
  | .digit _ _ => false
  | .bufWord _ => false
  | .reserved => false

/-- A write dropped while BUSY = 1: nothing changes but BUSYERR (R134(c)). -/
def State.dropWrite (s : State) : State := { s with status := s.status.dropped }

/-- The host port's answer (log entry 4). -/
def State.respond (s : State) (r : BusResp) : State := { s with resp := r }

/-- An admitted read at a window offset: while BUSY = 1 every register but ID, PARAM, CTRL and STATUS
reads as a fresh free word (R134(d), (e); U2); a read changes nothing of the block (R72). -/
def State.hostRead (s : State) (off : Nat) : State :=
  if s.status.busy && !(windowAt s.cfg off).legibleBusy then
    { s with resp := .readData (Config.freeWord s.draws), draws := s.draws + 1 }
  else s.respond (.readData (s.readReg (windowAt s.cfg off)))

/-- An admitted write at a window offset (R72, R134). -/
def State.hostWrite (s : State) (off : Nat) (w : Word) : State :=
  if s.status.busy && !(windowAt s.cfg off).writableBusy then s.dropWrite.respond .writeAck
  else (s.writeReg (windowAt s.cfg off) w).respond .writeAck

/-- A host access at a byte address. Outside the window the block does not decode it and the model stops
(R71, U10); a wrong width or a misaligned offset is a bus error that changes nothing (R71, R273). -/
def State.access (s : State) (addr bytes : Nat) (go : Nat → State) : Out :=
  if inWindow s.cfg addr then
    if admitted (addr - s.cfg.baseAddr) bytes then .next (go (addr - s.cfg.baseAddr))
    else .next (s.respond .busError)
  else .fault .outsideWindow

end Sys2Proof.Machine
end

