-- ==== Sys2Proof/Machine/Aes.lean ====
section
/-! DEFINITION. AES-256: key expansion, the forward cipher, counter mode (44_aes.md R230-R254). -/

namespace Sys2Proof.Machine

/-- The S-box table of R234, one row a high nibble, the entry of low nibble 0 first. -/
def sboxRows : List Nat :=
  [0x637c777bf26b6fc53001672bfed7ab76,
   0xca82c97dfa5947f0add4a2af9ca472c0,
   0xb7fd9326363ff7cc34a5e5f171d83115,
   0x04c723c31896059a071280e2eb27b275,
   0x09832c1a1b6e5aa0523bd6b329e32f84,
   0x53d100ed20fcb15b6acbbe394a4c58cf,
   0xd0efaafb434d338545f9027f503c9fa8,
   0x51a3408f929d38f5bcb6da2110fff3d2,
   0xcd0c13ec5f974417c4a77e3d645d1973,
   0x60814fdc222a908846eeb814de5e0bdb,
   0xe0323a0a4906245cc2d3ac629195e479,
   0xe7c8376d8dd54ea96c56f4ea657aae08,
   0xba78252e1ca6b4c6e8dd741f4bbd8b8a,
   0x703eb5664803f60e613557b986c11d9e,
   0xe1f8981169d98e949b1e87e9ce5528df,
   0x8ca1890dbfe6426841992d0fb054bb16]

/-- SBOX[x]: row the high nibble, column the low nibble (R234). -/
def sbox (x : Byte) : Byte :=
  BitVec.ofNat 8 (sboxRows.getD (x.toNat / 16) 0 >>> (8 * (15 - x.toNat % 16)))

/-- xtime, multiplication by 2 in GF(2^8) (R10, R233). -/
def xtime (x : Byte) : Byte := (x <<< 1) ^^^ (if x.getLsbD 7 then 0x1b#8 else 0#8)

/-- 3 · x = xtime(x) ^ x (R233). -/
def mul3 (x : Byte) : Byte := xtime x ^^^ x

/-! ### Round transformations on the 16 state bytes, byte (row, col) at index col*4 + row (R231) -/

/-- SubBytes (R235). -/
def subBytes (s : List Byte) : List Byte := s.map sbox

/-- ShiftRows: s'[c*4 + r] = s[((c + r) mod 4)*4 + r] (R236). -/
def shiftRows (s : List Byte) : List Byte :=
  (List.range 16).map fun i => s.getD ((i / 4 + i % 4) % 4 * 4 + i % 4) 0

/-- MixColumns of one column (R237). -/
def mixColumn (s0 s1 s2 s3 : Byte) : List Byte :=
  [xtime s0 ^^^ mul3 s1 ^^^ s2 ^^^ s3,
   s0 ^^^ xtime s1 ^^^ mul3 s2 ^^^ s3,
   s0 ^^^ s1 ^^^ xtime s2 ^^^ mul3 s3,
   mul3 s0 ^^^ s1 ^^^ s2 ^^^ xtime s3]

/-- MixColumns: every column of four consecutive bytes (R237). -/
def mixColumns : List Byte → List Byte
  | s0 :: s1 :: s2 :: s3 :: rest => mixColumn s0 s1 s2 s3 ++ mixColumns rest
  | rest => rest

/-- Round key k as 16 bytes: byte c*4 + r is byte r of schedule word 4k + c (R237). -/
def roundKey (w : List Word) (k : Nat) : List Byte := ((w.drop (4 * k)).take 4).flatMap wordBytesBE

/-- AddRoundKey with round key k (R237). -/
def addRoundKey (w : List Word) (k : Nat) (s : List Byte) : List Byte :=
  List.zipWith (fun x y => x ^^^ y) s (roundKey w k)

/-! ### Key expansion -/

/-- RotWord (R238). -/
def rotWord (w : Word) : Word := w.rotateLeft 8

/-- SubWord (R238). -/
def subWord (w : Word) : Word :=
  wordOfBytesBE (sbox (w.extractLsb' 24 8)) (sbox (w.extractLsb' 16 8)) (sbox (w.extractLsb' 8 8))
    (sbox (w.extractLsb' 0 8))

/-- Rcon[k] = 2^k in GF(2^8) for k = 0..6, in byte 0 of the word (R239). -/
def rcon (k : Nat) : Word := BitVec.ofNat 32 (2 ^ k * 2 ^ 24)

/-- Schedule word i >= 8 from the words before it (R240). -/
def keyWord (w : List Word) (i : Nat) : Word :=
  let prev := w.getD (i - 1) 0
  let temp :=
    if i % 8 = 0 then subWord (rotWord prev) ^^^ rcon (i / 8 - 1)
    else if i % 8 = 4 then subWord prev
    else prev
  w.getD (i - 8) 0 ^^^ temp

/-- The first 8 + n schedule words (R240). -/
def keyWords (key : List Word) : Nat → List Word
  | 0 => key
  | n + 1 => keyWords key n ++ [keyWord (keyWords key n) (n + 8)]

/-- KE(key): the 60 schedule words (R240). -/
@[irreducible] def keyExpand (key : List Word) : List Word := keyWords key 52

/-! ### The forward cipher -/

/-- The state after AddRoundKey 0 and rounds 1 to k (R245). -/
def aesRounds (w : List Word) (s : List Byte) : Nat → List Byte
  | 0 => addRoundKey w 0 s
  | k + 1 => addRoundKey w (k + 1) (mixColumns (shiftRows (subBytes (aesRounds w s k))))

/-- AES_ENC(w, in): rounds 1-13, then round 14 without MixColumns (R245). -/
@[irreducible] def aesEnc (w : List Word) (s : List Byte) : List Byte :=
  addRoundKey w 14 (shiftRows (subBytes (aesRounds w s 13)))

/-! ### The commands -/

/-- The schedule of KEY0-KEY7 as they stand (R240). -/
def State.schedule (s : State) : List Word := keyExpand s.key.toList

/-- AESKEYEXP (R241). -/
def execAeskeyexp (s : State) : Out := .next ((s.setRk s.schedule).completeOk 0)

/-- AESBLK (R246): all 16 input bytes are read before any write. -/
def execAesblk (s : State) : Out :=
  s.guarded [s.rangeCheck s.srcAddr 16, s.rangeCheck s.dstAddr 16]
    (.next (((s.memWrite s.dstAddr (aesEnc s.schedule (s.memRead s.srcAddr 16))).setRk
      s.schedule).completeOk 0))

/-- The number of 16-byte chunks of L bytes, ceil(L / 16) (R251). -/
def ctrChunks (l : Nat) : Nat := (l + 15) / 16

/-- The keystream block of counter value ctr (R251). -/
def keystream (w : List Word) (ctr : Nat) : List Byte := aesEnc w (beBytes ctr 16)

/-- One byte of a chunk: read it, XOR it, write it, in this order (R251, R77). -/
def ctrByte (src dst : Nat) (ks : List Byte) (s : State) (t : Nat) : State :=
  s.bufWrite (dst + t) (s.bufRead (src + t) ^^^ ks.getD t 0)

/-- Chunk j of AESCTR: the keystream of counter (CTRVAL + j) mod 2^128 XORed into min(16, L - 16j)
bytes (R250, R251). `s0` is the state at START. -/
def ctrChunk (s0 : State) (w : List Word) (s : State) (j : Nat) : State :=
  (List.range (min 16 (s0.srcLen - 16 * j))).foldl
    (ctrByte (s0.srcAddr + 16 * j) (s0.dstAddr + 16 * j) (keystream w ((s0.ctrVal + j) % 2 ^ 128))) s

/-- AESCTR (R251, R252): ARG1 is the length of both ranges; the counter advances once a chunk, a partial
one included. -/
def execAesctr (s : State) : Out :=
  s.guarded [s.rangeCheck s.srcAddr s.srcLen, s.rangeCheck s.dstAddr s.srcLen]
    (.next ((((((List.range (ctrChunks s.srcLen)).foldl (ctrChunk s s.schedule) s).setCtrVal
      ((s.ctrVal + ctrChunks s.srcLen) % 2 ^ 128)).setRk s.schedule)).completeOk 0))

end Sys2Proof.Machine
end

