-- ==== Sys2Proof/Machine/Montgomery.lean ====
section
/-! DEFINITION. The Montgomery core: MINV, MONTMUL, MONTEXP (42_montgomery.md R181, R185, R186, R190,
R192). -/

namespace Sys2Proof.Machine

/-- The low k bits of -m^-1, found bit by bit: a bit is set when m * p + 1 is not yet 0 modulo the next
power of 2. R181 and R182 leave the method open and fix the value (log entry 9). -/
def negInvBits (m : Nat) : Nat → Nat
  | 0 => 0
  | k + 1 =>
    let p := negInvBits m k
    if (m * p + 1) % 2 ^ (k + 1) = 0 then p else p + 2 ^ k

/-- m' for an odd m: the one value in [0, b) with (m * m' + 1) mod b = 0 (R181). -/
@[irreducible] def montInverse (m : Nat) : Nat := negInvBits m 31

/-- One iteration of R185's loop, i the digit index of x and a the accumulator. -/
def mmStep (x y m mp i a : Nat) : Nat :=
  let xi := x / radix ^ i % radix
  let ui := (a % radix + xi * (y % radix)) % radix * mp % radix
  (a + xi * y + ui * m) / radix

/-- The accumulator after the first `n` iterations of R185's loop. -/
def mmLoop (x y m mp : Nat) : Nat → Nat
  | 0 => 0
  | i + 1 => mmStep x y m mp i (mmLoop x y m mp i)

/-- MM(x, y, m, m'), the Montgomery product function (R185). -/
def mm (x y m mp : Nat) : Nat :=
  let a := mmLoop x y m mp (len m)
  if m ≤ a then a - m else a

/-- One exponent bit of the ladder: square, and multiply by x-bar on a 1 (R190, step 3). -/
def meStep (xbar m mp : Nat) (a : Nat) (bit : Bool) : Nat :=
  let sq := mm a a m mp
  if bit then mm sq xbar m mp else sq

/-- ME(x, e, m, m', rm, rr), the Montgomery exponentiation function (R190). -/
def me (x e m mp rm rr : Nat) : Nat :=
  mm ((ebits e).foldl (meStep (mm x rr m mp) m mp) rm) 1 m mp

/-- MINV (R181). -/
def execMinv (s : State) : Out :=
  let v := BitVec.ofNat 31 (montInverse s.modulus)
  s.guarded (modulusChecks s.modulus) (.next ((s.setMprime v).completeOk (v.setWidth 32)))

/-- MONTMUL (R186). -/
def execMontmul (rd rs1 rs2 : RegNo) (s : State) : Out :=
  s.guarded
    (s.contextChecks ++ [belowCheck (s.nval rs1) s.modulus, belowCheck (s.nval rs2) s.modulus])
    (.next ((s.setN rd (mm (s.nval rs1) (s.nval rs2) s.modulus s.mp)).completeOk 0))

/-- ME over the implicit modulus, MPRIME, RM and RR of a state (R190, R192). -/
def State.modExp (s : State) (x e : Nat) : Nat := me x e s.modulus s.mp s.rModM s.rrModM

/-- MONTEXP (R192): rs1 is x, rs2 the exponent. -/
def execMontexp (rd rs1 rs2 : RegNo) (s : State) : Out :=
  s.guarded
    (s.contextChecks ++
      [belowCheck (s.nval rs1) s.modulus, belowCheck s.rModM s.modulus, belowCheck s.rrModM s.modulus])
    (.next ((s.setN rd (s.modExp (s.nval rs1) (s.nval rs2))).completeOk 0))

end Sys2Proof.Machine
end

