-- ==== Sys2Proof/Machine/Rsa.lean ====
section
/-! DEFINITION. The RSA block layer: RSAENC and RSADEC (43_rsa.md R210, R212, R216). -/

namespace Sys2Proof.Machine

/-- input_block_bytes: floor((bitlen(m) - 1) / 8) (R210). -/
def inBlock (m : Nat) : Nat := (bitlen m - 1) / 8

/-- output_block_bytes: ceil(bitlen(m) / 8) (R210). -/
def outBlock (m : Nat) : Nat := (bitlen m + 7) / 8

/-- nb = ceil(n / ib), the number of input blocks (R212). -/
def State.encBlocks (s : State) : Nat :=
  (s.srcLen + inBlock s.modulus - 1) / inBlock s.modulus

/-- need = nb * ob, the bytes RSAENC writes (R212). -/
def State.encNeed (s : State) : Nat := s.encBlocks * outBlock s.modulus

/-- Block j of RSAENC: load, exponentiate, store (R212). `s0` is the state at START, which gives the
operands; `s` the state so far, whose BUF the block reads (R77, R135). -/
def rsaencBlock (s0 : State) (e : Nat) (s : State) (j : Nat) : State :=
  let ib := inBlock s0.modulus
  let ob := outBlock s0.modulus
  let x := beVal (s.memRead (s0.srcAddr + j * ib) (min ib (s0.srcLen - j * ib)))
  s.memWrite (s0.dstAddr + j * ob) (beBytes (s0.modExp x e) ob)

/-- The check list of RSAENC after ILLEGAL_COMMAND (R212, R271). -/
def State.rsaencChecks (s : State) : List (Bool × ErrCode) :=
  s.contextChecks ++
    [belowCheck s.rModM s.modulus, belowCheck s.rrModM s.modulus,
     s.rangeCheck s.srcAddr s.srcLen, s.rangeCheck s.dstAddr s.dstLen,
     (inBlock s.modulus == 0, .invalidArgument),
     (decide (s.dstLen < s.encNeed), .invalidArgument)]

/-- RSAENC (R212): rs2 is the exponent. -/
def execRsaenc (rs2 : RegNo) (s : State) : Out :=
  s.guarded s.rsaencChecks
    (.next (((List.range s.encBlocks).foldl (rsaencBlock s (s.nval rs2)) s).completeOk
      (BitVec.ofNat 32 s.encNeed)))

/-- The block loop of RSADEC (R216): `left` blocks to go, block `j` next, `w` bytes written so far. An
error carries its code out of the loop. -/
def rsadecLoop (s0 : State) (d : Nat) : Nat → Nat → Nat → State → Except ErrCode (State × Nat)
  | 0, _, w, s => .ok (s, w)
  | left + 1, j, w, s =>
    let ob := outBlock s0.modulus
    let c := beVal (s.memRead (s0.srcAddr + j * ob) ob)
    let p := s0.modExp c d
    let k := nbytes p
    if s0.modulus ≤ c then .error .invalidArgument
    else if s0.dstLen < w + k then .error .capacityExceeded
    else rsadecLoop s0 d left (j + 1) (w + k) (s.memWrite (s0.dstAddr + w) (beBytes p k))

/-- The check list of RSADEC before its loop, after ILLEGAL_COMMAND (R216, R271). -/
def State.rsadecChecks (s : State) : List (Bool × ErrCode) :=
  s.contextChecks ++
    [belowCheck s.rModM s.modulus, belowCheck s.rrModM s.modulus,
     s.rangeCheck s.srcAddr s.srcLen, s.rangeCheck s.dstAddr s.dstLen,
     (decide (s.srcLen % outBlock s.modulus ≠ 0), .invalidArgument)]

/-- A failure inside RSADEC's loop: the whole destination range is unspecified, then the error completion
(R216 `fail_midrun`, R274). Every byte the loop wrote lies in that range. -/
def State.failMidrun (s : State) (code : ErrCode) : State :=
  (s.unspecify s.dstAddr s.dstLen).errorCompletion code

/-- RSADEC after its checks: the loop over all blocks, then completion, or the mid-run failure (R216). -/
def State.rsadecRun (s : State) (d : Nat) : Out :=
  match rsadecLoop s d (s.srcLen / outBlock s.modulus) 0 0 s with
  | .ok (t, w) => .next (t.completeOk (BitVec.ofNat 32 w))
  | .error code => .next (s.failMidrun code)

/-- RSADEC (R216): rs2 is the private exponent. -/
def execRsadec (rs2 : RegNo) (s : State) : Out :=
  s.guarded s.rsadecChecks (s.rsadecRun (s.nval rs2))

end Sys2Proof.Machine
end

