-- ==== Sys2Proof/Machine/Transfer.lean ====
section
/-! DEFINITION. NOP, LOADB and STOREB (40_command.md R140; 41_bigint_datapath.md R161, R167). -/

namespace Sys2Proof.Machine

/-- NOP (R140): no effect, result 0. -/
def execNop (s : State) : Out := .next (s.completeOk 0)

/-- The bytes LOADB reads, swizzled: BUF[ARG0 .. ARG0+ARG1) (R161). -/
def State.loadBytes (s : State) (swsz : Nat) : List Byte :=
  swizzleBy swsz (s.memRead s.srcAddr s.srcLen)

/-- The value LOADB makes: base * 256^n + BE(bytes), base 0 with preZero, else N[rd] (R161). -/
def State.loadValue (s : State) (rd : RegNo) (swsz : Nat) (pz : Bool) : Nat :=
  (if pz then 0 else s.nval rd) * 256 ^ s.srcLen + beVal (s.loadBytes swsz)

/-- LOADB (R161). -/
def execLoadb (rd : RegNo) (swsz : Nat) (pz : Bool) (s : State) : Out :=
  s.guarded
    [swizzleCheck swsz s.srcLen,
     s.rangeCheck s.srcAddr s.srcLen,
     (decide (radix ^ s.cfg.lMax ≤ s.loadValue rd swsz pz), .outOfRange)]
    (.next ((s.setN rd (s.loadValue rd swsz pz)).completeOk 0))

/-- The bytes STOREB writes: BEbytes(N[rs1], ARG3), swizzled (R167). -/
def State.storeBytes (s : State) (rs1 : RegNo) (swsz : Nat) : List Byte :=
  swizzleBy swsz (beBytes (s.nval rs1) s.dstLen)

/-- STOREB (R167). -/
def execStoreb (rs1 : RegNo) (swsz : Nat) (s : State) : Out :=
  s.guarded
    [swizzleCheck swsz s.dstLen,
     s.rangeCheck s.dstAddr s.dstLen]
    (.next ((s.memWrite s.dstAddr (s.storeBytes rs1 swsz)).completeOk 0))

end Sys2Proof.Machine
end

