-- ==== Sys2Proof/Machine/Dispatch.lean ====
section
/-! DEFINITION. Which meaning each command has (30_encoding.md R101): the completion of that command. -/

namespace Sys2Proof.Machine

/-- The completion step of a decoded command (40_command.md R133). -/
def exec (i : Instr) (s : State) : Host.Outcome State Fault Refusal :=
  match i with
  | .nop => Sys2Proof.Machine.execNop s
  | .loadb rd swsz pz => Sys2Proof.Machine.execLoadb rd swsz pz s
  | .storeb rs1 swsz => Sys2Proof.Machine.execStoreb rs1 swsz s
  | .minv => Sys2Proof.Machine.execMinv s
  | .montmul rd rs1 rs2 => Sys2Proof.Machine.execMontmul rd rs1 rs2 s
  | .montexp rd rs1 rs2 => Sys2Proof.Machine.execMontexp rd rs1 rs2 s
  | .rsaenc rs2 => Sys2Proof.Machine.execRsaenc rs2 s
  | .rsadec rs2 => Sys2Proof.Machine.execRsadec rs2 s
  | .aeskeyexp => Sys2Proof.Machine.execAeskeyexp s
  | .aesblk => Sys2Proof.Machine.execAesblk s
  | .aesctr => Sys2Proof.Machine.execAesctr s

end Sys2Proof.Machine
end

