-- ==== Sys2Proof/Machine/Engine.lean ====
section
/-! DEFINITION. The engine's completion step and the order of the agents (00_scope.md R13;
40_command.md R132, R133; 20_memory.md R80). -/

namespace Sys2Proof.Machine

/-- complete(): decode CMD; an illegal word completes with ILLEGAL_COMMAND, a command by its rule (R105,
R133). -/
def State.completion (s : State) : Out :=
  match decode s.cmd with
  | .ok i => exec i s
  | .error _ => .next (s.errorCompletion .illegalCommand)

/-- The engine's turn: it has a step only while BUSY = 1 (R13, R132). -/
def State.engineTurn (s : State) : Out := if s.status.busy then s.completion else .next s

/-- One event (R80, R276, R300). -/
def State.event (s : State) : Event → Out
  | .read addr bytes => s.access addr bytes s.hostRead
  | .write addr bytes data => s.access addr bytes fun off => s.hostWrite off data
  | .engine => s.engineTurn
  | .powerOn => .next s.powerOn

/-- The next step: the first event of the schedule, taken off it; with nothing scheduled the engine
finishes what is in flight, and an idle block waits (R13, R130, R136; log entry 2). -/
def State.agentStep (s : State) : Out :=
  match s.sched with
  | [] => s.engineTurn
  | e :: rest => State.event { s with sched := rest } e

/-- A command word put in CMD and started by the host, nothing else scheduled (R131, R133). -/
def State.placeCommand (s : State) (w : Word) : State :=
  State.acceptStart { s with cmd := w, sched := [] } s.irqen

end Sys2Proof.Machine
end

