-- ==== Sys2Proof/Machine/Step.lean ====
section
/-! DEFINITION. One step of the machine, and a state whose next step runs a given command. -/

namespace Sys2Proof.Machine

/-- One step (00_scope.md R13). -/
def step (s : State) : Host.Outcome State Fault Refusal := s.agentStep

/-- The state in which the command word of an opcode-table row is in CMD, started, and the engine moves
next: the block fetches nothing (10_state.md R39), it takes its command from CMD (R84). -/
def State.withFetchWord (s : State) (nbits w : Nat) : State :=
  s.placeCommand (BitVec.ofNat 32 (w % 2 ^ nbits))

end Sys2Proof.Machine
end

