-- ==== Sys2Proof/Machine/Assembler.lean ====
section
/-! DEFINITION. The assembler's spelling of the commands (30_encoding.md R110-R112). A source line is its
mnemonic and its comma-separated operands. -/

namespace Sys2Proof.Machine

/-- The register names n0-n7 and the aliases rr, rm, m (R111). -/
def regName : String → Option RegNo
  | "n0" => some 0
  | "n1" => some 1
  | "n2" => some 2
  | "n3" => some 3
  | "n4" => some 4
  | "n5" => some 5
  | "n6" => some 6
  | "n7" => some 7
  | "rr" => some RegNo.rr
  | "rm" => some RegNo.rm
  | "m" => some RegNo.m
  | _ => none

/-- The operand `swz=W`, W a decimal integer 0-15 (R111). -/
def swzOption : String → Option Nat
  | "swz=0" => some 0
  | "swz=1" => some 1
  | "swz=2" => some 2
  | "swz=3" => some 3
  | "swz=4" => some 4
  | "swz=5" => some 5
  | "swz=6" => some 6
  | "swz=7" => some 7
  | "swz=8" => some 8
  | "swz=9" => some 9
  | "swz=10" => some 10
  | "swz=11" => some 11
  | "swz=12" => some 12
  | "swz=13" => some 13
  | "swz=14" => some 14
  | "swz=15" => some 15
  | _ => none

/-- `tomont nD, nS` = `montmul nD, nS, rr` (R112). -/
def tomont (rd rs : RegNo) : Instr := .montmul rd rs RegNo.rr

/-- `msqr nD, nS` = `montmul nD, nS, nS` (R112). -/
def msqr (rd rs : RegNo) : Instr := .montmul rd rs rs

/-- loadb's optional operands, in this order: `swz=W`, then `pz` (R110). -/
def loadbOptions : List String → Option (Nat × Bool)
  | [] => some (0, false)
  | ["pz"] => some (0, true)
  | [w] => (swzOption w).map fun n => (n, false)
  | [w, "pz"] => (swzOption w).map fun n => (n, true)
  | _ => none

/-- storeb's optional operand `swz=W` (R110). -/
def storebOptions : List String → Option Nat
  | [] => some 0
  | [w] => swzOption w
  | _ => none

/-- Three register operands. -/
def regs3 (f : RegNo → RegNo → RegNo → Instr) (x y z : String) : Option Instr := do
  let a ← regName x
  let b ← regName y
  let c ← regName z
  pure (f a b c)

/-- Two register operands. -/
def regs2 (f : RegNo → RegNo → Instr) (x y : String) : Option Instr := do
  let a ← regName x
  let b ← regName y
  pure (f a b)

/-- The instruction of a source line; `none` is an assembler error (R110-R112). -/
def assemble : String → List String → Option Instr
  | "nop", [] => some .nop
  | "loadb", d :: opts => do
    let rd ← regName d
    let o ← loadbOptions opts
    pure (.loadb rd o.1 o.2)
  | "storeb", s :: opts => do
    let rs ← regName s
    let w ← storebOptions opts
    pure (.storeb rs w)
  | "minv", [] => some .minv
  | "montmul", [d, s, t] => regs3 .montmul d s t
  | "montexp", [d, s, t] => regs3 .montexp d s t
  | "rsaenc", [t] => (regName t).map .rsaenc
  | "rsadec", [t] => (regName t).map .rsadec
  | "aeskeyexp", [] => some .aeskeyexp
  | "aesblk", [] => some .aesblk
  | "aesctr", [] => some .aesctr
  | "tomont", [d, s] => regs2 tomont d s
  | "msqr", [d, s] => regs2 msqr d s
  | _, _ => none

end Sys2Proof.Machine
end

