-- ==== Sys2Proof/Machine/HostProgram.lean ====
section
/-! DEFINITION. The host-sequence notation (30_encoding.md R114) as lists of events. -/

namespace Sys2Proof.Machine

/-- `W <offset>, <value>`: one 32-bit write (R114). -/
def hostW (c : Config) (off : Nat) (v : Word) : Event := .write (c.baseAddr + off) 4 v

/-- `R <offset>`: one 32-bit read (R114). -/
def hostR (c : Config) (off : Nat) : Event := .read (c.baseAddr + off) 4

/-- `RUN <command>`: write CMD, START with the kept IRQEN, poll STATUS until BUSY = 0. The number of
polls that still see BUSY = 1 is the command's latency (R114, R132). -/
def runCommand (c : Config) (word : Word) (irqen : Bool) (polls : Nat) : List Event :=
  [hostW c 0x010 word, hostW c 0x008 (fieldAt 1 (BitVec.ofBool irqen) ||| 1#32)] ++
    List.replicate polls (hostR c 0x00C) ++ [.engine, hostR c 0x00C]

/-- `WN k, v`: digits(v), then 0 in every higher digit, at R22's offsets (R114). -/
def writeN (c : Config) (k : RegNo) (v : Nat) : List Event :=
  (List.range c.lMax).map fun i =>
    hostW c (0x1000 + 0x200 * k.val + 4 * i) (((toDigits c.lMax v).getD i 0).setWidth 32)

/-- The byte a WB macro puts at address p: the string's where it reaches, else what is there. -/
def State.mergedByte (s : State) (a : Nat) (xs : List Byte) (p : Nat) : Byte :=
  if a ≤ p ∧ p < a + xs.length then xs.getD (p - a) 0 else s.bufRead p

/-- `WB a, xs` in a state: word writes, a partial first or last word read-modify-write (R114, R74). -/
def State.writeBytes (s : State) (a : Nat) (xs : List Byte) : List Event :=
  if xs = [] then []
  else (List.range ((a + xs.length - 1) / 4 - a / 4 + 1)).flatMap fun q =>
    let p := 4 * (a / 4 + q)
    let w := hostW s.cfg (0x2000 + p)
      (wordOfLanes (s.mergedByte a xs p) (s.mergedByte a xs (p + 1)) (s.mergedByte a xs (p + 2))
        (s.mergedByte a xs (p + 3)))
    if a ≤ p ∧ p + 4 ≤ a + xs.length then [w] else [hostR s.cfg (0x2000 + p), w]

end Sys2Proof.Machine
end

