-- ==== Sys2Proof/Safety.lean ====
section
/-! DEFINITION. The invariant of the machine, what a safe schedule is, and the words the claims use:
success, failure, what is left alone, host reads and writes, the Montgomery context, the RSA block chains,
multiplication in GF(2^8). -/

namespace Sys2Proof.Machine

/-- What holds of the block at reset and after every step (70_reset_and_hazards.md R301). -/
structure State.Inv (s : State) : Prop where
  /-- The parameters are legal (R6). -/
  cfgLegal : s.cfg.legal = true
  /-- Every BigNum register has L_MAX digits (R36). -/
  nregLength : ∀ k : RegNo, s.nreg[k].length = s.cfg.lMax
  /-- BUF is in its canonical form, inside BUF_BYTES (R41). -/
  bufWf : Memory.wf s.cfg.bufBytes s.buf = true
  /-- The draw BUF was filled from has been made. -/
  drawn : s.bufFill < s.draws
  /-- While a command is in flight the completion flags are clear: START cleared them (R131). -/
  busyClear : s.status.busy = true →
    s.status.done = false ∧ s.status.err = false ∧ s.status.errcode = .noError
  /-- ERR = 1 only with a nonzero ERRCODE (R27). -/
  errCoded : s.status.err = true → s.status.errcode ≠ .noError

/-- The event stays inside the block's window: the only events that can stop the model are host accesses
elsewhere (20_memory.md R71). -/
def Event.inside (c : Config) : Event → Prop
  | .read addr _ => c.baseAddr ≤ addr ∧ addr < c.baseAddr + 0x4000
  | .write addr _ _ => c.baseAddr ≤ addr ∧ addr < c.baseAddr + 0x4000
  | .engine => True
  | .powerOn => True

/-- A state all of whose scheduled host accesses are in the window: a safe run. -/
def State.SafeSched (s : State) : Prop := ∀ e ∈ s.sched, e.inside s.cfg

/-- The state after a successful completion that has no effect but RESULT and STATUS (40_command.md
R133). -/
def State.succeeded (s : State) (result : Word) : State :=
  { s with
    result := result
    status := { s.status with busy := false, done := true, errcode := .noError } }

/-- The state after an error completion (60_exceptions.md R274). -/
def State.failed (s : State) (code : ErrCode) : State :=
  { s with
    result := 0
    status := { s.status with busy := false, done := true, err := true, errcode := code } }

/-- Every byte of BUF reads as before. -/
def State.SameBytes (s t : State) : Prop := ∀ a, t.bufRead a = s.bufRead a

/-- Every byte outside [a, a + n) reads as before. -/
def State.SameBytesOutside (s t : State) (a n : Nat) : Prop :=
  ∀ x, x < a ∨ a + n ≤ x → t.bufRead x = s.bufRead x

/-- The modulus is odd and MPRIME is its m' (40_command.md R137): checks 2-4 of R138 pass. -/
def State.ContextOK (s : State) : Prop :=
  s.nval 7 % 2 = 1 ∧ (s.nval 7 * s.mprime.toNat + 1) % 2 ^ 31 = 0

/-- R = b^l, l the digit length of m (R137). -/
def montR (m : Nat) : Nat := radix ^ len m

/-- N6 and N5 hold R mod m and R^2 mod m (42_montgomery.md R180). -/
def State.ResiduesOK (s : State) : Prop :=
  s.nval 6 = montR (s.nval 7) % s.nval 7 ∧ s.nval 5 = montR (s.nval 7) ^ 2 % s.nval 7

/-- A host read at a window offset returns `w` and changes nothing of the block (20_memory.md R72). -/
def State.ReadsAs (s : State) (off : Nat) (w : Word) : Prop :=
  s.event (hostR s.cfg off) = .next { s with resp := .readData w }

/-- A host write at a window offset leaves the block as `t` has it (20_memory.md R72). -/
def State.WriteMakes (s : State) (off : Nat) (w : Word) (t : State) : Prop :=
  s.event (hostW s.cfg off w) = .next { t with resp := .writeAck }

/-- The value of input block j of RSAENC, as BUF holds it in `t`; `s` is the state at START, which gives
the operands (43_rsa.md R212: x). -/
def State.encValue (s t : State) (j : Nat) : Nat :=
  beVal (t.memRead (s.srcAddr + j * inBlock (s.nval 7))
    (min (inBlock (s.nval 7)) (s.srcLen - j * inBlock (s.nval 7))))

/-- BUF after the first j blocks of RSAENC when each block value x goes out as f x (R212, R77). -/
def State.encChain (s : State) (f : Nat → Nat) : Nat → State
  | 0 => s
  | j + 1 =>
    (s.encChain f j).memWrite (s.dstAddr + j * outBlock (s.nval 7))
      (beBytes (f (s.encValue (s.encChain f j) j)) (outBlock (s.nval 7)))

/-- The value of ciphertext block j of RSADEC, as BUF holds it in `t` (43_rsa.md R216: c). -/
def State.decValue (s t : State) (j : Nat) : Nat :=
  beVal (t.memRead (s.srcAddr + j * outBlock (s.nval 7)) (outBlock (s.nval 7)))

/-- BUF, and the count w of bytes written, after the first j blocks of RSADEC when each block value c goes
out as the significant bytes of f c (R216, R77). -/
def State.decChain (s : State) (f : Nat → Nat) : Nat → State × Nat
  | 0 => (s, 0)
  | j + 1 =>
    let t := s.decChain f j
    let p := f (s.decValue t.1 j)
    (t.1.memWrite (s.dstAddr + t.2) (beBytes p (nbytes p)), t.2 + nbytes p)

/-- Block j of RSADEC goes through: its value is below m and its bytes fit in ARG3 (R216). -/
def State.decFits (s : State) (f : Nat → Nat) (j : Nat) : Prop :=
  s.decValue (s.decChain f j).1 j < s.nval 7 ∧ (s.decChain f (j + 1)).2 ≤ s.dstLen

/-- The conditions RSAENC and RSADEC share before their own: context, RM and RR below m, both ranges in
BUF (R212, R216). -/
def State.RsaOperandsOK (s : State) : Prop :=
  s.ContextOK ∧ s.nval 6 < s.nval 7 ∧ s.nval 5 < s.nval 7 ∧
    s.srcAddr + s.srcLen ≤ s.cfg.bufBytes ∧ s.dstAddr + s.dstLen ≤ s.cfg.bufBytes

/-- Multiplication in GF(2^8): the XOR of x·2^i over the bits i of y, Horner-wise (00_scope.md R10). -/
def gfMul (x y : Byte) : Byte :=
  (List.range 8).foldr (fun i acc => xtime acc ^^^ (if y.getLsbD i then x else 0)) 0

/-- How many bytes from ARG2 on a command would write: R302's Dest(cmd), 0 where it is empty. -/
def State.destLength (s : State) : Instr → Nat
  | .nop => 0
  | .loadb _ _ _ => 0
  | .storeb _ _ => s.args[3].toNat
  | .minv => 0
  | .montmul _ _ _ => 0
  | .montexp _ _ _ => 0
  | .rsaenc _ => s.args[3].toNat
  | .rsadec _ => s.args[3].toNat
  | .aeskeyexp => 0
  | .aesblk => 16
  | .aesctr => s.args[1].toNat

/-- The BigNum register a command writes (10_state.md R38). -/
def writesN : Instr → Option RegNo
  | .nop => none
  | .loadb rd _ _ => some rd
  | .storeb _ _ => none
  | .minv => none
  | .montmul rd _ _ => some rd
  | .montexp rd _ _ => some rd
  | .rsaenc _ => none
  | .rsadec _ => none
  | .aeskeyexp => none
  | .aesblk => none
  | .aesctr => none

/-- The commands that expand the key into RK (10_state.md R38). -/
def expandsKey : Instr → Bool
  | .nop => false
  | .loadb _ _ _ => false
  | .storeb _ _ => false
  | .minv => false
  | .montmul _ _ _ => false
  | .montexp _ _ _ => false
  | .rsaenc _ => false
  | .rsadec _ => false
  | .aeskeyexp => true
  | .aesblk => true
  | .aesctr => true

end Sys2Proof.Machine
end

