-- ==== Sys2Proof/Certificates/Slice0/Obligations.lean ====
section
/-! DEFINITION. The statements for the provers. `s.event` is one host access or reset (20_memory.md R80);
`exec i s` is the completion of command i in a state (40_command.md R133). The fields `sched`, `resp`,
`draws` and `bufFill` are the model's own (log entries 2-5); a statement that says what becomes of a free
byte or word says so in its docstring. -/

section

open Sys2Proof Sys2Proof.Machine

/-! ### Encoding -/

/-- 30_encoding.md R113: every row of its table, with `msqr n0, n0` for the row that names it. The source
text assembles to an instruction that encodes to the word and that the word decodes to. -/
def Obligations.EncodingExamples : Prop :=
  ∀ r ∈ ([("nop", [], 0x00000000#32),
      ("minv", [], 0x00000003#32),
      ("montmul", ["n2", "n0", "n1"], 0x00010204#32),
      ("montexp", ["n3", "n0", "n1"], 0x00010305#32),
      ("montmul", ["n0", "n0", "n0"], 0x00000004#32),
      ("msqr", ["n0", "n0"], 0x00000004#32),
      ("tomont", ["n1", "n0"], 0x00050104#32),
      ("loadb", ["n0", "pz"], 0x01000001#32),
      ("loadb", ["n2", "swz=4", "pz"], 0x01400201#32),
      ("loadb", ["n2"], 0x00000201#32),
      ("storeb", ["n3", "swz=4"], 0x00403002#32),
      ("storeb", ["n3"], 0x00003002#32),
      ("rsaenc", ["n0"], 0x00000006#32),
      ("rsadec", ["n1"], 0x00010007#32),
      ("aeskeyexp", [], 0x00000008#32),
      ("aesblk", [], 0x00000009#32),
      ("aesctr", [], 0x0000000A#32)] : List (String × List String × Word)),
    ∃ i, assemble r.1 r.2.1 = some i ∧ encode i = r.2.2 ∧ decode r.2.2 = .ok i

/-- Decode and encode agree on every well-formed instruction (R100-R103, R107). -/
def Obligations.DecodeOfEncode : Prop :=
  ∀ i : Instr, i.wellFormed = true → decode (encode i) = .ok i

/-- A word that decodes is the encoding of what it decodes to: no word is a second spelling (R100, R104,
R107). -/
def Obligations.EncodeOfDecode : Prop :=
  ∀ (c : Word) (i : Instr), decode c = .ok i → i.wellFormed = true ∧ encode i = c

/-- The two forms of the decoder agree (R107's last paragraph): a word decodes to a command exactly when
that command's (mask, match) row holds it, and no word is in two rows. -/
def Obligations.OpcodeTableIsTheDecoder : Prop :=
  (∀ (c : Word) (r : OpRow), r ∈ opTable →
    (r.holds c = true ↔ ∃ i, decode c = .ok i ∧ i.mnemonic = r.mnemonic)) ∧
  (∀ (c : Word) (r q : OpRow), r ∈ opTable → q ∈ opTable → r.holds c = true → q.holds c = true → r = q)

/-- R105 with R104: unassigned opcodes and nonzero must-be-zero bits are Illegal; an Illegal command's
completion is exactly the error completion with ILLEGAL_COMMAND; every word is a command of R101 with
legal fields or Illegal. `fieldsOf` cuts the word as R100 does. -/
def Obligations.IllegalCommands : Prop :=
  (∀ c : Word,
    (0x0B ≤ (c.extractLsb' 0 8).toNat ∨ c.getLsbD 11 = true ∨ c.getLsbD 15 = true ∨ c.getLsbD 19 = true ∨
      c.extractLsb' 25 7 ≠ 0 ∨
      ((c.extractLsb' 0 8).toNat ∈ [0x00, 0x03, 0x08, 0x09, 0x0A] ∧ c.extractLsb' 8 24 ≠ 0) ∨
      ((c.extractLsb' 0 8).toNat = 0x01 ∧ (c.extractLsb' 12 3 ≠ 0 ∨ c.extractLsb' 16 3 ≠ 0)) ∨
      ((c.extractLsb' 0 8).toNat = 0x02 ∧
        (c.extractLsb' 8 3 ≠ 0 ∨ c.extractLsb' 16 3 ≠ 0 ∨ c.getLsbD 24 = true)) ∨
      ((c.extractLsb' 0 8).toNat ∈ [0x04, 0x05] ∧ c.extractLsb' 20 5 ≠ 0) ∨
      ((c.extractLsb' 0 8).toNat ∈ [0x06, 0x07] ∧
        (c.extractLsb' 8 3 ≠ 0 ∨ c.extractLsb' 12 3 ≠ 0 ∨ c.extractLsb' 20 5 ≠ 0))) ↔
      ∃ why, decode c = .error why) ∧
  (∀ (s : State) (why : DecodeReject), decode s.cmd = .error why → s.status.busy = true →
    s.engineTurn = .next (s.failed .illegalCommand)) ∧
  (∀ c : Word, (∃ i : Instr, i.wellFormed = true ∧ c = encode i) ∨ ∃ why, decode c = .error why)

/-! ### The step, the schedule and the lifecycle -/

/-- While BUSY = 1 the engine's turn is the completion of the command that CMD decodes to (R132, R133);
around it the step only takes the event off the schedule, and an empty schedule is the engine's turn (the
model's log entry 2). -/
def Obligations.StepRunsTheDecodedCommand : Prop :=
  ∀ (s : State) (i : Instr), s.status.busy = true → decode s.cmd = .ok i →
    (s.sched = [] → step s = exec i s) ∧
    (∀ rest, s.sched = .engine :: rest → step s = exec i { s with sched := rest })

/-- A step with something scheduled handles its first entry (R80: one at a time, in order; log entry 2);
an idle engine has no step (00_scope.md R13). -/
def Obligations.StepTakesTheFirstEvent : Prop :=
  (∀ (s : State) (e : Event) (rest : List Event), s.sched = e :: rest →
    step s = State.event { s with sched := rest } e) ∧
  (∀ s : State, s.status.busy = false → s.event .engine = .next s) ∧
  (∀ s : State, s.status.busy = false → s.sched = [] → step s = .next s)

/-- The RUN macro of R114 up to the completion, from any idle state: the host writes a command word and
an accepted START, and the third step is that command's completion on the operands as they stood (R131,
R133, R84). -/
def Obligations.WriteStartComplete : Prop :=
  ∀ (s : State) (c w : Word) (i : Instr) (rest : List Event),
    s.status.busy = false → decode c = .ok i → w.getLsbD 0 = true → w.getLsbD 2 = false →
    s.sched = hostW s.cfg 0x010 c :: hostW s.cfg 0x008 w :: .engine :: rest →
    ∃ s1 s2, step s = .next s1 ∧ step s1 = .next s2 ∧
      step s2 = exec i { s with
        cmd := c
        irqen := w.getLsbD 1
        status := ⟨true, false, false, s.status.busyErr, .noError⟩
        sched := rest
        resp := .writeAck }

/-- 40_command.md R131, all of it: what a write to CTRL does. `r` is the port's answer, which the rule
does not speak of. -/
def Obligations.CtrlWriteStartsOrSetsIrqen : Prop :=
  ∀ (s : State) (w : Word), ∃ t r,
    s.event (hostW s.cfg 0x008 w) = .next t ∧
    (w.getLsbD 0 = true → w.getLsbD 2 = false → s.status.busy = false →
      t = { s with irqen := w.getLsbD 1, status := ⟨true, false, false, s.status.busyErr, .noError⟩, resp := r } ∧
        t.irq = false) ∧
    (w.getLsbD 0 = false → w.getLsbD 2 = false → t = { s with irqen := w.getLsbD 1, resp := r }) ∧
    (w.getLsbD 2 = true → t = { s.softReset with resp := r } ∧ t.status.busy = false) ∧
    (w.getLsbD 0 = true → w.getLsbD 2 = false → s.status.busy = true →
      t = { s with irqen := w.getLsbD 1, status := { s.status with busyErr := true }, resp := r })

/-- 10_state.md R27's table: a write to STATUS clears DONE, ERR, BUSYERR where it writes 1 and nothing
else, busy or idle; the word reads each field at its place and 0 elsewhere, busy or idle. -/
def Obligations.StatusReadAndWriteOneToClear : Prop :=
  ∀ s : State,
    (∀ w : Word, s.WriteMakes 0x00C w { s with
      status := ⟨s.status.busy, s.status.done && !w.getLsbD 1, s.status.err && !w.getLsbD 2,
        s.status.busyErr && !w.getLsbD 3, s.status.errcode⟩ }) ∧
    s.ReadsAs 0x00C (BitVec.ofNat 32 (s.status.busy.toNat + 2 * s.status.done.toNat + 4 * s.status.err.toNat +
      8 * s.status.busyErr.toNat + 256 * s.status.errcode.bits.toNat))

/-- R130 (with 70_reset_and_hazards.md R300, which can come at any time): a step leaves idle only by an
accepted START, and leaves busy only by the engine's completion, a soft reset or power-on reset. An empty
schedule is the engine's turn (log entry 2). -/
def Obligations.BusyChangesOnlyByLifecycle : Prop :=
  ∀ s t : State, step s = .next t →
    (s.status.busy = false → t.status.busy = true →
      ∃ (w : Word) (rest : List Event), s.sched = hostW s.cfg 0x008 w :: rest ∧
        w.getLsbD 0 = true ∧ w.getLsbD 2 = false) ∧
    (s.status.busy = true → t.status.busy = false →
      s.sched = [] ∨ ∃ (e : Event) (rest : List Event), s.sched = e :: rest ∧
        (e = .engine ∨ e = .powerOn ∨ ∃ w : Word, e = hostW s.cfg 0x008 w ∧ w.getLsbD 2 = true))

/-- No effect of a command is visible before its completion (R133), and nothing the host does while busy
changes the command or its operands (R134(c), R84, R135): a step that leaves the block busy changes only
IRQEN, the flags DONE, ERR, BUSYERR and the model's own port fields. -/
def Obligations.NothingMovesWhileBusy : Prop :=
  ∀ s t : State, step s = .next t → s.status.busy = true → t.status.busy = true →
    t.status.errcode = s.status.errcode ∧
    t = { s with irqen := t.irqen, status := t.status, draws := t.draws, sched := t.sched, resp := t.resp }

/-- R132, R276, R308: a command's outcome does not depend on the host accesses handled while it is in
flight. After any step that leaves the block busy, every command completes with the registers, RESULT and
codes it would have had before that step; and with the same BUF, except where the outcome has free bytes
(RSADEC failing inside its loop, log entry 5). -/
def Obligations.OutcomeIgnoresAccessesWhileBusy : Prop :=
  ∀ (i : Instr) (s s' t : State), s.status.busy = true → step s = .next s' → s'.status.busy = true →
    exec i s = .next t →
    ∃ t', exec i s' = .next t' ∧ t'.cmd = t.cmd ∧ t'.result = t.result ∧ t'.mprime = t.mprime ∧
      t'.args = t.args ∧ t'.key = t.key ∧ t'.ctr = t.ctr ∧ t'.rk = t.rk ∧ t'.nreg = t.nreg ∧
      t'.status.errcode = t.status.errcode ∧ t'.bufFill = t.bufFill ∧
      ((∃ r, i = .rsadec r ∧ t.status.errcode ≠ .noError) ∨ t'.buf = t.buf)

/-- R136: no command hangs. From every busy state whose scheduled accesses stay in the window, the block
is idle within one step more than the schedule is long (the engine's weak fairness is log entry 2). -/
def Obligations.BusyEndsWithinTheSchedule : Prop :=
  ∀ s : State, s.status.busy = true → s.SafeSched →
    ∃ k t, k ≤ s.sched.length + 1 ∧ core.run k s = .next t ∧ t.status.busy = false

/-- The model stops only where the spec says it is stuck (R71, 93_implementation_defined.md U10; the fault
is log entry 8): the next event is a host access outside the window. An access is outside by the byte
address it starts at, which for one that straddles the window's edge is the model's reading (log entry 6,
DEDUCED). It refuses nothing. -/
def Obligations.OnlyOutsideAccessesStop : Prop :=
  ∀ s : State,
    ((∃ f, step s = .fault f) ↔ ∃ (e : Event) (rest : List Event), s.sched = e :: rest ∧ ¬ e.inside s.cfg) ∧
    (∀ r, step s ≠ .refused r)

/-! ### The host port -/

/-- R71, R273: an access in the window of another width, or misaligned, changes nothing of the block;
`resp` is the bus-error response (log entry 4). An access outside the window is not decoded (U10; the fault
is log entry 8). That an access straddling an edge of the window goes by the byte address it starts at is
the model's reading, no rule of the spec (log entry 6, DEDUCED, unsafe). -/
def Obligations.RefusedAccessesChangeNothing : Prop :=
  ∀ (s : State) (addr bytes : Nat) (w : Word),
    (s.cfg.baseAddr ≤ addr → addr < s.cfg.baseAddr + 0x4000 → (bytes ≠ 4 ∨ (addr - s.cfg.baseAddr) % 4 ≠ 0) →
      s.event (.read addr bytes) = .next { s with resp := .busError } ∧
      s.event (.write addr bytes w) = .next { s with resp := .busError }) ∧
    (addr < s.cfg.baseAddr ∨ s.cfg.baseAddr + 0x4000 ≤ addr →
      s.event (.read addr bytes) = .fault .outsideWindow ∧
      s.event (.write addr bytes w) = .fault .outsideWindow)

/-- R21-R37, R74: what an idle block's registers read as, with the field places of CTRL and PARAM; reads
have no side effect (R72). -/
def Obligations.RegistersReadAtTheirOffsets : Prop :=
  ∀ s : State, s.Inv → s.status.busy = false →
    s.ReadsAs 0x000 0x4D504531#32 ∧
    s.ReadsAs 0x004 (BitVec.ofNat 32 (s.cfg.bufBytes * 2 ^ 16 + s.cfg.lMax)) ∧
    s.ReadsAs 0x008 (BitVec.ofNat 32 (2 * s.irqen.toNat)) ∧
    s.ReadsAs 0x010 s.cmd ∧
    s.ReadsAs 0x014 s.result ∧
    s.ReadsAs 0x018 (BitVec.ofNat 32 s.mprime.toNat) ∧
    (∀ k : Fin 4, s.ReadsAs (0x020 + 4 * k.val) s.args[k]) ∧
    (∀ k : RegNo, s.ReadsAs (0x040 + 4 * k.val) (BitVec.ofNat 32 (len (s.nval k)))) ∧
    (∀ k : Fin 8, s.ReadsAs (0x080 + 4 * k.val) s.key[k]) ∧
    (∀ k : Fin 4, s.ReadsAs (0x0A0 + 4 * k.val) s.ctr[k]) ∧
    (∀ i : Fin 60, s.ReadsAs (0x100 + 4 * i.val) s.rk[i]) ∧
    (∀ (k : RegNo) (i : Nat), i < s.cfg.lMax →
      s.ReadsAs (0x1000 + 0x200 * k.val + 4 * i) (BitVec.ofNat 32 ((s.nreg[k].getD i 0).toNat))) ∧
    (∀ j : Nat, 4 * j < s.cfg.bufBytes →
      s.ReadsAs (0x2000 + 4 * j) (s.bufRead (4 * j + 3) ++ s.bufRead (4 * j + 2) ++ s.bufRead (4 * j + 1) ++
        s.bufRead (4 * j)))

/-- R21-R23, R6: every other word offset of the window is RAZ/WI on an idle block. -/
def Obligations.ReservedOffsetsReadZeroIgnoreWrites : Prop :=
  ∀ (s : State) (off : Nat) (w : Word), s.cfg.legal = true → s.status.busy = false → off % 4 = 0 →
    (off = 0x01C ∨ 0x030 ≤ off ∧ off < 0x040 ∨ 0x060 ≤ off ∧ off < 0x080 ∨ 0x0B0 ≤ off ∧ off < 0x100 ∨
      0x1F0 ≤ off ∧ off < 0x1000 ∨
      (∃ (k : RegNo) (i : Nat), s.cfg.lMax ≤ i ∧ i < 128 ∧ off = 0x1000 + 0x200 * k.val + 4 * i) ∨
      0x2000 + s.cfg.bufBytes ≤ off ∧ off < 0x4000) →
    s.ReadsAs off 0 ∧ s.WriteMakes off w s

/-- R28, R30, R31, R33, R34, R24, R25, R29, R32, R35: what a host write to each register below 0x1000
other than CTRL and STATUS does on an idle block; the read-only ones ignore it. -/
def Obligations.IdleWritesStoreOrAreIgnored : Prop :=
  ∀ (s : State) (w : Word), s.status.busy = false →
    s.WriteMakes 0x010 w { s with cmd := w } ∧
    s.WriteMakes 0x018 w { s with mprime := w.extractLsb' 0 31 } ∧
    (∀ k : Fin 4, s.WriteMakes (0x020 + 4 * k.val) w { s with args := s.args.set k w }) ∧
    (∀ k : Fin 8, s.WriteMakes (0x080 + 4 * k.val) w { s with key := s.key.set k w }) ∧
    (∀ k : Fin 4, s.WriteMakes (0x0A0 + 4 * k.val) w { s with ctr := s.ctr.set k w }) ∧
    s.WriteMakes 0x000 w s ∧ s.WriteMakes 0x004 w s ∧ s.WriteMakes 0x014 w s ∧
    (∀ k : RegNo, s.WriteMakes (0x040 + 4 * k.val) w s) ∧
    (∀ i : Fin 60, s.WriteMakes (0x100 + 4 * i.val) w s)

/-- R37 on an idle block: a host write stores w[30:0] in the one digit and no other, and reading it back
gives {0, w[30:0]}. `r` is the port's answer. -/
def Obligations.DigitWriteDropsTheTopBit : Prop :=
  ∀ (s : State) (k : RegNo) (i : Nat) (w : Word), s.Inv → s.status.busy = false → i < s.cfg.lMax →
    ∃ t r, s.event (hostW s.cfg (0x1000 + 0x200 * k.val + 4 * i) w) = .next t ∧
      t = { s with nreg := s.nreg.set k (s.nreg[k].set i (w.extractLsb' 0 31)), resp := r } ∧
      t.ReadsAs (0x1000 + 0x200 * k.val + 4 * i) (w &&& 0x7FFFFFFF#32)

/-- 20_memory.md R74: the lanes of the host BUF window, on an idle block (while busy R134 applies). A
write sets all four bytes and only them; a read returns all four. -/
def Obligations.BufByteLanes : Prop :=
  ∀ (s : State) (j : Nat) (w : Word), s.cfg.legal = true → s.status.busy = false → 4 * j < s.cfg.bufBytes →
    (∃ t r, s.event (hostW s.cfg (0x2000 + 4 * j) w) = .next t ∧
      t.bufRead (4 * j) = w.extractLsb' 0 8 ∧ t.bufRead (4 * j + 1) = w.extractLsb' 8 8 ∧
      t.bufRead (4 * j + 2) = w.extractLsb' 16 8 ∧ t.bufRead (4 * j + 3) = w.extractLsb' 24 8 ∧
      s.SameBytesOutside t (4 * j) 4 ∧ t = { s with buf := t.buf, resp := r }) ∧
    (∃ v t r, s.event (hostR s.cfg (0x2000 + 4 * j)) = .next t ∧ t = { s with resp := r } ∧ r = .readData v ∧
      v.extractLsb' 0 8 = s.bufRead (4 * j) ∧ v.extractLsb' 8 8 = s.bufRead (4 * j + 1) ∧
      v.extractLsb' 16 8 = s.bufRead (4 * j + 2) ∧ v.extractLsb' 24 8 = s.bufRead (4 * j + 3))

/-- R32: USEDk reads len(val(N[k])), the number of digits without leading zeros, from 0 to L_MAX; a write
is ignored. On an idle block (while busy R134 applies). -/
def Obligations.UsedReadsTheLength : Prop :=
  ∀ (s : State) (k : RegNo), s.Inv → s.status.busy = false →
    (∃ (v : Word) (t : State), s.event (hostR s.cfg (0x040 + 4 * k.val)) = .next t ∧ t.resp = .readData v ∧
      v.toNat = len (s.nval k) ∧ v.toNat ≤ s.cfg.lMax ∧
      (∀ i, v.toNat ≤ i → s.nreg[k].getD i 0 = 0) ∧
      (v.toNat ≠ 0 → s.nreg[k].getD (v.toNat - 1) 0 ≠ 0)) ∧
    (∀ w : Word, ∃ r, s.event (hostW s.cfg (0x040 + 4 * k.val) w) = .next { s with resp := r })

/-- R134(c), (d), (e): while BUSY = 1 a write to any word offset but CTRL and STATUS changes nothing but
BUSYERR (RAZ/WI offsets too); ID, PARAM, CTRL and STATUS read as when idle; every other offset reads as a
free word, a fresh one each time (the model's draws, log entry 5), with no other effect. -/
def Obligations.BusyAccessesAreDroppedOrFree : Prop :=
  ∀ s : State, s.status.busy = true →
    (∀ (off : Nat) (w : Word), off < 0x4000 → off % 4 = 0 → off ≠ 0x008 → off ≠ 0x00C →
      s.WriteMakes off w { s with status := { s.status with busyErr := true } }) ∧
    s.ReadsAs 0x000 0x4D504531#32 ∧
    (s.cfg.legal = true → s.ReadsAs 0x004 (BitVec.ofNat 32 (s.cfg.bufBytes * 2 ^ 16 + s.cfg.lMax))) ∧
    s.ReadsAs 0x008 (BitVec.ofNat 32 (2 * s.irqen.toNat)) ∧
    s.ReadsAs 0x00C s.status.word ∧
    (∀ off : Nat, off < 0x4000 → off % 4 = 0 → off ≠ 0x000 → off ≠ 0x004 → off ≠ 0x008 → off ≠ 0x00C →
      s.event (hostR s.cfg off) =
        .next { s with resp := .readData (Config.freeWord s.draws), draws := s.draws + 1 })

/-! ### Reset and the interrupt -/

/-- R300: power-on reset, from any state, busy or not, and the state the model starts in: every register
of its table, the constants ID and PARAM as they read (BUF is unspecified, so nothing is said of it). -/
def Obligations.PowerOnResetValues : Prop :=
  ∀ s t : State, s.event .powerOn = .next t ∨ t = State.reset →
    t.irqen = false ∧ t.status = ⟨false, false, false, false, .noError⟩ ∧ t.cmd = 0 ∧ t.result = 0 ∧
    t.mprime = 0 ∧ (∀ k : Fin 4, t.args[k] = 0) ∧
    (∀ k : RegNo, t.nreg[k] = List.replicate t.cfg.lMax 0 ∧ t.nval k = 0 ∧ t.used k = 0) ∧
    (∀ k : Fin 8, t.key[k] = 0) ∧ (∀ k : Fin 4, t.ctr[k] = 0) ∧ (∀ i : Fin 60, t.rk[i] = 0) ∧
    t.irq = false ∧ t.engineTurn = .next t ∧
    t.ReadsAs 0x000 0x4D504531#32 ∧ t.ReadsAs 0x008 0 ∧ t.ReadsAs 0x00C 0 ∧
    (t.cfg.legal = true → t.ReadsAs 0x004 (BitVec.ofNat 32 (t.cfg.bufBytes * 2 ^ 16 + t.cfg.lMax))) ∧
    (s.event .powerOn = .next t → t.cfg = s.cfg)

/-- R302, R303: a write with SRST = 1, whatever else it holds. Every register takes its reset value, no
DONE, no ERRCODE, no IRQ. While a command is in flight the bytes of Dest(cmd) inside BUF are free bytes of
a fresh draw (log entry 5) and every other byte stays; an illegal CMD has no Dest; on an idle block all of
BUF stays. -/
def Obligations.SoftResetAbortsAndRestores : Prop :=
  ∀ (s : State) (w : Word), w.getLsbD 2 = true →
    ∃ t, s.WriteMakes 0x008 w t ∧
      t = { State.resetWith s.cfg with
        buf := t.buf, bufFill := s.bufFill, draws := t.draws, sched := s.sched, resp := s.resp } ∧
      t.irq = false ∧
      (s.status.busy = true → ∀ i, decode s.cmd = .ok i → ∀ a, a < s.cfg.bufBytes →
        t.bufRead a = if s.dstAddr ≤ a ∧ a < s.dstAddr + s.destLength i then Config.freeByte s.draws a
          else s.bufRead a) ∧
      (s.status.busy = true → ∀ why, decode s.cmd = .error why → s.SameBytes t) ∧
      (s.status.busy = false → s.SameBytes t)

/-- R44: IRQ = DONE and IRQEN, in every state, and 0 after reset. -/
def Obligations.IrqIsDoneAndEnabled : Prop :=
  (∀ s : State, s.irq = true ↔ s.status.done = true ∧ s.irqen = true) ∧ State.reset.irq = false ∧
  (∀ s t : State, s.event .powerOn = .next t → t.irq = false)

/-- R280, R282, R281: every completion, an illegal command's included, leaves IRQ = IRQEN, so it raises it
when IRQEN = 1. IRQ falls by a W1C of DONE, by IRQEN written 0, by an accepted START and by either reset; no
other event, dropped and refused accesses and an idle engine's turn included, moves it. -/
def Obligations.IrqRisesAtCompletionAndFalls : Prop :=
  (∀ (i : Instr) (s t : State), exec i s = .next t → t.irq = s.irqen) ∧
  (∀ s t : State, s.event .engine = .next t →
    (s.status.busy = true → t.irq = s.irqen) ∧ (s.status.busy = false → t.irq = s.irq)) ∧
  (∀ s t : State, s.event .powerOn = .next t → t.irq = false) ∧
  (∀ (s t : State) (w : Word), s.event (hostW s.cfg 0x00C w) = .next t →
    t.irq = (s.irq && !w.getLsbD 1)) ∧
  (∀ (s t : State) (w : Word), s.event (hostW s.cfg 0x008 w) = .next t →
    (w.getLsbD 1 = false ∨ w.getLsbD 2 = true ∨ w.getLsbD 0 = true ∧ s.status.busy = false → t.irq = false) ∧
    (w.getLsbD 2 = false → w.getLsbD 0 = false ∨ s.status.busy = true →
      t.irq = (s.status.done && w.getLsbD 1))) ∧
  (∀ (s t : State) (e : Event), s.event e = .next t →
    ((∃ addr bytes, e = .read addr bytes) ∨
      ∃ addr bytes w, e = .write addr bytes w ∧ ¬ (bytes = 4 ∧ (addr = s.cfg.baseAddr + 0x008 ∨
        addr = s.cfg.baseAddr + 0x00C))) → t.irq = s.irq)

/-! ### The invariant -/

/-- R301 for every legal parameter (R6): the reset state meets the invariant. -/
def Obligations.ResetMeetsTheInvariant : Prop :=
  State.reset.Inv ∧ ∀ c : Config, c.legal = true → (State.resetWith c).Inv

/-- Every step keeps the invariant: L_MAX digits in every register, BUF in canonical form inside
BUF_BYTES, completion flags clear while busy, ERR only with a code. -/
def Obligations.StepKeepsTheInvariant : Prop :=
  ∀ s t : State, s.Inv → step s = .next t → t.Inv

/-! ### All commands -/

/-- R136, R133: every command completes, whatever its operands, with success or with an error code. -/
def Obligations.EveryCommandCompletes : Prop :=
  ∀ (i : Instr) (s : State), ∃ t, exec i s = .next t ∧ t.status.busy = false ∧ t.status.done = true ∧
    (t.status.errcode = .noError ∧ t.status.err = s.status.err ∨
      t.status.errcode ≠ .noError ∧ t.status.errcode ≠ .illegalCommand ∧ t.status.err = true ∧ t.result = 0)

/-- R38's table, R28, R31, R33, R35, R40: no command writes a register outside its row, whether it
succeeds or fails. -/
def Obligations.CommandsKeepEveryOtherRegister : Prop :=
  ∀ (i : Instr) (s t : State), exec i s = .next t →
    t.cfg = s.cfg ∧ t.irqen = s.irqen ∧ t.status.busyErr = s.status.busyErr ∧ t.cmd = s.cmd ∧
    t.args = s.args ∧ t.key = s.key ∧ t.bufFill = s.bufFill ∧ t.sched = s.sched ∧ t.resp = s.resp ∧
    (∀ k : RegNo, writesN i ≠ some k → t.nreg[k] = s.nreg[k]) ∧
    (i ≠ .minv → t.mprime = s.mprime) ∧ (i ≠ .aesctr → t.ctr = s.ctr) ∧
    (expandsKey i = false → t.rk = s.rk)

/-- R38: the commands that store nothing leave every byte of BUF. -/
def Obligations.RegisterCommandsKeepEveryByte : Prop :=
  ∀ (i : Instr) (s t : State), exec i s = .next t →
    (i = .nop ∨ (∃ rd swsz pz, i = .loadb rd swsz pz) ∨ i = .minv ∨ (∃ rd x y, i = .montmul rd x y) ∨
      (∃ rd x e, i = .montexp rd x e) ∨ i = .aeskeyexp) → s.SameBytes t

/-- R38, R167, R212, R216, R246, R251: the commands that store leave every byte outside the range they
store to, which starts at ARG2: ARG3 bytes for STOREB, need for RSAENC, RESULT for RSADEC (ARG3 when it
fails inside its loop), 16 for AESBLK, ARG1 for AESCTR. -/
def Obligations.StoringCommandsKeepOtherBytes : Prop :=
  ∀ (i : Instr) (s t : State), exec i s = .next t →
    ((∃ rs swsz, i = .storeb rs swsz) → s.SameBytesOutside t s.dstAddr s.dstLen) ∧
    ((∃ r, i = .rsaenc r) → s.SameBytesOutside t s.dstAddr
      ((s.srcLen + inBlock (s.nval 7) - 1) / inBlock (s.nval 7) * outBlock (s.nval 7))) ∧
    ((∃ r, i = .rsadec r) → s.SameBytesOutside t s.dstAddr s.dstLen ∧
      (t.status.errcode = .noError → s.SameBytesOutside t s.dstAddr t.result.toNat)) ∧
    (i = .aesblk → s.SameBytesOutside t s.dstAddr 16) ∧
    (i = .aesctr → s.SameBytesOutside t s.dstAddr s.srcLen)

/-- R139, R274: a command that fails commits nothing but the error completion, RSADEC's mid-run failure
apart, which leaves free bytes of a fresh draw in [ARG2, ARG2 + ARG3) (log entry 5) and changes no other
byte. -/
def Obligations.FailedCommandsHaveNoEffect : Prop :=
  ∀ (i : Instr) (s t : State), exec i s = .next t → t.status.errcode ≠ .noError →
    t = s.failed t.status.errcode ∨
      (∃ r, i = .rsadec r) ∧ t = ({ s with buf := t.buf, draws := s.draws + 1 } : State).failed t.status.errcode ∧
        ∀ a, t.bufRead a = if s.dstAddr ≤ a ∧ a < s.dstAddr + s.dstLen then Config.freeByte s.draws a
          else s.bufRead a

/-! ### NOP, LOADB, STOREB -/

/-- R140: NOP completes with no effect and result 0 (STATUS as R133 has it); its word is 0x00000000, which
CMD holds after reset, so a START straight after reset runs it. -/
def Obligations.NopHasNoEffect : Prop :=
  (∀ s : State, exec .nop s = .next (s.succeeded 0)) ∧ decode 0x00000000#32 = .ok .nop ∧
  State.reset.cmd = 0x00000000#32 ∧ (∀ c : Word, decode c = .ok .nop → c = 0x00000000#32) ∧
  ∀ s t : State, exec .nop s = .next t → s.status = ⟨true, false, false, false, .noError⟩ → t.status.word = 0x002#32

/-- R161: LOADB's result, for every swizzle size, both settings of preZero and every capacity that holds
it; n = 0 included. -/
def Obligations.LoadbLoadsTheValue : Prop :=
  ∀ (rd : RegNo) (swsz : Nat) (pz : Bool) (s : State) (v : Nat),
    (swsz = 0 ∨ s.srcLen % swsz = 0) → s.srcAddr + s.srcLen ≤ s.cfg.bufBytes →
    v = (if pz then 0 else s.nval rd) * 256 ^ s.srcLen + beVal (swizzleBy swsz (s.memRead s.srcAddr s.srcLen)) →
    v < radix ^ s.cfg.lMax →
    ∃ t, exec (.loadb rd swsz pz) s = .next t ∧ t.nval rd = v ∧ (∀ k, k ≠ rd → t.nreg[k] = s.nreg[k]) ∧
      t = ({ s with nreg := t.nreg } : State).succeeded 0

/-- R167: STOREB's result: ARG3 big-endian bytes of N[rs1], swizzled, from ARG2 on, padded or cut to the
count; nothing else changes. -/
def Obligations.StorebStoresTheBytes : Prop :=
  ∀ (rs1 : RegNo) (swsz : Nat) (s : State),
    (swsz = 0 ∨ s.dstLen % swsz = 0) → s.dstAddr + s.dstLen ≤ s.cfg.bufBytes →
    ∃ t, exec (.storeb rs1 swsz) s = .next t ∧
      t.memRead s.dstAddr s.dstLen = swizzleBy swsz (beBytes (s.nval rs1) s.dstLen) ∧
      (swsz = 0 → ∀ j, j < s.dstLen →
        (t.bufRead (s.dstAddr + j)).toNat = s.nval rs1 / 256 ^ (s.dstLen - 1 - j) % 256) ∧
      s.SameBytesOutside t s.dstAddr s.dstLen ∧ t = ({ s with buf := t.buf } : State).succeeded 0

/-- R160: swizzle reverses every group, swz(s, 1) = s, and it is its own inverse. -/
def Obligations.SwizzleReversesEachGroup : Prop :=
  ∀ (s : List Byte) (g : Nat), 1 ≤ g → s.length % g = 0 →
    (swizzle s g).length = s.length ∧
    (∀ q j, q < s.length / g → j < g → (swizzle s g)[q * g + j]? = s[q * g + (g - 1 - j)]?) ∧
    swizzle s 1 = s ∧ swizzle (swizzle s g) g = s

/-- R168, R166: what LOADB with preZero read, STOREB with the same swizzle and count writes back, leading
zero bytes included. -/
def Obligations.LoadThenStoreWritesBack : Prop :=
  ∀ (k : RegNo) (swsz : Nat) (s : State),
    (swsz = 0 ∨ s.srcLen % swsz = 0) → s.dstLen = s.srcLen → 256 ^ s.srcLen ≤ radix ^ s.cfg.lMax →
    s.srcAddr + s.srcLen ≤ s.cfg.bufBytes → s.dstAddr + s.dstLen ≤ s.cfg.bufBytes →
    ∃ t u, exec (.loadb k swsz true) s = .next t ∧ exec (.storeb k swsz) t = .next u ∧
      u.memRead s.dstAddr s.dstLen = s.memRead s.srcAddr s.srcLen

/-- R161, R167, R246, R251, R271: when LOADB, STOREB, AESBLK and AESCTR fail, and with which code, in check
order. -/
def Obligations.TransferAndAesErrorsInOrder : Prop :=
  ∀ (r : RegNo) (swsz : Nat) (pz : Bool) (s : State),
    (swsz ≠ 0 → s.srcLen % swsz ≠ 0 → exec (.loadb r swsz pz) s = .next (s.failed .invalidArgument)) ∧
    ((swsz = 0 ∨ s.srcLen % swsz = 0) →
      (s.cfg.bufBytes < s.srcAddr + s.srcLen ∨
        radix ^ s.cfg.lMax ≤ (if pz then 0 else s.nval r) * 256 ^ s.srcLen +
          beVal (swizzleBy swsz (s.memRead s.srcAddr s.srcLen))) →
      exec (.loadb r swsz pz) s = .next (s.failed .outOfRange)) ∧
    (swsz ≠ 0 → s.dstLen % swsz ≠ 0 → exec (.storeb r swsz) s = .next (s.failed .invalidArgument)) ∧
    ((swsz = 0 ∨ s.dstLen % swsz = 0) → s.cfg.bufBytes < s.dstAddr + s.dstLen →
      exec (.storeb r swsz) s = .next (s.failed .outOfRange)) ∧
    (s.cfg.bufBytes < s.srcAddr + 16 ∨ s.cfg.bufBytes < s.dstAddr + 16 →
      exec .aesblk s = .next (s.failed .outOfRange)) ∧
    (s.cfg.bufBytes < s.srcAddr + s.srcLen ∨ s.cfg.bufBytes < s.dstAddr + s.srcLen →
      exec .aesctr s = .next (s.failed .outOfRange))

/-! ### The Montgomery core -/

/-- R181: MINV (word 0x00000003) writes to MPRIME and RESULT the one digit with m * m' = -1 mod b; m = 0 and
m even fail, in this order, with no other effect; the corner values and the example. -/
def Obligations.MinvFindsTheInverse : Prop :=
  decode 0x00000003#32 = .ok .minv ∧ ∀ s : State,
    (s.nval 7 % 2 = 1 → ∃ t, exec .minv s = .next t ∧
      (s.nval 7 * t.mprime.toNat + 1) % 2 ^ 31 = 0 ∧
      (∀ u, u < 2 ^ 31 → (s.nval 7 * u + 1) % 2 ^ 31 = 0 → u = t.mprime.toNat) ∧
      t = ({ s with mprime := t.mprime } : State).succeeded (BitVec.ofNat 32 t.mprime.toNat) ∧
      (s.nval 7 = 1 → t.mprime.toNat = 0x7FFFFFFF) ∧ (s.nval 7 = 2 ^ 31 - 1 → t.mprime.toNat = 1) ∧
      (s.nval 7 = 31 → t.mprime.toNat = 1108378657)) ∧
    (s.nval 7 = 0 → exec .minv s = .next (s.failed .invalidArgument)) ∧
    (s.nval 7 ≠ 0 → s.nval 7 % 2 = 0 → exec .minv s = .next (s.failed .preconditionFailed))

/-- R187, laws (a)-(c) of the Montgomery product function MM of R185: every division is exact, the
accumulator stays below 2m, and the result is x·y·R^-1 mod m. `mmLoop` is the accumulator after its first
n iterations. -/
def Obligations.MontgomeryProductLaws : Prop :=
  ∀ x y m mp : Nat, m % 2 = 1 → (m * mp + 1) % 2 ^ 31 = 0 → x < m → y < m →
    (∀ n, n < len m →
      let a := mmLoop x y m mp n
      let xn := x / radix ^ n % radix
      let u := (a % radix + xn * (y % radix)) % radix * mp % radix
      radix ∣ a + xn * y + u * m ∧ mmLoop x y m mp (n + 1) * radix = a + xn * y + u * m) ∧
    (∀ n, n ≤ len m → mmLoop x y m mp n < 2 * m) ∧
    mm x y m mp < m ∧ mm x y m mp * radix ^ len m ≡ x * y [MOD m] ∧
    (∀ rinv, radix ^ len m * rinv ≡ 1 [MOD m] → mm x y m mp = x * y * rinv % m)

/-- R186, R187(c): MONTMUL's result, whatever registers it names (R135), and its frame. -/
def Obligations.MontmulIsTheProduct : Prop :=
  ∀ (rd rs1 rs2 : RegNo) (s : State), s.Inv → s.ContextOK →
    s.nval rs1 < s.nval 7 → s.nval rs2 < s.nval 7 →
    ∃ t, exec (.montmul rd rs1 rs2) s = .next t ∧ t.nval rd < s.nval 7 ∧
      t.nval rd * radix ^ len (s.nval 7) ≡ s.nval rs1 * s.nval rs2 [MOD s.nval 7] ∧
      (∀ k, k ≠ rd → t.nreg[k] = s.nreg[k]) ∧ t = ({ s with nreg := t.nreg } : State).succeeded 0

/-- R193, the law of ME (R190) and its ladder invariant. -/
def Obligations.LadderIsThePower : Prop :=
  ∀ x e m mp : Nat, m % 2 = 1 → (m * mp + 1) % 2 ^ 31 = 0 → x < m →
    let rm := radix ^ len m % m
    let rr := (radix ^ len m) ^ 2 % m
    me x e m mp rm rr = x ^ e % m ∧
    ∀ j, j ≤ bitlen e →
      ((ebits e).take j).foldl (meStep (mm x rr m mp) m mp) rm ≡
        x ^ (e / 2 ^ (bitlen e - j)) * radix ^ len m [MOD m]

/-- R192: MONTEXP in a correct Montgomery context computes x^e mod m, whatever registers it names, and
its frame; e = 0 included. -/
def Obligations.MontexpIsThePower : Prop :=
  ∀ (rd rs1 rs2 : RegNo) (s : State), s.Inv → s.ContextOK → s.ResiduesOK → s.nval rs1 < s.nval 7 →
    ∃ t, exec (.montexp rd rs1 rs2) s = .next t ∧ t.nval rd = s.nval rs1 ^ s.nval rs2 % s.nval 7 ∧
      (∀ k, k ≠ rd → t.nreg[k] = s.nreg[k]) ∧ t = ({ s with nreg := t.nreg } : State).succeeded 0

/-- R194: MONTEXP with any residues below m completes with the closed form, written here without
inverses: k is bitlen(e). -/
def Obligations.MontexpWithAnyResidues : Prop :=
  ∀ (rd rs1 rs2 : RegNo) (s : State), s.Inv → s.ContextOK → s.nval rs1 < s.nval 7 →
    s.nval 6 < s.nval 7 → s.nval 5 < s.nval 7 →
    ∃ t, exec (.montexp rd rs1 rs2) s = .next t ∧ t.nval rd < s.nval 7 ∧
      t.nval rd * (radix ^ len (s.nval 7)) ^ (2 ^ bitlen (s.nval rs2) + 2 * s.nval rs2) ≡
        s.nval 6 ^ 2 ^ bitlen (s.nval rs2) * (s.nval rs1 * s.nval 5) ^ s.nval rs2 [MOD s.nval 7] ∧
      (∀ k, k ≠ rd → t.nreg[k] = s.nreg[k]) ∧ t = ({ s with nreg := t.nreg } : State).succeeded 0

/-- R138, R186, R192, R212, R216: the checks the Montgomery and RSA commands share, in order. -/
def Obligations.MontgomeryErrorsInOrder : Prop :=
  ∀ (i : Instr) (s : State),
    ((∃ rd x y, i = .montmul rd x y) ∨ (∃ rd x e, i = .montexp rd x e) ∨ (∃ e, i = .rsaenc e) ∨
      ∃ d, i = .rsadec d) →
    (s.nval 7 = 0 → exec i s = .next (s.failed .invalidArgument)) ∧
    (s.nval 7 ≠ 0 → s.nval 7 % 2 = 0 → exec i s = .next (s.failed .preconditionFailed)) ∧
    (s.nval 7 % 2 = 1 → (s.nval 7 * s.mprime.toNat + 1) % 2 ^ 31 ≠ 0 →
      exec i s = .next (s.failed .preconditionFailed)) ∧
    (s.ContextOK →
      (∀ rd x y, i = .montmul rd x y → s.nval 7 ≤ s.nval x ∨ s.nval 7 ≤ s.nval y →
        exec i s = .next (s.failed .invalidArgument)) ∧
      (∀ rd x e, i = .montexp rd x e → s.nval 7 ≤ s.nval x → exec i s = .next (s.failed .invalidArgument)) ∧
      ((∀ rd x y, i ≠ .montmul rd x y) → s.nval 7 ≤ s.nval 6 ∨ s.nval 7 ≤ s.nval 5 →
        exec i s = .next (s.failed .invalidArgument)))

/-! ### RSA -/

/-- R211: every string of at most ib bytes is below m. -/
def Obligations.RsaInputBlocksAreBelowTheModulus : Prop :=
  ∀ (m : Nat) (s : List Byte), 0 < m → s.length ≤ inBlock m →
    beVal s < 256 ^ inBlock m ∧ 256 ^ inBlock m ≤ 2 ^ (bitlen m - 1) ∧ 2 ^ (bitlen m - 1) ≤ m

/-- R212: RSAENC past its checks: the blocks in increasing order, each read after the block before is
written (R77), RESULT the bytes written. In a correct context each block goes out as x^e mod m. -/
def Obligations.RsaencEncryptsEachBlock : Prop :=
  ∀ (r : RegNo) (s : State), s.RsaOperandsOK → 0 < inBlock (s.nval 7) →
    let nb := (s.srcLen + inBlock (s.nval 7) - 1) / inBlock (s.nval 7)
    nb * outBlock (s.nval 7) ≤ s.dstLen →
    exec (.rsaenc r) s = .next ((s.encChain (fun x => s.modExp x (s.nval r)) nb).succeeded
      (BitVec.ofNat 32 (nb * outBlock (s.nval 7)))) ∧
    (s.ResiduesOK → exec (.rsaenc r) s = .next
      ((s.encChain (fun x => x ^ s.nval r % s.nval 7) nb).succeeded
        (BitVec.ofNat 32 (nb * outBlock (s.nval 7)))))

/-- R216: RSADEC past its checks with every block below m and room for the output: the blocks in order,
packed, RESULT the bytes written. In a correct context each block goes out as c^d mod m. -/
def Obligations.RsadecDecryptsEachBlock : Prop :=
  ∀ (r : RegNo) (s : State), s.RsaOperandsOK → s.srcLen % outBlock (s.nval 7) = 0 →
    let nb := s.srcLen / outBlock (s.nval 7)
    ((∀ j, j < nb → s.decFits (fun c => s.modExp c (s.nval r)) j) →
      let t := s.decChain (fun c => s.modExp c (s.nval r)) nb
      exec (.rsadec r) s = .next (t.1.succeeded (BitVec.ofNat 32 t.2))) ∧
    (s.ResiduesOK → (∀ j, j < nb → s.decFits (fun c => c ^ s.nval r % s.nval 7) j) →
      let t := s.decChain (fun c => c ^ s.nval r % s.nval 7) nb
      exec (.rsadec r) s = .next (t.1.succeeded (BitVec.ofNat 32 t.2)))

/-- R216, R274: RSADEC failing inside its loop at block j, with the code of that block's first failing
check; the bytes of [ARG2, ARG2 + ARG3) are free bytes of a fresh draw (log entry 5), everything else as
R274 says. -/
def Obligations.RsadecFailsMidRun : Prop :=
  ∀ (r : RegNo) (s : State) (j : Nat), s.RsaOperandsOK → s.srcLen % outBlock (s.nval 7) = 0 →
    let f := fun c => s.modExp c (s.nval r)
    let c := s.decValue (s.decChain f j).1 j
    j < s.srcLen / outBlock (s.nval 7) → (∀ i, i < j → s.decFits f i) → ¬ s.decFits f j →
    ∃ t, exec (.rsadec r) s = .next t ∧
      t = ({ s with buf := t.buf, draws := s.draws + 1 } : State).failed
        (if s.nval 7 ≤ c then .invalidArgument else .capacityExceeded) ∧
      ∀ a, t.bufRead a = if s.dstAddr ≤ a ∧ a < s.dstAddr + s.dstLen then Config.freeByte s.draws a
        else s.bufRead a

/-- R212, R216, R271: the checks of RSAENC and RSADEC after the shared ones, in order. -/
def Obligations.RsaErrorsInOrder : Prop :=
  ∀ (r : RegNo) (s : State), s.ContextOK → s.nval 6 < s.nval 7 → s.nval 5 < s.nval 7 →
    (s.cfg.bufBytes < s.srcAddr + s.srcLen ∨ s.cfg.bufBytes < s.dstAddr + s.dstLen →
      exec (.rsaenc r) s = .next (s.failed .outOfRange) ∧ exec (.rsadec r) s = .next (s.failed .outOfRange)) ∧
    (s.RsaOperandsOK →
      (inBlock (s.nval 7) = 0 ∨ s.dstLen < (s.srcLen + inBlock (s.nval 7) - 1) / inBlock (s.nval 7) *
          outBlock (s.nval 7) → exec (.rsaenc r) s = .next (s.failed .invalidArgument)) ∧
      (s.srcLen % outBlock (s.nval 7) ≠ 0 → exec (.rsadec r) s = .next (s.failed .invalidArgument)))

/-- R219: the round trip. m is a product of distinct primes, e·d is 1 modulo every p - 1 (that is, modulo
λ(m)), every block starts with a nonzero byte; the input, the ciphertext and the output do not meet where
that matters. RSAENC from ARG0, then RSADEC of what it wrote into [out, out + cap), both succeed, the output
is the input and RSADEC's RESULT its length. -/
def Obligations.RsaRoundTrip : Prop :=
  ∀ (re rd : RegNo) (s : State) (out cap : Word), s.RsaOperandsOK → s.ResiduesOK →
    Squarefree (s.nval 7) →
    (∀ p : Nat, p.Prime → p ∣ s.nval 7 → s.nval re * s.nval rd % (p - 1) = 1 % (p - 1)) →
    0 < inBlock (s.nval 7) →
    let need := (s.srcLen + inBlock (s.nval 7) - 1) / inBlock (s.nval 7) * outBlock (s.nval 7)
    need ≤ s.dstLen → (s.srcAddr + s.srcLen ≤ s.dstAddr ∨ s.dstAddr + need ≤ s.srcAddr) →
    (∀ j, j * inBlock (s.nval 7) < s.srcLen → s.bufRead (s.srcAddr + j * inBlock (s.nval 7)) ≠ 0) →
    out.toNat + cap.toNat ≤ s.cfg.bufBytes → s.srcLen ≤ cap.toNat →
    (out.toNat + s.srcLen ≤ s.dstAddr ∨ s.dstAddr + need ≤ out.toNat) →
    ∃ t u, exec (.rsaenc re) s = .next t ∧
      exec (.rsadec rd) { t with args := #v[s.args[2], t.result, out, cap] } = .next u ∧
      t.status.errcode = .noError ∧ u.status.errcode = .noError ∧
      u.result.toNat = s.srcLen ∧ u.memRead out.toNat s.srcLen = s.memRead s.srcAddr s.srcLen

/-! ### AES-256 -/

/-- R234: the S-box is the affine map of the inverse in GF(2^8), 0 standing for the inverse of 0. -/
def Obligations.SboxIsAffineOfTheInverse : Prop :=
  ∀ x : Byte, ∃ y : Byte, (x = 0 ∧ y = 0 ∨ gfMul x y = 1) ∧
    ∀ i, i < 8 → (sbox x).getLsbD i = (y.getLsbD i ^^ y.getLsbD ((i + 4) % 8) ^^ y.getLsbD ((i + 5) % 8) ^^
      y.getLsbD ((i + 6) % 8) ^^ y.getLsbD ((i + 7) % 8) ^^ (0x63#8).getLsbD i)

/-- R235, R236, R237: the round transformations byte by byte on every 16-byte state (R231: byte (row,
col) at index col*4 + row), with the examples of R236 and R237. -/
def Obligations.RoundTransformations : Prop :=
  (∀ s : List Byte, s.length = 16 →
    (∀ i, i < 16 → (subBytes s).getD i 0 = sbox (s.getD i 0)) ∧
    (∀ r c, r < 4 → c < 4 → (shiftRows s).getD (c * 4 + r) 0 = s.getD ((c + r) % 4 * 4 + r) 0) ∧
    (∀ c, c < 4 →
      let s0 := s.getD (c * 4) 0
      let s1 := s.getD (c * 4 + 1) 0
      let s2 := s.getD (c * 4 + 2) 0
      let s3 := s.getD (c * 4 + 3) 0
      (mixColumns s).getD (c * 4) 0 = xtime s0 ^^^ mul3 s1 ^^^ s2 ^^^ s3 ∧
      (mixColumns s).getD (c * 4 + 1) 0 = s0 ^^^ xtime s1 ^^^ mul3 s2 ^^^ s3 ∧
      (mixColumns s).getD (c * 4 + 2) 0 = s0 ^^^ s1 ^^^ xtime s2 ^^^ mul3 s3 ∧
      (mixColumns s).getD (c * 4 + 3) 0 = mul3 s0 ^^^ s1 ^^^ s2 ^^^ xtime s3) ∧
    (∀ (w : List Word) (k r c : Nat), w.length = 60 → k ≤ 14 → r < 4 → c < 4 →
      (addRoundKey w k s).getD (c * 4 + r) 0 =
        s.getD (c * 4 + r) 0 ^^^ (w.getD (4 * k + c) 0).extractLsb' (24 - 8 * r) 8)) ∧
  shiftRows [0, 1, 2, 3, 4, 5, 6, 7, 8, 9, 10, 11, 12, 13, 14, 15] =
    [0, 5, 10, 15, 4, 9, 14, 3, 8, 13, 2, 7, 12, 1, 6, 11] ∧
  mixColumns [0xdb, 0x13, 0x53, 0x45] = [0x8e, 0x4d, 0xa1, 0xbc] ∧
  mixColumns [0xf2, 0x0a, 0x22, 0x5c] = [0x9f, 0xdc, 0x58, 0x9d]

/-- R240, R241: the schedule the three AES commands leave in RK when they succeed, from KEY as it stood;
AESKEYEXP always completes with success and writes only RK. RotWord and SubWord are spelled out byte by
byte with the S-box (R238, R234) and Rcon is in the top byte (R239): the spec marks these as general
knowledge, and the model follows them (log entry 10, DEDUCED). -/
def Obligations.KeyExpansionRecurrence : Prop :=
  let sub := fun x0 x1 x2 x3 : Byte => (sbox x0 ++ sbox x1 ++ sbox x2 ++ sbox x3 : Word)
  (∀ s : State, ∃ t, exec .aeskeyexp s = .next t ∧ t = ({ s with rk := t.rk } : State).succeeded 0) ∧
  ∀ (i : Instr) (s t : State), i = .aeskeyexp ∨ i = .aesblk ∨ i = .aesctr → exec i s = .next t →
    t.status.errcode = .noError →
    (∀ n (h : n < 8), t.rk[n] = s.key[n]) ∧
    (∀ n (h : n + 8 < 60),
      let b := fun r => t.rk[n + 7].extractLsb' (24 - 8 * r) 8
      t.rk[n + 8] = t.rk[n] ^^^
        (if (n + 8) % 8 = 0 then sub (b 1) (b 2) (b 3) (b 0) ^^^ BitVec.ofNat 32 (2 ^ ((n + 8) / 8 - 1) * 2 ^ 24)
        else if (n + 8) % 8 = 4 then sub (b 0) (b 1) (b 2) (b 3) else t.rk[n + 7]))

/-- R246: AESBLK encrypts the 16 bytes at ARG0, read before any write, into ARG2, and writes RK. -/
def Obligations.AesblkEncryptsOneBlock : Prop :=
  ∀ s : State, s.srcAddr + 16 ≤ s.cfg.bufBytes → s.dstAddr + 16 ≤ s.cfg.bufBytes →
    ∃ t, exec .aesblk s = .next t ∧
      t.memRead s.dstAddr 16 = aesEnc (keyExpand s.key.toList) (s.memRead s.srcAddr 16) ∧
      (∀ n : Fin 60, t.rk[n] = (keyExpand s.key.toList).getD n.val 0) ∧
      s.SameBytesOutside t s.dstAddr 16 ∧
      t = ({ s with buf := t.buf, rk := t.rk } : State).succeeded 0

/-- R251, R252, R250: AESCTR for every length and every overlap. Byte p goes out XORed with the keystream
of counter CTRVAL + p/16; the byte read is the one already written when the destination starts behind the
source and has reached it (R77). The counter advances once a chunk, a partial one included. -/
def Obligations.AesctrXorsTheKeystream : Prop :=
  ∀ s : State, s.srcAddr + s.srcLen ≤ s.cfg.bufBytes → s.dstAddr + s.srcLen ≤ s.cfg.bufBytes →
    ∃ t, exec .aesctr s = .next t ∧
      (∀ p, p < s.srcLen → t.bufRead (s.dstAddr + p) =
        (if s.srcAddr < s.dstAddr ∧ s.dstAddr ≤ s.srcAddr + p then t.bufRead (s.srcAddr + p)
          else s.bufRead (s.srcAddr + p)) ^^^
        (aesEnc (keyExpand s.key.toList) (beBytes ((s.ctrVal + p / 16) % 2 ^ 128) 16)).getD (p % 16) 0) ∧
      t.ctrVal = (s.ctrVal + (s.srcLen + 15) / 16) % 2 ^ 128 ∧
      (∀ n : Fin 60, t.rk[n] = (keyExpand s.key.toList).getD n.val 0) ∧
      s.SameBytesOutside t s.dstAddr s.srcLen ∧
      t = ({ s with buf := t.buf, ctr := t.ctr, rk := t.rk } : State).succeeded 0

/-- R253: AESCTR is its own inverse: on what it wrote, with the counter written back, it gives the input.
Neither run's destination starts inside its source behind the source's first byte; in place is allowed. -/
def Obligations.AesctrUndoesItself : Prop :=
  ∀ (s : State) (out cap : Word),
    s.srcAddr + s.srcLen ≤ s.cfg.bufBytes → s.dstAddr + s.srcLen ≤ s.cfg.bufBytes →
    out.toNat + s.srcLen ≤ s.cfg.bufBytes →
    ¬ (s.srcAddr < s.dstAddr ∧ s.dstAddr < s.srcAddr + s.srcLen) →
    ¬ (s.dstAddr < out.toNat ∧ out.toNat < s.dstAddr + s.srcLen) →
    ∃ t u, exec .aesctr s = .next t ∧
      exec .aesctr { t with ctr := s.ctr, args := #v[s.args[2], s.args[1], out, cap] } = .next u ∧
      u.memRead out.toNat s.srcLen = s.memRead s.srcAddr s.srcLen

/-- R245: AES_ENC is AddRoundKey 0, rounds 1-13 of SubBytes, ShiftRows, MixColumns, AddRoundKey, then round
14 without MixColumns, for every schedule and every block; what each transformation does is
RoundTransformations, and the S-box SboxIsAffineOfTheInverse. -/
def Obligations.AesEncIsTheRoundSequence : Prop :=
  ∀ (w : List Word) (s : List Byte),
    aesEnc w s = addRoundKey w 14 (shiftRows (subBytes
      ([1, 2, 3, 4, 5, 6, 7, 8, 9, 10, 11, 12, 13].foldl
        (fun t k => addRoundKey w k (mixColumns (shiftRows (subBytes t)))) (addRoundKey w 0 s)))) ∧
    (w.length = 60 → s.length = 16 → (aesEnc w s).length = 16)

end
end

