-- ==== Sys2Proof/Laws/State.lean ====
section
/-! SUPPORT. What every update of the state does to every field: one lemma per field per update. -/

namespace Sys2Proof.Machine.State

/-! ### setN -/

@[simp] theorem setN_cfg (s : State) (k : RegNo) (v : Nat) : (s.setN k v).cfg = s.cfg := rfl
@[simp] theorem setN_irqen (s : State) (k : RegNo) (v : Nat) : (s.setN k v).irqen = s.irqen := rfl
@[simp] theorem setN_status (s : State) (k : RegNo) (v : Nat) : (s.setN k v).status = s.status := rfl
@[simp] theorem setN_cmd (s : State) (k : RegNo) (v : Nat) : (s.setN k v).cmd = s.cmd := rfl
@[simp] theorem setN_result (s : State) (k : RegNo) (v : Nat) : (s.setN k v).result = s.result := rfl
@[simp] theorem setN_mprime (s : State) (k : RegNo) (v : Nat) : (s.setN k v).mprime = s.mprime := rfl
@[simp] theorem setN_args (s : State) (k : RegNo) (v : Nat) : (s.setN k v).args = s.args := rfl
@[simp] theorem setN_key (s : State) (k : RegNo) (v : Nat) : (s.setN k v).key = s.key := rfl
@[simp] theorem setN_ctr (s : State) (k : RegNo) (v : Nat) : (s.setN k v).ctr = s.ctr := rfl
@[simp] theorem setN_rk (s : State) (k : RegNo) (v : Nat) : (s.setN k v).rk = s.rk := rfl
@[simp] theorem setN_nreg (s : State) (k : RegNo) (v : Nat) : (s.setN k v).nreg = s.nreg.set k (toDigits s.cfg.lMax v) := rfl
@[simp] theorem setN_buf (s : State) (k : RegNo) (v : Nat) : (s.setN k v).buf = s.buf := rfl
@[simp] theorem setN_bufFill (s : State) (k : RegNo) (v : Nat) : (s.setN k v).bufFill = s.bufFill := rfl
@[simp] theorem setN_draws (s : State) (k : RegNo) (v : Nat) : (s.setN k v).draws = s.draws := rfl
@[simp] theorem setN_sched (s : State) (k : RegNo) (v : Nat) : (s.setN k v).sched = s.sched := rfl
@[simp] theorem setN_resp (s : State) (k : RegNo) (v : Nat) : (s.setN k v).resp = s.resp := rfl

/-! ### setDigit -/

@[simp] theorem setDigit_cfg (s : State) (k : RegNo) (i : Nat) (w : Word) : (s.setDigit k i w).cfg = s.cfg := rfl
@[simp] theorem setDigit_irqen (s : State) (k : RegNo) (i : Nat) (w : Word) : (s.setDigit k i w).irqen = s.irqen := rfl
@[simp] theorem setDigit_status (s : State) (k : RegNo) (i : Nat) (w : Word) : (s.setDigit k i w).status = s.status := rfl
@[simp] theorem setDigit_cmd (s : State) (k : RegNo) (i : Nat) (w : Word) : (s.setDigit k i w).cmd = s.cmd := rfl
@[simp] theorem setDigit_result (s : State) (k : RegNo) (i : Nat) (w : Word) : (s.setDigit k i w).result = s.result := rfl
@[simp] theorem setDigit_mprime (s : State) (k : RegNo) (i : Nat) (w : Word) : (s.setDigit k i w).mprime = s.mprime := rfl
@[simp] theorem setDigit_args (s : State) (k : RegNo) (i : Nat) (w : Word) : (s.setDigit k i w).args = s.args := rfl
@[simp] theorem setDigit_key (s : State) (k : RegNo) (i : Nat) (w : Word) : (s.setDigit k i w).key = s.key := rfl
@[simp] theorem setDigit_ctr (s : State) (k : RegNo) (i : Nat) (w : Word) : (s.setDigit k i w).ctr = s.ctr := rfl
@[simp] theorem setDigit_rk (s : State) (k : RegNo) (i : Nat) (w : Word) : (s.setDigit k i w).rk = s.rk := rfl
@[simp] theorem setDigit_nreg (s : State) (k : RegNo) (i : Nat) (w : Word) : (s.setDigit k i w).nreg = s.nreg.set k (s.nreg[k].set i (w.extractLsb' 0 31)) := rfl
@[simp] theorem setDigit_buf (s : State) (k : RegNo) (i : Nat) (w : Word) : (s.setDigit k i w).buf = s.buf := rfl
@[simp] theorem setDigit_bufFill (s : State) (k : RegNo) (i : Nat) (w : Word) : (s.setDigit k i w).bufFill = s.bufFill := rfl
@[simp] theorem setDigit_draws (s : State) (k : RegNo) (i : Nat) (w : Word) : (s.setDigit k i w).draws = s.draws := rfl
@[simp] theorem setDigit_sched (s : State) (k : RegNo) (i : Nat) (w : Word) : (s.setDigit k i w).sched = s.sched := rfl
@[simp] theorem setDigit_resp (s : State) (k : RegNo) (i : Nat) (w : Word) : (s.setDigit k i w).resp = s.resp := rfl

/-! ### setMprime -/

@[simp] theorem setMprime_cfg (s : State) (v : BitVec 31) : (s.setMprime v).cfg = s.cfg := rfl
@[simp] theorem setMprime_irqen (s : State) (v : BitVec 31) : (s.setMprime v).irqen = s.irqen := rfl
@[simp] theorem setMprime_status (s : State) (v : BitVec 31) : (s.setMprime v).status = s.status := rfl
@[simp] theorem setMprime_cmd (s : State) (v : BitVec 31) : (s.setMprime v).cmd = s.cmd := rfl
@[simp] theorem setMprime_result (s : State) (v : BitVec 31) : (s.setMprime v).result = s.result := rfl
@[simp] theorem setMprime_mprime (s : State) (v : BitVec 31) : (s.setMprime v).mprime = v := rfl
@[simp] theorem setMprime_args (s : State) (v : BitVec 31) : (s.setMprime v).args = s.args := rfl
@[simp] theorem setMprime_key (s : State) (v : BitVec 31) : (s.setMprime v).key = s.key := rfl
@[simp] theorem setMprime_ctr (s : State) (v : BitVec 31) : (s.setMprime v).ctr = s.ctr := rfl
@[simp] theorem setMprime_rk (s : State) (v : BitVec 31) : (s.setMprime v).rk = s.rk := rfl
@[simp] theorem setMprime_nreg (s : State) (v : BitVec 31) : (s.setMprime v).nreg = s.nreg := rfl
@[simp] theorem setMprime_buf (s : State) (v : BitVec 31) : (s.setMprime v).buf = s.buf := rfl
@[simp] theorem setMprime_bufFill (s : State) (v : BitVec 31) : (s.setMprime v).bufFill = s.bufFill := rfl
@[simp] theorem setMprime_draws (s : State) (v : BitVec 31) : (s.setMprime v).draws = s.draws := rfl
@[simp] theorem setMprime_sched (s : State) (v : BitVec 31) : (s.setMprime v).sched = s.sched := rfl
@[simp] theorem setMprime_resp (s : State) (v : BitVec 31) : (s.setMprime v).resp = s.resp := rfl

/-! ### setRk -/

@[simp] theorem setRk_cfg (s : State) (ws : List Word) : (s.setRk ws).cfg = s.cfg := rfl
@[simp] theorem setRk_irqen (s : State) (ws : List Word) : (s.setRk ws).irqen = s.irqen := rfl
@[simp] theorem setRk_status (s : State) (ws : List Word) : (s.setRk ws).status = s.status := rfl
@[simp] theorem setRk_cmd (s : State) (ws : List Word) : (s.setRk ws).cmd = s.cmd := rfl
@[simp] theorem setRk_result (s : State) (ws : List Word) : (s.setRk ws).result = s.result := rfl
@[simp] theorem setRk_mprime (s : State) (ws : List Word) : (s.setRk ws).mprime = s.mprime := rfl
@[simp] theorem setRk_args (s : State) (ws : List Word) : (s.setRk ws).args = s.args := rfl
@[simp] theorem setRk_key (s : State) (ws : List Word) : (s.setRk ws).key = s.key := rfl
@[simp] theorem setRk_ctr (s : State) (ws : List Word) : (s.setRk ws).ctr = s.ctr := rfl
@[simp] theorem setRk_rk (s : State) (ws : List Word) : (s.setRk ws).rk = rkWords ws := rfl
@[simp] theorem setRk_nreg (s : State) (ws : List Word) : (s.setRk ws).nreg = s.nreg := rfl
@[simp] theorem setRk_buf (s : State) (ws : List Word) : (s.setRk ws).buf = s.buf := rfl
@[simp] theorem setRk_bufFill (s : State) (ws : List Word) : (s.setRk ws).bufFill = s.bufFill := rfl
@[simp] theorem setRk_draws (s : State) (ws : List Word) : (s.setRk ws).draws = s.draws := rfl
@[simp] theorem setRk_sched (s : State) (ws : List Word) : (s.setRk ws).sched = s.sched := rfl
@[simp] theorem setRk_resp (s : State) (ws : List Word) : (s.setRk ws).resp = s.resp := rfl

/-! ### setCtrVal -/

@[simp] theorem setCtrVal_cfg (s : State) (v : Nat) : (s.setCtrVal v).cfg = s.cfg := rfl
@[simp] theorem setCtrVal_irqen (s : State) (v : Nat) : (s.setCtrVal v).irqen = s.irqen := rfl
@[simp] theorem setCtrVal_status (s : State) (v : Nat) : (s.setCtrVal v).status = s.status := rfl
@[simp] theorem setCtrVal_cmd (s : State) (v : Nat) : (s.setCtrVal v).cmd = s.cmd := rfl
@[simp] theorem setCtrVal_result (s : State) (v : Nat) : (s.setCtrVal v).result = s.result := rfl
@[simp] theorem setCtrVal_mprime (s : State) (v : Nat) : (s.setCtrVal v).mprime = s.mprime := rfl
@[simp] theorem setCtrVal_args (s : State) (v : Nat) : (s.setCtrVal v).args = s.args := rfl
@[simp] theorem setCtrVal_key (s : State) (v : Nat) : (s.setCtrVal v).key = s.key := rfl
@[simp] theorem setCtrVal_ctr (s : State) (v : Nat) : (s.setCtrVal v).ctr = ctrWords v := rfl
@[simp] theorem setCtrVal_rk (s : State) (v : Nat) : (s.setCtrVal v).rk = s.rk := rfl
@[simp] theorem setCtrVal_nreg (s : State) (v : Nat) : (s.setCtrVal v).nreg = s.nreg := rfl
@[simp] theorem setCtrVal_buf (s : State) (v : Nat) : (s.setCtrVal v).buf = s.buf := rfl
@[simp] theorem setCtrVal_bufFill (s : State) (v : Nat) : (s.setCtrVal v).bufFill = s.bufFill := rfl
@[simp] theorem setCtrVal_draws (s : State) (v : Nat) : (s.setCtrVal v).draws = s.draws := rfl
@[simp] theorem setCtrVal_sched (s : State) (v : Nat) : (s.setCtrVal v).sched = s.sched := rfl
@[simp] theorem setCtrVal_resp (s : State) (v : Nat) : (s.setCtrVal v).resp = s.resp := rfl

/-! ### completeOk -/

@[simp] theorem completeOk_cfg (s : State) (r : Word) : (s.completeOk r).cfg = s.cfg := rfl
@[simp] theorem completeOk_irqen (s : State) (r : Word) : (s.completeOk r).irqen = s.irqen := rfl
@[simp] theorem completeOk_status (s : State) (r : Word) : (s.completeOk r).status = s.status.complete := rfl
@[simp] theorem completeOk_cmd (s : State) (r : Word) : (s.completeOk r).cmd = s.cmd := rfl
@[simp] theorem completeOk_result (s : State) (r : Word) : (s.completeOk r).result = r := rfl
@[simp] theorem completeOk_mprime (s : State) (r : Word) : (s.completeOk r).mprime = s.mprime := rfl
@[simp] theorem completeOk_args (s : State) (r : Word) : (s.completeOk r).args = s.args := rfl
@[simp] theorem completeOk_key (s : State) (r : Word) : (s.completeOk r).key = s.key := rfl
@[simp] theorem completeOk_ctr (s : State) (r : Word) : (s.completeOk r).ctr = s.ctr := rfl
@[simp] theorem completeOk_rk (s : State) (r : Word) : (s.completeOk r).rk = s.rk := rfl
@[simp] theorem completeOk_nreg (s : State) (r : Word) : (s.completeOk r).nreg = s.nreg := rfl
@[simp] theorem completeOk_buf (s : State) (r : Word) : (s.completeOk r).buf = s.buf := rfl
@[simp] theorem completeOk_bufFill (s : State) (r : Word) : (s.completeOk r).bufFill = s.bufFill := rfl
@[simp] theorem completeOk_draws (s : State) (r : Word) : (s.completeOk r).draws = s.draws := rfl
@[simp] theorem completeOk_sched (s : State) (r : Word) : (s.completeOk r).sched = s.sched := rfl
@[simp] theorem completeOk_resp (s : State) (r : Word) : (s.completeOk r).resp = s.resp := rfl

/-! ### errorCompletion -/

@[simp] theorem errorCompletion_cfg (s : State) (c : ErrCode) : (s.errorCompletion c).cfg = s.cfg := rfl
@[simp] theorem errorCompletion_irqen (s : State) (c : ErrCode) : (s.errorCompletion c).irqen = s.irqen := rfl
@[simp] theorem errorCompletion_status (s : State) (c : ErrCode) : (s.errorCompletion c).status = s.status.fail c := rfl
@[simp] theorem errorCompletion_cmd (s : State) (c : ErrCode) : (s.errorCompletion c).cmd = s.cmd := rfl
@[simp] theorem errorCompletion_result (s : State) (c : ErrCode) : (s.errorCompletion c).result = 0 := rfl
@[simp] theorem errorCompletion_mprime (s : State) (c : ErrCode) : (s.errorCompletion c).mprime = s.mprime := rfl
@[simp] theorem errorCompletion_args (s : State) (c : ErrCode) : (s.errorCompletion c).args = s.args := rfl
@[simp] theorem errorCompletion_key (s : State) (c : ErrCode) : (s.errorCompletion c).key = s.key := rfl
@[simp] theorem errorCompletion_ctr (s : State) (c : ErrCode) : (s.errorCompletion c).ctr = s.ctr := rfl
@[simp] theorem errorCompletion_rk (s : State) (c : ErrCode) : (s.errorCompletion c).rk = s.rk := rfl
@[simp] theorem errorCompletion_nreg (s : State) (c : ErrCode) : (s.errorCompletion c).nreg = s.nreg := rfl
@[simp] theorem errorCompletion_buf (s : State) (c : ErrCode) : (s.errorCompletion c).buf = s.buf := rfl
@[simp] theorem errorCompletion_bufFill (s : State) (c : ErrCode) : (s.errorCompletion c).bufFill = s.bufFill := rfl
@[simp] theorem errorCompletion_draws (s : State) (c : ErrCode) : (s.errorCompletion c).draws = s.draws := rfl
@[simp] theorem errorCompletion_sched (s : State) (c : ErrCode) : (s.errorCompletion c).sched = s.sched := rfl
@[simp] theorem errorCompletion_resp (s : State) (c : ErrCode) : (s.errorCompletion c).resp = s.resp := rfl

/-! ### acceptStart -/

@[simp] theorem acceptStart_cfg (s : State) (q : Bool) : (s.acceptStart q).cfg = s.cfg := rfl
@[simp] theorem acceptStart_irqen (s : State) (q : Bool) : (s.acceptStart q).irqen = q := rfl
@[simp] theorem acceptStart_status (s : State) (q : Bool) : (s.acceptStart q).status = s.status.start := rfl
@[simp] theorem acceptStart_cmd (s : State) (q : Bool) : (s.acceptStart q).cmd = s.cmd := rfl
@[simp] theorem acceptStart_result (s : State) (q : Bool) : (s.acceptStart q).result = s.result := rfl
@[simp] theorem acceptStart_mprime (s : State) (q : Bool) : (s.acceptStart q).mprime = s.mprime := rfl
@[simp] theorem acceptStart_args (s : State) (q : Bool) : (s.acceptStart q).args = s.args := rfl
@[simp] theorem acceptStart_key (s : State) (q : Bool) : (s.acceptStart q).key = s.key := rfl
@[simp] theorem acceptStart_ctr (s : State) (q : Bool) : (s.acceptStart q).ctr = s.ctr := rfl
@[simp] theorem acceptStart_rk (s : State) (q : Bool) : (s.acceptStart q).rk = s.rk := rfl
@[simp] theorem acceptStart_nreg (s : State) (q : Bool) : (s.acceptStart q).nreg = s.nreg := rfl
@[simp] theorem acceptStart_buf (s : State) (q : Bool) : (s.acceptStart q).buf = s.buf := rfl
@[simp] theorem acceptStart_bufFill (s : State) (q : Bool) : (s.acceptStart q).bufFill = s.bufFill := rfl
@[simp] theorem acceptStart_draws (s : State) (q : Bool) : (s.acceptStart q).draws = s.draws := rfl
@[simp] theorem acceptStart_sched (s : State) (q : Bool) : (s.acceptStart q).sched = s.sched := rfl
@[simp] theorem acceptStart_resp (s : State) (q : Bool) : (s.acceptStart q).resp = s.resp := rfl

/-! ### refuseStart -/

@[simp] theorem refuseStart_cfg (s : State) (q : Bool) : (s.refuseStart q).cfg = s.cfg := rfl
@[simp] theorem refuseStart_irqen (s : State) (q : Bool) : (s.refuseStart q).irqen = q := rfl
@[simp] theorem refuseStart_status (s : State) (q : Bool) : (s.refuseStart q).status = s.status.dropped := rfl
@[simp] theorem refuseStart_cmd (s : State) (q : Bool) : (s.refuseStart q).cmd = s.cmd := rfl
@[simp] theorem refuseStart_result (s : State) (q : Bool) : (s.refuseStart q).result = s.result := rfl
@[simp] theorem refuseStart_mprime (s : State) (q : Bool) : (s.refuseStart q).mprime = s.mprime := rfl
@[simp] theorem refuseStart_args (s : State) (q : Bool) : (s.refuseStart q).args = s.args := rfl
@[simp] theorem refuseStart_key (s : State) (q : Bool) : (s.refuseStart q).key = s.key := rfl
@[simp] theorem refuseStart_ctr (s : State) (q : Bool) : (s.refuseStart q).ctr = s.ctr := rfl
@[simp] theorem refuseStart_rk (s : State) (q : Bool) : (s.refuseStart q).rk = s.rk := rfl
@[simp] theorem refuseStart_nreg (s : State) (q : Bool) : (s.refuseStart q).nreg = s.nreg := rfl
@[simp] theorem refuseStart_buf (s : State) (q : Bool) : (s.refuseStart q).buf = s.buf := rfl
@[simp] theorem refuseStart_bufFill (s : State) (q : Bool) : (s.refuseStart q).bufFill = s.bufFill := rfl
@[simp] theorem refuseStart_draws (s : State) (q : Bool) : (s.refuseStart q).draws = s.draws := rfl
@[simp] theorem refuseStart_sched (s : State) (q : Bool) : (s.refuseStart q).sched = s.sched := rfl
@[simp] theorem refuseStart_resp (s : State) (q : Bool) : (s.refuseStart q).resp = s.resp := rfl

/-! ### acknowledge -/

@[simp] theorem acknowledge_cfg (s : State) (w : Word) : (s.acknowledge w).cfg = s.cfg := rfl
@[simp] theorem acknowledge_irqen (s : State) (w : Word) : (s.acknowledge w).irqen = s.irqen := rfl
@[simp] theorem acknowledge_status (s : State) (w : Word) : (s.acknowledge w).status = s.status.w1c w := rfl
@[simp] theorem acknowledge_cmd (s : State) (w : Word) : (s.acknowledge w).cmd = s.cmd := rfl
@[simp] theorem acknowledge_result (s : State) (w : Word) : (s.acknowledge w).result = s.result := rfl
@[simp] theorem acknowledge_mprime (s : State) (w : Word) : (s.acknowledge w).mprime = s.mprime := rfl
@[simp] theorem acknowledge_args (s : State) (w : Word) : (s.acknowledge w).args = s.args := rfl
@[simp] theorem acknowledge_key (s : State) (w : Word) : (s.acknowledge w).key = s.key := rfl
@[simp] theorem acknowledge_ctr (s : State) (w : Word) : (s.acknowledge w).ctr = s.ctr := rfl
@[simp] theorem acknowledge_rk (s : State) (w : Word) : (s.acknowledge w).rk = s.rk := rfl
@[simp] theorem acknowledge_nreg (s : State) (w : Word) : (s.acknowledge w).nreg = s.nreg := rfl
@[simp] theorem acknowledge_buf (s : State) (w : Word) : (s.acknowledge w).buf = s.buf := rfl
@[simp] theorem acknowledge_bufFill (s : State) (w : Word) : (s.acknowledge w).bufFill = s.bufFill := rfl
@[simp] theorem acknowledge_draws (s : State) (w : Word) : (s.acknowledge w).draws = s.draws := rfl
@[simp] theorem acknowledge_sched (s : State) (w : Word) : (s.acknowledge w).sched = s.sched := rfl
@[simp] theorem acknowledge_resp (s : State) (w : Word) : (s.acknowledge w).resp = s.resp := rfl

/-! ### dropWrite -/

@[simp] theorem dropWrite_cfg (s : State) : s.dropWrite.cfg = s.cfg := rfl
@[simp] theorem dropWrite_irqen (s : State) : s.dropWrite.irqen = s.irqen := rfl
@[simp] theorem dropWrite_status (s : State) : s.dropWrite.status = s.status.dropped := rfl
@[simp] theorem dropWrite_cmd (s : State) : s.dropWrite.cmd = s.cmd := rfl
@[simp] theorem dropWrite_result (s : State) : s.dropWrite.result = s.result := rfl
@[simp] theorem dropWrite_mprime (s : State) : s.dropWrite.mprime = s.mprime := rfl
@[simp] theorem dropWrite_args (s : State) : s.dropWrite.args = s.args := rfl
@[simp] theorem dropWrite_key (s : State) : s.dropWrite.key = s.key := rfl
@[simp] theorem dropWrite_ctr (s : State) : s.dropWrite.ctr = s.ctr := rfl
@[simp] theorem dropWrite_rk (s : State) : s.dropWrite.rk = s.rk := rfl
@[simp] theorem dropWrite_nreg (s : State) : s.dropWrite.nreg = s.nreg := rfl
@[simp] theorem dropWrite_buf (s : State) : s.dropWrite.buf = s.buf := rfl
@[simp] theorem dropWrite_bufFill (s : State) : s.dropWrite.bufFill = s.bufFill := rfl
@[simp] theorem dropWrite_draws (s : State) : s.dropWrite.draws = s.draws := rfl
@[simp] theorem dropWrite_sched (s : State) : s.dropWrite.sched = s.sched := rfl
@[simp] theorem dropWrite_resp (s : State) : s.dropWrite.resp = s.resp := rfl

/-! ### respond -/

@[simp] theorem respond_cfg (s : State) (r : BusResp) : (s.respond r).cfg = s.cfg := rfl
@[simp] theorem respond_irqen (s : State) (r : BusResp) : (s.respond r).irqen = s.irqen := rfl
@[simp] theorem respond_status (s : State) (r : BusResp) : (s.respond r).status = s.status := rfl
@[simp] theorem respond_cmd (s : State) (r : BusResp) : (s.respond r).cmd = s.cmd := rfl
@[simp] theorem respond_result (s : State) (r : BusResp) : (s.respond r).result = s.result := rfl
@[simp] theorem respond_mprime (s : State) (r : BusResp) : (s.respond r).mprime = s.mprime := rfl
@[simp] theorem respond_args (s : State) (r : BusResp) : (s.respond r).args = s.args := rfl
@[simp] theorem respond_key (s : State) (r : BusResp) : (s.respond r).key = s.key := rfl
@[simp] theorem respond_ctr (s : State) (r : BusResp) : (s.respond r).ctr = s.ctr := rfl
@[simp] theorem respond_rk (s : State) (r : BusResp) : (s.respond r).rk = s.rk := rfl
@[simp] theorem respond_nreg (s : State) (r : BusResp) : (s.respond r).nreg = s.nreg := rfl
@[simp] theorem respond_buf (s : State) (r : BusResp) : (s.respond r).buf = s.buf := rfl
@[simp] theorem respond_bufFill (s : State) (r : BusResp) : (s.respond r).bufFill = s.bufFill := rfl
@[simp] theorem respond_draws (s : State) (r : BusResp) : (s.respond r).draws = s.draws := rfl
@[simp] theorem respond_sched (s : State) (r : BusResp) : (s.respond r).sched = s.sched := rfl
@[simp] theorem respond_resp (s : State) (r : BusResp) : (s.respond r).resp = r := rfl

/-! ### resetRegisters -/

@[simp] theorem resetRegisters_cfg (s : State) : s.resetRegisters.cfg = s.cfg := rfl
@[simp] theorem resetRegisters_irqen (s : State) : s.resetRegisters.irqen = false := rfl
@[simp] theorem resetRegisters_status (s : State) : s.resetRegisters.status = Status.reset := rfl
@[simp] theorem resetRegisters_cmd (s : State) : s.resetRegisters.cmd = 0 := rfl
@[simp] theorem resetRegisters_result (s : State) : s.resetRegisters.result = 0 := rfl
@[simp] theorem resetRegisters_mprime (s : State) : s.resetRegisters.mprime = 0 := rfl
@[simp] theorem resetRegisters_args (s : State) : s.resetRegisters.args = Vector.replicate 4 0 := rfl
@[simp] theorem resetRegisters_key (s : State) : s.resetRegisters.key = Vector.replicate 8 0 := rfl
@[simp] theorem resetRegisters_ctr (s : State) : s.resetRegisters.ctr = Vector.replicate 4 0 := rfl
@[simp] theorem resetRegisters_rk (s : State) : s.resetRegisters.rk = Vector.replicate 60 0 := rfl
@[simp] theorem resetRegisters_nreg (s : State) : s.resetRegisters.nreg = Vector.replicate 8 (List.replicate s.cfg.lMax 0) := rfl
@[simp] theorem resetRegisters_buf (s : State) : s.resetRegisters.buf = s.buf := rfl
@[simp] theorem resetRegisters_bufFill (s : State) : s.resetRegisters.bufFill = s.bufFill := rfl
@[simp] theorem resetRegisters_draws (s : State) : s.resetRegisters.draws = s.draws := rfl
@[simp] theorem resetRegisters_sched (s : State) : s.resetRegisters.sched = s.sched := rfl
@[simp] theorem resetRegisters_resp (s : State) : s.resetRegisters.resp = s.resp := rfl

/-! ### powerOn -/

@[simp] theorem powerOn_cfg (s : State) : s.powerOn.cfg = s.cfg := rfl
@[simp] theorem powerOn_irqen (s : State) : s.powerOn.irqen = false := rfl
@[simp] theorem powerOn_status (s : State) : s.powerOn.status = Status.reset := rfl
@[simp] theorem powerOn_cmd (s : State) : s.powerOn.cmd = 0 := rfl
@[simp] theorem powerOn_result (s : State) : s.powerOn.result = 0 := rfl
@[simp] theorem powerOn_mprime (s : State) : s.powerOn.mprime = 0 := rfl
@[simp] theorem powerOn_args (s : State) : s.powerOn.args = Vector.replicate 4 0 := rfl
@[simp] theorem powerOn_key (s : State) : s.powerOn.key = Vector.replicate 8 0 := rfl
@[simp] theorem powerOn_ctr (s : State) : s.powerOn.ctr = Vector.replicate 4 0 := rfl
@[simp] theorem powerOn_rk (s : State) : s.powerOn.rk = Vector.replicate 60 0 := rfl
@[simp] theorem powerOn_nreg (s : State) : s.powerOn.nreg = Vector.replicate 8 (List.replicate s.cfg.lMax 0) := rfl
@[simp] theorem powerOn_buf (s : State) : s.powerOn.buf = [] := rfl
@[simp] theorem powerOn_bufFill (s : State) : s.powerOn.bufFill = s.draws := rfl
@[simp] theorem powerOn_draws (s : State) : s.powerOn.draws = s.draws + 1 := rfl
@[simp] theorem powerOn_sched (s : State) : s.powerOn.sched = s.sched := rfl
@[simp] theorem powerOn_resp (s : State) : s.powerOn.resp = s.resp := rfl

/-! ### Status -/

end Sys2Proof.Machine.State

namespace Sys2Proof.Machine.Status

@[simp] theorem start_busy (st : Status) : st.start.busy = true := rfl
@[simp] theorem start_done (st : Status) : st.start.done = false := rfl
@[simp] theorem start_err (st : Status) : st.start.err = false := rfl
@[simp] theorem start_busyErr (st : Status) : st.start.busyErr = st.busyErr := rfl
@[simp] theorem start_errcode (st : Status) : st.start.errcode = .noError := rfl
@[simp] theorem complete_busy (st : Status) : st.complete.busy = false := rfl
@[simp] theorem complete_done (st : Status) : st.complete.done = true := rfl
@[simp] theorem complete_err (st : Status) : st.complete.err = st.err := rfl
@[simp] theorem complete_busyErr (st : Status) : st.complete.busyErr = st.busyErr := rfl
@[simp] theorem complete_errcode (st : Status) : st.complete.errcode = .noError := rfl
@[simp] theorem fail_busy (st : Status) (c : ErrCode) : (st.fail c).busy = false := rfl
@[simp] theorem fail_done (st : Status) (c : ErrCode) : (st.fail c).done = true := rfl
@[simp] theorem fail_err (st : Status) (c : ErrCode) : (st.fail c).err = true := rfl
@[simp] theorem fail_busyErr (st : Status) (c : ErrCode) : (st.fail c).busyErr = st.busyErr := rfl
@[simp] theorem fail_errcode (st : Status) (c : ErrCode) : (st.fail c).errcode = c := rfl
@[simp] theorem w1c_busy (st : Status) (w : Word) : (st.w1c w).busy = st.busy := rfl
@[simp] theorem w1c_done (st : Status) (w : Word) : (st.w1c w).done = (st.done && !w.getLsbD 1) := rfl
@[simp] theorem w1c_err (st : Status) (w : Word) : (st.w1c w).err = (st.err && !w.getLsbD 2) := rfl
@[simp] theorem w1c_busyErr (st : Status) (w : Word) : (st.w1c w).busyErr = (st.busyErr && !w.getLsbD 3) := rfl
@[simp] theorem w1c_errcode (st : Status) (w : Word) : (st.w1c w).errcode = st.errcode := rfl
@[simp] theorem dropped_busy (st : Status) : st.dropped.busy = st.busy := rfl
@[simp] theorem dropped_done (st : Status) : st.dropped.done = st.done := rfl
@[simp] theorem dropped_err (st : Status) : st.dropped.err = st.err := rfl
@[simp] theorem dropped_busyErr (st : Status) : st.dropped.busyErr = true := rfl
@[simp] theorem dropped_errcode (st : Status) : st.dropped.errcode = st.errcode := rfl

end Sys2Proof.Machine.Status

namespace Sys2Proof.Machine.State

/-! ### BUF writes change only `buf` -/

@[simp] theorem bufWrite_cfg (s : State) (a : Nat) (x : Byte) : (s.bufWrite a x).cfg = s.cfg := by
  unfold bufWrite; split <;> rfl
@[simp] theorem bufWrite_irqen (s : State) (a : Nat) (x : Byte) : (s.bufWrite a x).irqen = s.irqen := by
  unfold bufWrite; split <;> rfl
@[simp] theorem bufWrite_status (s : State) (a : Nat) (x : Byte) : (s.bufWrite a x).status = s.status := by
  unfold bufWrite; split <;> rfl
@[simp] theorem bufWrite_cmd (s : State) (a : Nat) (x : Byte) : (s.bufWrite a x).cmd = s.cmd := by
  unfold bufWrite; split <;> rfl
@[simp] theorem bufWrite_result (s : State) (a : Nat) (x : Byte) : (s.bufWrite a x).result = s.result := by
  unfold bufWrite; split <;> rfl
@[simp] theorem bufWrite_mprime (s : State) (a : Nat) (x : Byte) : (s.bufWrite a x).mprime = s.mprime := by
  unfold bufWrite; split <;> rfl
@[simp] theorem bufWrite_args (s : State) (a : Nat) (x : Byte) : (s.bufWrite a x).args = s.args := by
  unfold bufWrite; split <;> rfl
@[simp] theorem bufWrite_key (s : State) (a : Nat) (x : Byte) : (s.bufWrite a x).key = s.key := by
  unfold bufWrite; split <;> rfl
@[simp] theorem bufWrite_ctr (s : State) (a : Nat) (x : Byte) : (s.bufWrite a x).ctr = s.ctr := by
  unfold bufWrite; split <;> rfl
@[simp] theorem bufWrite_rk (s : State) (a : Nat) (x : Byte) : (s.bufWrite a x).rk = s.rk := by
  unfold bufWrite; split <;> rfl
@[simp] theorem bufWrite_nreg (s : State) (a : Nat) (x : Byte) : (s.bufWrite a x).nreg = s.nreg := by
  unfold bufWrite; split <;> rfl
@[simp] theorem bufWrite_bufFill (s : State) (a : Nat) (x : Byte) : (s.bufWrite a x).bufFill = s.bufFill := by
  unfold bufWrite; split <;> rfl
@[simp] theorem bufWrite_draws (s : State) (a : Nat) (x : Byte) : (s.bufWrite a x).draws = s.draws := by
  unfold bufWrite; split <;> rfl
@[simp] theorem bufWrite_sched (s : State) (a : Nat) (x : Byte) : (s.bufWrite a x).sched = s.sched := by
  unfold bufWrite; split <;> rfl
@[simp] theorem bufWrite_resp (s : State) (a : Nat) (x : Byte) : (s.bufWrite a x).resp = s.resp := by
  unfold bufWrite; split <;> rfl

theorem bufWrite_buf (s : State) (a : Nat) (x : Byte) : (s.bufWrite a x).buf =
    if a < s.cfg.bufBytes then Memory.set s.buf a x else s.buf := by
  unfold bufWrite; split <;> rfl

@[simp] theorem memWrite_nil (s : State) (a : Nat) : s.memWrite a [] = s := rfl

@[simp] theorem memWrite_cons (s : State) (a : Nat) (x : Byte) (xs : List Byte) :
    s.memWrite a (x :: xs) = (s.bufWrite a x).memWrite (a + 1) xs := rfl

/-- A BUF write is the state with another `buf`. -/
theorem memWrite_eq (s : State) (a : Nat) (xs : List Byte) :
    s.memWrite a xs = { s with buf := (s.memWrite a xs).buf } := by
  induction xs generalizing s a with
  | nil => rfl
  | cons x xs ih =>
    rw [memWrite_cons, ih]
    unfold bufWrite
    split <;> rfl

@[simp] theorem memWrite_cfg (s : State) (a : Nat) (xs : List Byte) : (s.memWrite a xs).cfg = s.cfg := by
  rw [memWrite_eq]
@[simp] theorem memWrite_irqen (s : State) (a : Nat) (xs : List Byte) : (s.memWrite a xs).irqen = s.irqen := by
  rw [memWrite_eq]
@[simp] theorem memWrite_status (s : State) (a : Nat) (xs : List Byte) : (s.memWrite a xs).status = s.status := by
  rw [memWrite_eq]
@[simp] theorem memWrite_cmd (s : State) (a : Nat) (xs : List Byte) : (s.memWrite a xs).cmd = s.cmd := by
  rw [memWrite_eq]
@[simp] theorem memWrite_result (s : State) (a : Nat) (xs : List Byte) : (s.memWrite a xs).result = s.result := by
  rw [memWrite_eq]
@[simp] theorem memWrite_mprime (s : State) (a : Nat) (xs : List Byte) : (s.memWrite a xs).mprime = s.mprime := by
  rw [memWrite_eq]
@[simp] theorem memWrite_args (s : State) (a : Nat) (xs : List Byte) : (s.memWrite a xs).args = s.args := by
  rw [memWrite_eq]
@[simp] theorem memWrite_key (s : State) (a : Nat) (xs : List Byte) : (s.memWrite a xs).key = s.key := by
  rw [memWrite_eq]
@[simp] theorem memWrite_ctr (s : State) (a : Nat) (xs : List Byte) : (s.memWrite a xs).ctr = s.ctr := by
  rw [memWrite_eq]
@[simp] theorem memWrite_rk (s : State) (a : Nat) (xs : List Byte) : (s.memWrite a xs).rk = s.rk := by
  rw [memWrite_eq]
@[simp] theorem memWrite_nreg (s : State) (a : Nat) (xs : List Byte) : (s.memWrite a xs).nreg = s.nreg := by
  rw [memWrite_eq]
@[simp] theorem memWrite_bufFill (s : State) (a : Nat) (xs : List Byte) : (s.memWrite a xs).bufFill = s.bufFill := by
  rw [memWrite_eq]
@[simp] theorem memWrite_draws (s : State) (a : Nat) (xs : List Byte) : (s.memWrite a xs).draws = s.draws := by
  rw [memWrite_eq]
@[simp] theorem memWrite_sched (s : State) (a : Nat) (xs : List Byte) : (s.memWrite a xs).sched = s.sched := by
  rw [memWrite_eq]
@[simp] theorem memWrite_resp (s : State) (a : Nat) (xs : List Byte) : (s.memWrite a xs).resp = s.resp := by
  rw [memWrite_eq]

/-! ### unspecify changes `buf` and `draws` -/

@[simp] theorem unspecify_cfg (s : State) (a n : Nat) : (s.unspecify a n).cfg = s.cfg :=
  memWrite_cfg ..
@[simp] theorem unspecify_irqen (s : State) (a n : Nat) : (s.unspecify a n).irqen = s.irqen :=
  memWrite_irqen ..
@[simp] theorem unspecify_status (s : State) (a n : Nat) : (s.unspecify a n).status = s.status :=
  memWrite_status ..
@[simp] theorem unspecify_cmd (s : State) (a n : Nat) : (s.unspecify a n).cmd = s.cmd :=
  memWrite_cmd ..
@[simp] theorem unspecify_result (s : State) (a n : Nat) : (s.unspecify a n).result = s.result :=
  memWrite_result ..
@[simp] theorem unspecify_mprime (s : State) (a n : Nat) : (s.unspecify a n).mprime = s.mprime :=
  memWrite_mprime ..
@[simp] theorem unspecify_args (s : State) (a n : Nat) : (s.unspecify a n).args = s.args :=
  memWrite_args ..
@[simp] theorem unspecify_key (s : State) (a n : Nat) : (s.unspecify a n).key = s.key :=
  memWrite_key ..
@[simp] theorem unspecify_ctr (s : State) (a n : Nat) : (s.unspecify a n).ctr = s.ctr :=
  memWrite_ctr ..
@[simp] theorem unspecify_rk (s : State) (a n : Nat) : (s.unspecify a n).rk = s.rk :=
  memWrite_rk ..
@[simp] theorem unspecify_nreg (s : State) (a n : Nat) : (s.unspecify a n).nreg = s.nreg :=
  memWrite_nreg ..
@[simp] theorem unspecify_bufFill (s : State) (a n : Nat) : (s.unspecify a n).bufFill = s.bufFill :=
  memWrite_bufFill ..
@[simp] theorem unspecify_draws (s : State) (a n : Nat) : (s.unspecify a n).draws = s.draws + 1 :=
  rfl
@[simp] theorem unspecify_sched (s : State) (a n : Nat) : (s.unspecify a n).sched = s.sched :=
  memWrite_sched ..
@[simp] theorem unspecify_resp (s : State) (a n : Nat) : (s.unspecify a n).resp = s.resp :=
  memWrite_resp ..

theorem unspecify_buf (s : State) (a n : Nat) : (s.unspecify a n).buf =
    (s.memWrite a ((List.range n).map fun j => Config.freeByte s.draws (a + j))).buf := rfl

end Sys2Proof.Machine.State
end

