-- ==== Sys2Proof/Laws/Memory.lean ====
section
/-! SUPPORT. BUF: a read after a write, canonical form, what every BUF operation does (20_memory.md R76,
R77; log entry 3). -/

namespace Sys2Proof.Machine

namespace Memory

theorem get?_set (m : List Host.Cell) (a b : Nat) (x : Byte) :
    get? (set m a x) b = if b = a then some x else get? m b := by
  induction m with
  | nil => simp [set, get?]
  | cons c m ih =>
    obtain ⟨k, y⟩ := c
    by_cases h1 : a < k
    · simp [set, get?, h1]
    · by_cases h2 : a = k
      · subst h2
        simp only [set, lt_irrefl, if_false, if_true, get?]
        split <;> rfl
      · simp only [set, h1, h2, if_false, get?, ih]
        by_cases h3 : b = k
        · simp [h3, Ne.symm h2]
        · simp [h3]

theorem risesFrom_mono {l l' bd : Nat} {m : List Host.Cell} (h : l' ≤ l)
    (hm : risesFrom l bd m = true) : risesFrom l' bd m = true := by
  cases m with
  | nil => rfl
  | cons c m =>
    obtain ⟨k, y⟩ := c
    simp only [risesFrom, Bool.and_eq_true, decide_eq_true_eq] at hm ⊢
    exact ⟨⟨h.trans hm.1.1, hm.1.2⟩, hm.2⟩

/-- Storing a byte inside BUF keeps the canonical form. -/
theorem risesFrom_set {l bd : Nat} {m : List Host.Cell} {a : Nat} (x : Byte)
    (hm : risesFrom l bd m = true) (hl : l ≤ a) (hb : a < bd) : risesFrom l bd (set m a x) = true := by
  induction m generalizing l with
  | nil => simp [set, risesFrom, hl, hb]
  | cons c m ih =>
    obtain ⟨k, y⟩ := c
    simp only [risesFrom, Bool.and_eq_true, decide_eq_true_eq] at hm
    obtain ⟨⟨h1, h2⟩, h3⟩ := hm
    unfold set
    split
    · next h =>
      simp only [risesFrom, Bool.and_eq_true, decide_eq_true_eq]
      exact ⟨⟨hl, hb⟩, ⟨h, h2⟩, h3⟩
    · split
      · next h =>
        subst h
        simp only [risesFrom, Bool.and_eq_true, decide_eq_true_eq]
        exact ⟨⟨hl, hb⟩, h3⟩
      · simp only [risesFrom, Bool.and_eq_true, decide_eq_true_eq]
        exact ⟨⟨h1, h2⟩, ih h3 (by omega)⟩

theorem get?_below {l bd : Nat} {m : List Host.Cell} (hm : risesFrom l bd m = true) {a : Nat}
    (h : a < l) : get? m a = none := by
  induction m generalizing l with
  | nil => rfl
  | cons c m ih =>
    obtain ⟨k, y⟩ := c
    simp only [risesFrom, Bool.and_eq_true, decide_eq_true_eq] at hm
    have : a ≠ k := by omega
    simp only [get?, this, if_false]
    exact ih hm.2 (by omega)

/-- Two canonical lists with the same stored bytes are the same list. -/
theorem ext_of_wf {l bd : Nat} {m m' : List Host.Cell} (hm : risesFrom l bd m = true)
    (hm' : risesFrom l bd m' = true) (h : ∀ a, get? m a = get? m' a) : m = m' := by
  induction m generalizing l m' with
  | nil =>
    cases m' with
    | nil => rfl
    | cons c m' => simpa [get?] using h c.1
  | cons c m ih =>
    obtain ⟨k, y⟩ := c
    cases m' with
    | nil => simpa [get?] using h k
    | cons c' m' =>
      obtain ⟨k', y'⟩ := c'
      simp only [risesFrom, Bool.and_eq_true, decide_eq_true_eq] at hm hm'
      have hk : k = k' := by
        by_contra hne
        rcases Nat.lt_or_gt_of_ne hne with hlt | hlt
        · have := h k
          simp [get?, hne, get?_below hm'.2 (by omega : k < k' + 1)] at this
        · have := h k'
          simp [get?, Ne.symm hne, get?_below hm.2 (by omega : k' < k + 1)] at this
      subst hk
      have hy : y = y' := by simpa [get?] using h k
      subst hy
      rw [ih hm.2 hm'.2 fun a => ?_]
      by_cases ha : a = k
      · subst ha
        rw [get?_below hm.2 (Nat.lt_succ_self a), get?_below hm'.2 (Nat.lt_succ_self a)]
      · simpa [get?, ha] using h a

end Memory

namespace State

/-- A byte's value depends on `buf` and `bufFill` alone. -/
theorem bufRead_congr {s t : State} (hb : t.buf = s.buf) (hf : t.bufFill = s.bufFill) (a : Nat) :
    t.bufRead a = s.bufRead a := by
  simp [bufRead, hb, hf]

@[simp] theorem bufRead_setN (s : State) (k : RegNo) (v a : Nat) :
    (s.setN k v).bufRead a = s.bufRead a := rfl
@[simp] theorem bufRead_setDigit (s : State) (k : RegNo) (i : Nat) (w : Word) (a : Nat) :
    (s.setDigit k i w).bufRead a = s.bufRead a := rfl
@[simp] theorem bufRead_setMprime (s : State) (v : BitVec 31) (a : Nat) :
    (s.setMprime v).bufRead a = s.bufRead a := rfl
@[simp] theorem bufRead_setRk (s : State) (ws : List Word) (a : Nat) :
    (s.setRk ws).bufRead a = s.bufRead a := bufRead_congr rfl rfl a
@[simp] theorem bufRead_setCtrVal (s : State) (v a : Nat) :
    (s.setCtrVal v).bufRead a = s.bufRead a := rfl
@[simp] theorem bufRead_completeOk (s : State) (r : Word) (a : Nat) :
    (s.completeOk r).bufRead a = s.bufRead a := rfl
@[simp] theorem bufRead_errorCompletion (s : State) (c : ErrCode) (a : Nat) :
    (s.errorCompletion c).bufRead a = s.bufRead a := rfl

/-- A read after a write of one byte of BUF. -/
theorem bufRead_bufWrite (s : State) {a : Nat} (x : Byte) (b : Nat) (h : a < s.cfg.bufBytes) :
    (s.bufWrite a x).bufRead b = if b = a then x else s.bufRead b := by
  simp only [bufRead, bufWrite_buf, bufWrite_bufFill, if_pos h, Memory.get?_set]
  split <;> rfl

theorem bufRead_bufWrite_of_ne (s : State) {a b : Nat} (x : Byte) (h : b ≠ a) :
    (s.bufWrite a x).bufRead b = s.bufRead b := by
  unfold bufWrite
  split
  · simp [bufRead, Memory.get?_set, h]
  · rfl

/-- MemWrite leaves every byte outside its range alone. -/
theorem bufRead_memWrite_outside (s : State) (a : Nat) (xs : List Byte) {b : Nat}
    (h : b < a ∨ a + xs.length ≤ b) : (s.memWrite a xs).bufRead b = s.bufRead b := by
  induction xs generalizing s a with
  | nil => rfl
  | cons x xs ih =>
    simp only [List.length_cons] at h
    rw [memWrite_cons, ih _ _ (by omega), bufRead_bufWrite_of_ne _ _ (by omega)]

/-- MemWrite puts its bytes at its range: everything it does to BUF (R9). -/
theorem bufRead_memWrite (s : State) (a : Nat) (xs : List Byte) (b : Nat)
    (hin : a + xs.length ≤ s.cfg.bufBytes) :
    (s.memWrite a xs).bufRead b =
      if a ≤ b ∧ b < a + xs.length then xs.getD (b - a) 0 else s.bufRead b := by
  induction xs generalizing s a with
  | nil => simp
  | cons x xs ih =>
    simp only [List.length_cons] at hin
    rw [memWrite_cons, ih _ _ (by rw [bufWrite_cfg]; omega), bufRead_bufWrite _ _ _ (by omega)]
    by_cases h1 : b = a
    · subst h1
      simp [List.length_cons]
    · by_cases h2 : a + 1 ≤ b ∧ b < a + 1 + xs.length
      · have h3 : a ≤ b ∧ b < a + (x :: xs).length := by simp only [List.length_cons]; omega
        have h4 : b - a = (b - (a + 1)) + 1 := by omega
        rw [if_pos h2, if_pos h3, h4, List.getD_cons_succ]
      · have h3 : ¬(a ≤ b ∧ b < a + (x :: xs).length) := by simp only [List.length_cons]; omega
        rw [if_neg h2, if_neg h3, if_neg h1]

/-- The canonical form survives every MemWrite. -/
theorem memWrite_wf (s : State) (a : Nat) (xs : List Byte)
    (h : Memory.wf s.cfg.bufBytes s.buf = true) :
    Memory.wf s.cfg.bufBytes (s.memWrite a xs).buf = true := by
  induction xs generalizing s a with
  | nil => exact h
  | cons x xs ih =>
    rw [memWrite_cons]
    have := ih (s.bufWrite a x) (a + 1)
    rw [bufWrite_cfg] at this
    apply this
    rw [bufWrite_buf]
    split
    · next hlt => exact Memory.risesFrom_set x h (Nat.zero_le a) hlt
    · exact h

theorem unspecify_wf (s : State) (a n : Nat) (h : Memory.wf s.cfg.bufBytes s.buf = true) :
    Memory.wf s.cfg.bufBytes (s.unspecify a n).buf = true := memWrite_wf s a _ h

/-- What `unspecify` does to BUF: fresh free bytes in the range, the rest alone (R9). -/
theorem bufRead_unspecify (s : State) (a n b : Nat) (hin : a + n ≤ s.cfg.bufBytes) :
    (s.unspecify a n).bufRead b =
      if a ≤ b ∧ b < a + n then Config.freeByte s.draws b else s.bufRead b := by
  rw [bufRead_congr (s := s.memWrite a ((List.range n).map fun j => Config.freeByte s.draws (a + j)))
    (unspecify_buf s a n) (by simp), bufRead_memWrite _ _ _ _ (by simpa using hin)]
  simp only [List.length_map, List.length_range]
  split
  · next h =>
    have hlt : b - a < n := by omega
    rw [List.getD_eq_getElem _ _ (by simpa using hlt)]
    simp only [List.getElem_map, List.getElem_range]
    congr 1
    omega
  · rfl

@[simp] theorem memRead_length (s : State) (a n : Nat) : (s.memRead a n).length = n := by
  simp [memRead]

theorem memRead_getElem (s : State) (a n j : Nat) (h : j < (s.memRead a n).length) :
    (s.memRead a n)[j] = s.bufRead (a + j) := by
  simp [memRead]

theorem memRead_getD (s : State) {a n j : Nat} (h : j < n) :
    (s.memRead a n).getD j 0 = s.bufRead (a + j) := by
  rw [List.getD_eq_getElem _ _ (by simpa using h), memRead_getElem]

/-- MemRead depends only on the bytes of its range. -/
theorem memRead_congr {s t : State} {a n : Nat} (h : ∀ j, j < n → t.bufRead (a + j) = s.bufRead (a + j)) :
    t.memRead a n = s.memRead a n := by
  unfold memRead
  exact List.map_congr_left fun j hj => h j (List.mem_range.1 hj)

end State

end Sys2Proof.Machine
end

