-- ==== Sys2Proof/Laws/Checks.lean ====
section
/-! SUPPORT. Check lists: the first failure decides, and a failure changes nothing but RESULT and STATUS
(40_command.md R138, R139; 60_exceptions.md R274, R275). -/

namespace Sys2Proof.Machine

@[simp] theorem firstFailing_nil : firstFailing [] = none := rfl

@[simp] theorem firstFailing_cons (fails : Bool) (code : ErrCode) (rest : List (Bool × ErrCode)) :
    firstFailing ((fails, code) :: rest) = if fails then some code else firstFailing rest := rfl

/-- The model's error completion is the one the claims name. -/
theorem State.errorCompletion_eq (s : State) (code : ErrCode) : s.errorCompletion code = s.failed code := rfl

/-- The model's successful completion is the one the claims name. -/
theorem State.completeOk_eq (s : State) (r : Word) : s.completeOk r = s.succeeded r := rfl

theorem firstFailing_eq_none {cs : List (Bool × ErrCode)} :
    firstFailing cs = none ↔ ∀ c ∈ cs, c.1 = false := by
  induction cs with
  | nil => simp
  | cons c cs ih =>
    obtain ⟨b, e⟩ := c
    cases b <;> simp [ih]

theorem firstFailing_append (cs ds : List (Bool × ErrCode)) :
    firstFailing (cs ++ ds) = (firstFailing cs).or (firstFailing ds) := by
  induction cs with
  | nil => rfl
  | cons c cs ih =>
    obtain ⟨b, e⟩ := c
    cases b <;> simp [ih]

/-- No check yields the code 0. -/
theorem firstFailing_mem {cs : List (Bool × ErrCode)} {code : ErrCode}
    (h : firstFailing cs = some code) : (true, code) ∈ cs := by
  induction cs with
  | nil => simp at h
  | cons c cs ih =>
    obtain ⟨b, e⟩ := c
    cases b
    · simp only [firstFailing_cons, Bool.false_eq_true, if_false] at h
      exact List.mem_cons_of_mem _ (ih h)
    · simp only [firstFailing_cons, if_true, Option.some.injEq] at h
      subst h
      exact List.mem_cons_self

theorem State.guarded_none {s : State} {cs : List (Bool × ErrCode)} {go : Out}
    (h : firstFailing cs = none) : s.guarded cs go = go := by
  simp [State.guarded, h]

theorem State.guarded_some {s : State} {cs : List (Bool × ErrCode)} {go : Out} {code : ErrCode}
    (h : firstFailing cs = some code) : s.guarded cs go = .next (s.errorCompletion code) := by
  simp [State.guarded, h]

/-- Everything a guarded command can do: fail on its first failing check, or go on. -/
theorem State.guarded_cases (s : State) (cs : List (Bool × ErrCode)) (go : Out) :
    (∃ code, firstFailing cs = some code ∧ s.guarded cs go = .next (s.errorCompletion code)) ∨
      firstFailing cs = none ∧ s.guarded cs go = go := by
  cases h : firstFailing cs with
  | none => exact .inr ⟨rfl, guarded_none h⟩
  | some code => exact .inl ⟨code, rfl, guarded_some h⟩

end Sys2Proof.Machine
end

