-- ==== Sys2Proof/Laws/Numbers.lean ====
section
/-! SUPPORT. Digits, lengths, byte strings: the exactness laws (00_scope.md R8, R9; 41_bigint_datapath.md
R150, R155, R160). -/

namespace Sys2Proof.Machine

/-! ### Digits -/

theorem digitsVal_lt (ds : List Digit) : digitsVal ds < radix ^ ds.length := by
  induction ds with
  | nil => simp [digitsVal]
  | cons d ds ih =>
    have hd : d.toNat < radix := d.isLt
    simp only [digitsVal, List.length_cons, pow_succ]
    calc d.toNat + radix * digitsVal ds < radix + radix * digitsVal ds := by omega
      _ = radix * (digitsVal ds + 1) := by ring
      _ ≤ radix * radix ^ ds.length := Nat.mul_le_mul_left _ ih
      _ = radix ^ ds.length * radix := by ring

@[simp] theorem toDigits_length (n v : Nat) : (toDigits n v).length = n := by
  induction n generalizing v with
  | zero => rfl
  | succ n ih => simp [toDigits, ih]

/-- Writing v into n digits keeps v modulo b^n (R8). -/
theorem digitsVal_toDigits (n v : Nat) : digitsVal (toDigits n v) = v % radix ^ n := by
  induction n generalizing v with
  | zero => simp [digitsVal, toDigits, Nat.mod_one]
  | succ n ih =>
    have h : (BitVec.ofNat 31 (v % radix)).toNat = v % radix := by
      rw [BitVec.toNat_ofNat, Nat.mod_mod]
    rw [toDigits, digitsVal, ih, h, pow_succ, Nat.mul_comm (radix ^ n) radix, Nat.mod_mul]

namespace State

theorem nval_lt {s : State} (h : s.Inv) (k : RegNo) : s.nval k < radix ^ s.cfg.lMax := by
  have := digitsVal_lt s.nreg[k]
  rwa [h.nregLength k] at this

/-- A BigNum register reads as it was written, modulo b^L_MAX; the others are untouched. -/
theorem nval_setN (s : State) (k j : RegNo) (v : Nat) :
    (s.setN k v).nval j = if j = k then v % radix ^ s.cfg.lMax else s.nval j := by
  unfold nval
  by_cases h : j = k
  · subst h
    simp [digitsVal_toDigits]
  · have : k.val ≠ j.val := fun e => h (Fin.ext e.symm)
    simp [h, this]

theorem nreg_setN_self (s : State) (k : RegNo) (v : Nat) :
    (s.setN k v).nreg[k] = toDigits s.cfg.lMax v := by simp

end State

/-! ### Lengths -/

theorem bitlen_zero : bitlen 0 = 0 := rfl

theorem lt_pow_bitlen (v : Nat) : v < 2 ^ bitlen v := by
  unfold bitlen
  split
  · next h => simp [h]
  · exact Nat.lt_log2_self

theorem pow_bitlen_le {v : Nat} (h : v ≠ 0) : 2 ^ (bitlen v - 1) ≤ v := by
  simpa [bitlen, h] using Nat.log2_self_le h

theorem bitlen_pos {v : Nat} (h : v ≠ 0) : 0 < bitlen v := by simp [bitlen, h]

theorem bitlen_le_iff (v n : Nat) : bitlen v ≤ n ↔ v < 2 ^ n := by
  constructor
  · intro h
    exact (lt_pow_bitlen v).trans_le (Nat.pow_le_pow_right (by norm_num) h)
  · intro h
    by_contra hc
    have hv : v ≠ 0 := by rintro rfl; simp [bitlen] at hc
    have h1 := pow_bitlen_le hv
    have h2 : 2 ^ n ≤ 2 ^ (bitlen v - 1) := Nat.pow_le_pow_right (by norm_num) (by omega)
    omega

theorem len_le_iff (v n : Nat) : len v ≤ n ↔ v < radix ^ n := by
  have : radix ^ n = 2 ^ (31 * n) := by rw [← pow_mul]
  rw [this, ← bitlen_le_iff]
  unfold len
  omega

theorem lt_pow_len (v : Nat) : v < radix ^ len v := (len_le_iff v _).1 le_rfl

theorem nbytes_le_iff (v n : Nat) : nbytes v ≤ n ↔ v < 256 ^ n := by
  have : (256 : Nat) ^ n = 2 ^ (8 * n) := by rw [pow_mul]; norm_num
  rw [this, ← bitlen_le_iff]
  unfold nbytes
  omega

theorem lt_pow_nbytes (v : Nat) : v < 256 ^ nbytes v := (nbytes_le_iff v _).1 le_rfl

/-- USED is len of the value (R32): the least length that holds it. -/
theorem usedDigits_eq_len (ds : List Digit) : usedDigits ds = len (digitsVal ds) := by
  have key : ∀ ds : List Digit, ∀ n, usedDigits ds ≤ n ↔ digitsVal ds < radix ^ n := by
    intro ds
    induction ds with
    | nil => intro n; simp [usedDigits, digitsVal]
    | cons d ds ih =>
      intro n
      have hd : d.toNat < radix := d.isLt
      have h0 : usedDigits ds = 0 ↔ digitsVal ds = 0 := by
        have := ih 0
        simp only [pow_zero, Nat.le_zero, Nat.lt_one_iff] at this
        exact this
      have hd0 : d = 0 ↔ d.toNat = 0 := by
        rw [← BitVec.toNat_inj]; simp
      cases n with
      | zero =>
        simp only [usedDigits, digitsVal, h0, hd0, Nat.le_zero, pow_zero, Nat.lt_one_iff]
        have hr : radix = 2147483648 := by norm_num [radix]
        rw [hr]
        split <;> omega
      | succ n =>
        have hn := ih n
        have e : digitsVal (d :: ds) < radix ^ (n + 1) ↔ digitsVal ds < radix ^ n := by
          simp only [digitsVal, pow_succ]
          constructor
          · intro h
            by_contra hc
            have : radix * radix ^ n ≤ radix * digitsVal ds := Nat.mul_le_mul_left _ (by omega)
            have e2 : radix ^ n * radix = radix * radix ^ n := by ring
            omega
          · intro h
            have : radix * (digitsVal ds + 1) ≤ radix * radix ^ n := Nat.mul_le_mul_left _ h
            have e2 : radix ^ n * radix = radix * radix ^ n := by ring
            have e3 : radix * (digitsVal ds + 1) = radix * digitsVal ds + radix := by ring
            omega
        rw [e, ← hn]
        simp only [usedDigits]
        split
        · next h => omega
        · omega
  apply Nat.le_antisymm
  · exact (key ds _).2 (lt_pow_len _)
  · exact (len_le_iff _ _).2 ((key ds _).1 le_rfl)

/-! ### Exponent bits -/

theorem foldl_range_bits (e : Nat) (n : Nat) :
    ((List.range n).reverse.map e.testBit).foldl (fun p b => 2 * p + b.toNat) (e / 2 ^ n) = e := by
  induction n with
  | zero => simp
  | succ n ih =>
    rw [List.range_succ, List.reverse_append]
    simp only [List.reverse_cons, List.reverse_nil, List.nil_append, List.map_append, List.map_cons,
      List.map_nil, List.foldl_append, List.foldl_cons, List.foldl_nil]
    have h : 2 * (e / 2 ^ (n + 1)) + (e.testBit n).toNat = e / 2 ^ n := by
      rw [Nat.testBit_eq_decide_div_mod_eq, pow_succ, ← Nat.div_div_eq_div_mul]
      rcases Nat.mod_two_eq_zero_or_one (e / 2 ^ n) with h | h <;> simp [h] <;> omega
    rw [h, ih]

/-- The bits of e, most significant first, make e (R158). -/
theorem foldl_ebits (e : Nat) : (ebits e).foldl (fun p b => 2 * p + b.toNat) 0 = e := by
  have := foldl_range_bits e (bitlen e)
  rwa [Nat.div_eq_of_lt (lt_pow_bitlen e)] at this

@[simp] theorem ebits_length (e : Nat) : (ebits e).length = bitlen e := by simp [ebits]

/-! ### Byte strings -/

theorem foldl_beVal (s : List Byte) (v : Nat) :
    s.foldl (fun v x => v * 256 + x.toNat) v = v * 256 ^ s.length + beVal s := by
  induction s generalizing v with
  | nil => simp [beVal]
  | cons x s ih =>
    have h := ih (0 * 256 + x.toNat)
    have e : beVal (x :: s) = s.foldl (fun v x => v * 256 + x.toNat) (0 * 256 + x.toNat) := rfl
    rw [List.foldl_cons, List.length_cons, ih, e, h, pow_succ]
    ring

theorem beVal_cons (x : Byte) (s : List Byte) : beVal (x :: s) = x.toNat * 256 ^ s.length + beVal s := by
  conv_lhs => unfold beVal
  rw [List.foldl_cons, foldl_beVal]
  simp

@[simp] theorem beVal_nil : beVal [] = 0 := rfl

theorem beVal_lt (s : List Byte) : beVal s < 256 ^ s.length := by
  induction s with
  | nil => simp
  | cons x s ih =>
    have hx : x.toNat + 1 ≤ 256 := x.isLt
    rw [beVal_cons, List.length_cons, pow_succ]
    calc x.toNat * 256 ^ s.length + beVal s < x.toNat * 256 ^ s.length + 256 ^ s.length := by omega
      _ = (x.toNat + 1) * 256 ^ s.length := by ring
      _ ≤ 256 * 256 ^ s.length := Nat.mul_le_mul_right _ hx
      _ = 256 ^ s.length * 256 := by ring

@[simp] theorem beBytes_length (v n : Nat) : (beBytes v n).length = n := by
  induction n with
  | zero => rfl
  | succ n ih => simp [beBytes, ih]

/-- BE(BEbytes(v, n)) = v mod 256^n (R9). -/
theorem beVal_beBytes (v n : Nat) : beVal (beBytes v n) = v % 256 ^ n := by
  induction n with
  | zero => simp [beBytes, Nat.mod_one]
  | succ n ih =>
    rw [beBytes, beVal_cons, ih, beBytes_length, BitVec.toNat_ofNat]
    have h256 : (2 : Nat) ^ 8 = 256 := by norm_num
    rw [h256, pow_succ, Nat.mod_mul (a := 256 ^ n) (b := 256), Nat.mul_comm, Nat.add_comm]

/-- A byte string is the image of its value (R9). -/
theorem beBytes_beVal (s : List Byte) (n : Nat) (h : s.length = n) : beBytes (beVal s) n = s := by
  have low : ∀ (u v n : Nat), u % 256 ^ n = v % 256 ^ n → beBytes u n = beBytes v n := by
    intro u v n
    induction n with
    | zero => intro _; rfl
    | succ n ih =>
      intro h
      rw [pow_succ, Nat.mod_mul (a := 256 ^ n), Nat.mod_mul (a := 256 ^ n)] at h
      have h1 : u % 256 ^ n = v % 256 ^ n := by
        have a := congrArg (· % 256 ^ n) h
        simpa [Nat.add_mul_mod_self_left] using a
      have h2 : u / 256 ^ n % 256 = v / 256 ^ n % 256 := by
        have a := congrArg (· / 256 ^ n) h
        have hp : 0 < 256 ^ n := by positivity
        simpa [Nat.add_mul_div_left _ _ hp, Nat.div_eq_of_lt (Nat.mod_lt u hp),
          Nat.div_eq_of_lt (Nat.mod_lt v hp)] using a
      rw [beBytes, beBytes, ih h1]
      congr 1
      apply BitVec.eq_of_toNat_eq
      simpa using h2
  induction s generalizing n with
  | nil => subst h; rfl
  | cons x s ih =>
    subst h
    rw [List.length_cons, beBytes, beVal_cons]
    have hp : 0 < 256 ^ s.length := by positivity
    have hd : (x.toNat * 256 ^ s.length + beVal s) / 256 ^ s.length = x.toNat := by
      rw [Nat.mul_comm, Nat.mul_add_div hp, Nat.div_eq_of_lt (beVal_lt s), Nat.add_zero]
    rw [hd, low _ (beVal s) s.length (by simp), ih _ rfl]
    congr 1
    simp

/-! ### Swizzle -/

@[simp] theorem swizzle_length (s : List Byte) (g : Nat) : (swizzle s g).length = s.length := by
  simp [swizzle]

@[simp] theorem swizzleBy_length (g : Nat) (s : List Byte) : (swizzleBy g s).length = s.length := by
  unfold swizzleBy
  split <;> simp

/-- Every place of a whole group is inside the string. -/
theorem swizzle_place_lt {n g p : Nat} (hg : 0 < g) (hn : n % g = 0) (hp : p < n) :
    p / g * g + (g - 1 - p % g) < n := by
  have h1 := Nat.div_add_mod p g
  have h2 := Nat.mod_lt p hg
  have h3 := Nat.div_add_mod n g
  have h4 : p / g < n / g := by
    by_contra hc
    have : g * (n / g) ≤ g * (p / g) := Nat.mul_le_mul_left _ (by omega)
    omega
  have h5 : g * (p / g + 1) ≤ g * (n / g) := Nat.mul_le_mul_left _ h4
  have h6 : g * (p / g + 1) = g * (p / g) + g := by ring
  have h7 : p / g * g = g * (p / g) := by ring
  omega

theorem swizzle_getD (s : List Byte) (g p : Nat) (h : p < s.length) :
    (swizzle s g).getD p 0 = s.getD (p / g * g + (g - 1 - p % g)) 0 := by
  rw [List.getD_eq_getElem _ _ (by simpa using h)]
  simp [swizzle]

/-- swz is an involution on whole groups (R160). -/
theorem swizzle_swizzle (s : List Byte) (g : Nat) (hg : 0 < g) (hn : s.length % g = 0) :
    swizzle (swizzle s g) g = s := by
  apply List.ext_getElem (by simp)
  intro p h1 h2
  have e : (swizzle (swizzle s g) g).getD p 0 = s.getD p 0 := by
    have hp : p < s.length := h2
    have hq := swizzle_place_lt hg hn hp
    rw [swizzle_getD _ _ _ (by simpa using hp), swizzle_getD _ _ _ hq]
    have hm := Nat.mod_lt p hg
    have hd : (p / g * g + (g - 1 - p % g)) / g = p / g := by
      have hlt : g - 1 - p % g < g := by omega
      rw [Nat.mul_comm, Nat.mul_add_div hg, Nat.div_eq_of_lt hlt, Nat.add_zero]
    have hr : (p / g * g + (g - 1 - p % g)) % g = g - 1 - p % g := by
      rw [Nat.mul_add_mod', Nat.mod_eq_of_lt (by omega)]
    rw [hd, hr]
    congr 1
    have := Nat.div_add_mod p g
    have : p / g * g = g * (p / g) := by ring
    omega
  rwa [List.getD_eq_getElem _ _ h1, List.getD_eq_getElem _ _ h2] at e

/-- Swizzling twice by a legal size gives the string back. -/
theorem swizzleBy_swizzleBy (s : List Byte) (g : Nat) (h : g = 0 ∨ s.length % g = 0) :
    swizzleBy g (swizzleBy g s) = s := by
  by_cases hg : g = 0
  · simp [swizzleBy, hg]
  · rcases h with h | h
    · exact absurd h hg
    · simp [swizzleBy, hg, swizzle_swizzle s g (Nat.pos_of_ne_zero hg) h]

end Sys2Proof.Machine
end

