-- ==== Sys2Proof/Laws/Aes.lean ====
section
/-! SUPPORT. Shapes of the AES values: 16-byte states, 60 schedule words, and the key-expansion recurrence
(44_aes.md R230, R231, R240). -/

namespace Sys2Proof.Machine

@[simp] theorem subBytes_length (s : List Byte) : (subBytes s).length = s.length := by simp [subBytes]

@[simp] theorem shiftRows_length (s : List Byte) : (shiftRows s).length = 16 := by simp [shiftRows]

@[simp] theorem mixColumns_length (s : List Byte) : (mixColumns s).length = s.length := by
  induction s using mixColumns.induct with
  | case1 s0 s1 s2 s3 rest ih => simp [mixColumns, mixColumn, ih]
  | case2 s h =>
    unfold mixColumns
    split
    · next a b c d r => exact (h a b c d r rfl).elim
    · rfl

theorem keyWords_length (key : List Word) (n : Nat) : (keyWords key n).length = key.length + n := by
  induction n with
  | zero => rfl
  | succ n ih => simp [keyWords, ih]; omega

theorem keyExpand_length (key : List Word) : (keyExpand key).length = key.length + 52 := by
  unfold keyExpand
  exact keyWords_length key 52

@[simp] theorem schedule_length (s : State) : s.schedule.length = 60 := by
  simp [State.schedule, keyExpand_length]

/-- A round key inside the schedule has 16 bytes (R237). -/
theorem roundKey_length {w : List Word} {k : Nat} (h : 4 * k + 4 ≤ w.length) :
    (roundKey w k).length = 16 := by
  have hl : ((w.drop (4 * k)).take 4).length = 4 := by simp; omega
  match hw : (w.drop (4 * k)).take 4, hl with
  | [a, b, c, d], _ => simp [roundKey, hw, wordBytesBE]

theorem addRoundKey_length {w : List Word} {k : Nat} {s : List Byte} (h : 4 * k + 4 ≤ w.length)
    (hs : s.length = 16) : (addRoundKey w k s).length = 16 := by
  simp [addRoundKey, roundKey_length h, hs]

/-- The cipher's output is a 16-byte block (R245). -/
theorem aesEnc_length {w : List Word} (hw : w.length = 60) (s : List Byte) : (aesEnc w s).length = 16 := by
  unfold aesEnc
  exact addRoundKey_length (by omega) (by simp)

/-- A schedule word does not change when later words are made. -/
theorem keyWords_getD_stable (key : List Word) {n i k : Nat} (h : i < key.length + n) :
    (keyWords key (n + k)).getD i 0 = (keyWords key n).getD i 0 := by
  induction k with
  | zero => rfl
  | succ k ih =>
    rw [← ih, ← Nat.add_assoc, keyWords, List.getD_append _ _ _ _ (by rw [keyWords_length]; omega)]

/-- The key-expansion recurrence over the finished schedule (R240). -/
theorem keyExpand_getD (key : List Word) (hk : key.length = 8) (i : Nat) (h1 : 8 ≤ i) (h2 : i < 60) :
    (keyExpand key).getD i 0 = keyWord (keyExpand key) i := by
  unfold keyExpand
  obtain ⟨n, rfl⟩ : ∃ n, i = n + 8 := ⟨i - 8, by omega⟩
  obtain ⟨k, hk2⟩ : ∃ k, 52 = (n + 1) + k := ⟨51 - n, by omega⟩
  rw [hk2, keyWords_getD_stable key (by omega : n + 8 < key.length + (n + 1))]
  have e : ∀ j, j < n + 8 → (keyWords key (n + 1 + k)).getD j 0 = (keyWords key n).getD j 0 := by
    intro j hj
    rw [Nat.add_assoc, keyWords_getD_stable key (by omega)]
  have hl : (keyWords key n).length = n + 8 := by rw [keyWords_length, hk]; omega
  rw [keyWords, List.getD_append_right _ _ _ _ (by omega), hl]
  simp only [Nat.sub_self, List.getD_cons_zero]
  unfold keyWord
  rw [e _ (by omega), e _ (by omega)]

theorem keyExpand_getD_key (key : List Word) (hk : key.length = 8) (i : Nat) (h : i < 8) :
    (keyExpand key).getD i 0 = key.getD i 0 := by
  unfold keyExpand
  have := keyWords_getD_stable key (n := 0) (k := 52) (i := i) (by omega)
  rw [Nat.zero_add] at this
  exact this

/-- RKi is schedule word i. -/
theorem rkWords_getElem (ws : List Word) (i : Fin 60) : (rkWords ws)[i] = ws.getD i 0 := by
  unfold rkWords
  simp

end Sys2Proof.Machine
end

