-- ==== Sys2Proof/Laws/Montgomery.lean ====
section
/-! SUPPORT. What MINV's inverse, MM and ME compute (42_montgomery.md R181, R187, R190-R196). -/

namespace Sys2Proof.Machine

/-! ### The Montgomery inverse digit -/

theorem negInvBits_spec {m : Nat} (hm : m % 2 = 1) (k : Nat) :
    negInvBits m k < 2 ^ k ∧ (m * negInvBits m k + 1) % 2 ^ k = 0 := by
  induction k with
  | zero => simp [negInvBits]
  | succ k ih =>
    obtain ⟨h1, h2⟩ := ih
    simp only [negInvBits]
    have hp : 2 ^ (k + 1) = 2 ^ k * 2 := pow_succ 2 k
    split
    · next h => exact ⟨by omega, h⟩
    · next h =>
      refine ⟨by omega, ?_⟩
      obtain ⟨q, hq⟩ := Nat.dvd_of_mod_eq_zero h2
      have hodd : q % 2 = 1 := by
        by_contra hc
        have : q = 2 * (q / 2) := by omega
        apply h
        rw [hq, hp, this, ← Nat.mul_assoc]
        exact Nat.mul_mod_right _ _
      have e : m * (negInvBits m k + 2 ^ k) + 1 = 2 ^ k * (q + m) := by
        rw [Nat.mul_add, Nat.add_right_comm, hq]; ring
      rw [e, hp, Nat.mul_mod_mul_left]
      have : (q + m) % 2 = 0 := by omega
      rw [this, Nat.mul_zero]

/-- The value MINV writes solves R181's equation. -/
theorem montInverse_spec {m : Nat} (hm : m % 2 = 1) :
    montInverse m < radix ∧ (m * montInverse m + 1) % radix = 0 := by
  unfold montInverse
  exact negInvBits_spec hm 31

/-- An odd m is coprime to b; so is every m with an m'. -/
theorem coprime_radix {m mp : Nat} (h : (m * mp + 1) % radix = 0) (k : Nat) :
    Nat.Coprime (radix ^ k) m := by
  have h2 : ¬ 2 ∣ m := by
    intro hd
    have h3 : 2 ∣ m * mp + 1 := (Dvd.intro_left (2 ^ 30) (by norm_num)).trans (Nat.dvd_of_mod_eq_zero h)
    have h4 : 2 ∣ m * mp := hd.mul_right mp
    omega
  have h5 : Nat.Coprime 2 m := (Nat.Prime.coprime_iff_not_dvd Nat.prime_two).2 h2
  exact Nat.Coprime.pow_left _ (Nat.Coprime.pow_left _ h5)

/-- At most one digit solves R181's equation. -/
theorem mprime_unique {m u v : Nat} (hu : u < radix) (hv : v < radix)
    (h1 : (m * u + 1) % radix = 0) (h2 : (m * v + 1) % radix = 0) : u = v := by
  have hc : Nat.Coprime radix m := by simpa using coprime_radix h1 1
  have e : m * u ≡ m * v [MOD radix] := by
    apply Nat.ModEq.add_right_cancel' 1
    exact h1.trans h2.symm
  exact (Nat.ModEq.cancel_left_of_coprime hc e).eq_of_lt_of_lt hu hv

/-! ### MM -/

/-- One iteration of R185: the division by b is exact (R187 a). -/
theorem mmStep_exact {x y m mp i a : Nat} (h : (m * mp + 1) % radix = 0) :
    ∃ u, u < radix ∧ mmStep x y m mp i a * radix = a + x / radix ^ i % radix * y + u * m := by
  set xi := x / radix ^ i % radix with hxi
  set t := (a % radix + xi * (y % radix)) % radix with ht
  refine ⟨t * mp % radix, Nat.mod_lt _ (by positivity), ?_⟩
  have hz : (a + xi * y + t * mp % radix * m) % radix = 0 := by
    have e1 : a + xi * y ≡ t [MOD radix] := by
      rw [ht]
      refine Nat.ModEq.trans ?_ (Nat.mod_modEq _ _).symm
      exact Nat.ModEq.add (Nat.mod_modEq _ _).symm (Nat.ModEq.mul_left _ (Nat.mod_modEq _ _).symm)
    have e2 : t * mp % radix * m ≡ t * mp * m [MOD radix] := Nat.ModEq.mul_right _ (Nat.mod_modEq _ _)
    have e3 : a + xi * y + t * mp % radix * m ≡ t * (m * mp + 1) [MOD radix] := by
      refine (e1.add e2).trans ?_
      have : t + t * mp * m = t * (m * mp + 1) := by ring
      rw [this]
    have e4 : t * (m * mp + 1) ≡ 0 [MOD radix] := by
      have : m * mp + 1 ≡ 0 [MOD radix] := h
      simpa using this.mul_left t
    exact e3.trans e4
  exact Nat.div_mul_cancel (Nat.dvd_of_mod_eq_zero hz)

/-- The loop of R185 after n iterations: below 2m, and a * b^n = (x mod b^n) * y modulo m (R187 b, c). -/
theorem mmLoop_spec {x y m mp : Nat} (h : (m * mp + 1) % radix = 0) (hy : y < m) (n : Nat) :
    mmLoop x y m mp n < 2 * m ∧
      mmLoop x y m mp n * radix ^ n ≡ x % radix ^ n * y [MOD m] := by
  induction n with
  | zero => simp [mmLoop, Nat.mod_one, Nat.ModEq]; omega
  | succ n ih =>
    obtain ⟨h1, h2⟩ := ih
    obtain ⟨u, hu, he⟩ := mmStep_exact (x := x) (y := y) (i := n) (a := mmLoop x y m mp n) h
    have hxi : x / radix ^ n % radix < radix := Nat.mod_lt _ (by positivity)
    rw [mmLoop]
    generalize mmStep x y m mp n (mmLoop x y m mp n) = a' at he ⊢
    generalize mmLoop x y m mp n = a at h1 h2 he
    constructor
    · by_contra hc
      have e1 : 2 * m * radix ≤ a' * radix := Nat.mul_le_mul_right _ (by omega)
      have e2 : x / radix ^ n % radix * y ≤ (radix - 1) * m :=
        Nat.mul_le_mul (by omega) (by omega)
      have e3 : u * m ≤ (radix - 1) * m := Nat.mul_le_mul_right _ (by omega)
      have e4 : (radix - 1) * m + m = radix * m := by
        rw [← Nat.succ_mul]; rfl
      have e5 : 2 * m * radix = 2 * (radix * m) := by ring
      omega
    · have e1 : a' * radix ^ (n + 1) = a * radix ^ n + x / radix ^ n % radix * radix ^ n * y +
          m * (u * radix ^ n) := by
        rw [pow_succ, Nat.mul_comm (radix ^ n), ← Nat.mul_assoc, he]; ring
      have e2 : x % radix ^ (n + 1) = x % radix ^ n + x / radix ^ n % radix * radix ^ n := by
        rw [pow_succ, Nat.mod_mul]; ring
      rw [e1, e2, Nat.add_mul]
      have e3 : m * (u * radix ^ n) ≡ 0 [MOD m] := (Nat.modEq_zero_iff_dvd).2 (Dvd.intro _ rfl)
      simpa using (h2.add_right _).add e3

/-- MM is the Montgomery product (R187 c). -/
theorem mm_spec {x y m mp : Nat} (h : (m * mp + 1) % radix = 0) (hx : x < m) (hy : y < m) :
    mm x y m mp < m ∧ mm x y m mp * montR m ≡ x * y [MOD m] := by
  obtain ⟨h1, h2⟩ := mmLoop_spec (x := x) h hy (len m)
  have hxm : x % radix ^ len m = x := Nat.mod_eq_of_lt (hx.trans (lt_pow_len m))
  rw [hxm] at h2
  unfold mm montR
  simp only
  split
  · next hle =>
    refine ⟨by omega, ?_⟩
    refine Nat.ModEq.trans ?_ h2
    apply Nat.ModEq.mul_right
    exact ((Nat.modEq_iff_dvd' (Nat.sub_le _ _)).2 (by simp [Nat.sub_sub_self hle]))
  · next hle => exact ⟨by omega, h2⟩

theorem mmLoop_zero (y m mp n : Nat) : mmLoop 0 y m mp n = 0 := by
  induction n with
  | zero => rfl
  | succ n ih => simp [mmLoop, mmStep, ih]

/-- MM of 0 is 0, for every y (R196's case m = 1 among them). -/
theorem mm_zero (y m mp : Nat) : mm 0 y m mp = 0 := by
  simp [mm, mmLoop_zero]

/-! ### ME -/

section
variable {m mp : Nat}

/-- The image of MM in the integers modulo m: x * y * R^-1. -/
theorem mm_cast {x y : Nat} (h : (m * mp + 1) % radix = 0) (hx : x < m) (hy : y < m) :
    ((mm x y m mp : Nat) : ZMod m) = x * y * (montR m : ZMod m)⁻¹ := by
  have e := (ZMod.natCast_eq_natCast_iff _ _ _).2 (mm_spec h hx hy).2
  have hu : (montR m : ZMod m) * (montR m : ZMod m)⁻¹ = 1 :=
    ZMod.coe_mul_inv_eq_one _ (coprime_radix h _)
  push_cast at e
  calc ((mm x y m mp : Nat) : ZMod m)
      = (mm x y m mp : ZMod m) * ((montR m : ZMod m) * (montR m : ZMod m)⁻¹) := by rw [hu, mul_one]
    _ = x * y * (montR m : ZMod m)⁻¹ := by rw [← mul_assoc, e]

theorem meStep_lt {xbar a : Nat} (h : (m * mp + 1) % radix = 0) (hb : xbar < m) (ha : a < m) (bit : Bool) :
    meStep xbar m mp a bit < m := by
  unfold meStep
  have h1 := (mm_spec h ha ha).1
  cases bit
  · exact h1
  · exact (mm_spec h h1 hb).1

theorem foldl_bits_from (bits : List Bool) (p : Nat) :
    bits.foldl (fun p b => 2 * p + b.toNat) p =
      p * 2 ^ bits.length + bits.foldl (fun p b => 2 * p + b.toNat) 0 := by
  induction bits generalizing p with
  | nil => simp
  | cons b bits ih =>
    simp only [List.foldl_cons, List.length_cons]
    rw [ih, ih (2 * 0 + b.toNat), pow_succ]
    ring

/-- The ladder over a list of bits (R190 step 3): it stays below m, and out of Montgomery form it raises
the start to 2^length and multiplies by x-bar to the bits' number (R193, R194). -/
theorem ladder_spec {xbar : Nat} (h : (m * mp + 1) % radix = 0) (hb : xbar < m) (bits : List Bool) :
    ∀ a : Nat, a < m → bits.foldl (meStep xbar m mp) a < m ∧
      ((bits.foldl (meStep xbar m mp) a : Nat) : ZMod m) * (montR m : ZMod m)⁻¹ =
        (a * (montR m : ZMod m)⁻¹) ^ 2 ^ bits.length *
          (xbar * (montR m : ZMod m)⁻¹) ^ bits.foldl (fun p b => 2 * p + b.toNat) 0 := by
  induction bits with
  | nil => intro a ha; exact ⟨ha, by simp⟩
  | cons b bits ih =>
    intro a ha
    obtain ⟨h1, h2⟩ := ih _ (meStep_lt h hb ha b)
    refine ⟨h1, ?_⟩
    have hs : ((meStep xbar m mp a b : Nat) : ZMod m) * (montR m : ZMod m)⁻¹ =
        (a * (montR m : ZMod m)⁻¹) ^ 2 * (xbar * (montR m : ZMod m)⁻¹) ^ b.toNat := by
      have hsq := mm_cast h ha ha
      cases b
      · simp only [meStep, Bool.false_eq_true, if_false, hsq, Bool.toNat_false, pow_zero]
        ring
      · simp only [meStep, if_true, mm_cast h (mm_spec h ha ha).1 hb, hsq, Bool.toNat_true]
        ring
    rw [List.foldl_cons, h2, hs, List.foldl_cons, foldl_bits_from bits (2 * 0 + b.toNat),
      List.length_cons]
    generalize (montR m : ZMod m)⁻¹ = ρ
    generalize (xbar * ρ : ZMod m) = c
    generalize (a * ρ : ZMod m) = d
    rw [mul_pow, ← pow_mul, ← pow_mul, pow_add, pow_succ 2, Nat.mul_zero, Nat.zero_add]
    ring

/-- ME in the integers modulo m, whatever the residues are (R194). -/
theorem me_cast {x e rm rr : Nat} (h : (m * mp + 1) % radix = 0) (hx : x < m) (hm : rm < m) (hr : rr < m) :
    me x e m mp rm rr < m ∧ ((me x e m mp rm rr : Nat) : ZMod m) =
      (rm * (montR m : ZMod m)⁻¹) ^ 2 ^ bitlen e *
        (x * rr * (montR m : ZMod m)⁻¹ * (montR m : ZMod m)⁻¹) ^ e := by
  have hxb := mm_spec h hx hr
  obtain ⟨h1, h2⟩ := ladder_spec h hxb.1 (ebits e) rm hm
  rw [ebits_length, foldl_ebits, mm_cast h hx hr] at h2
  unfold me
  by_cases h1m : m = 1
  · subst h1m
    have hz : (ebits e).foldl (meStep (mm x rr 1 mp) 1 mp) rm = 0 := by omega
    rw [hz, mm_zero]
    exact ⟨by norm_num, Subsingleton.elim _ _⟩
  · have hone : 1 < m := by omega
    refine ⟨(mm_spec h h1 hone).1, ?_⟩
    rw [mm_cast h h1 hone, Nat.cast_one, mul_one, h2]

/-- ME with R mod m and R^2 mod m is modular exponentiation (R193). -/
theorem me_spec {x e : Nat} (h : (m * mp + 1) % radix = 0) (hx : x < m) :
    me x e m mp (montR m % m) (montR m ^ 2 % m) = x ^ e % m := by
  have hpos : 0 < m := by omega
  obtain ⟨h1, h2⟩ := me_cast (e := e) h hx (Nat.mod_lt (montR m) hpos) (Nat.mod_lt (montR m ^ 2) hpos)
  have hu : (montR m : ZMod m) * (montR m : ZMod m)⁻¹ = 1 :=
    ZMod.coe_mul_inv_eq_one _ (coprime_radix h _)
  have h3 : ((me x e m mp (montR m % m) (montR m ^ 2 % m) : Nat) : ZMod m) = ((x ^ e : Nat) : ZMod m) := by
    rw [h2, ZMod.natCast_mod, ZMod.natCast_mod, hu, one_pow, one_mul]
    push_cast
    congr 1
    calc (x : ZMod m) * (montR m : ZMod m) ^ 2 * (montR m : ZMod m)⁻¹ * (montR m : ZMod m)⁻¹
        = x * ((montR m : ZMod m) * (montR m : ZMod m)⁻¹) * ((montR m : ZMod m) * (montR m : ZMod m)⁻¹) := by
          ring
      _ = x := by rw [hu]; ring
  have h4 := (ZMod.natCast_eq_natCast_iff _ _ _).1 h3
  exact (Nat.mod_eq_of_lt h1).symm.trans h4

end

end Sys2Proof.Machine
end

