-- ==== Sys2Proof/Laws/Exec.lean ====
section
/-! SUPPORT. What each command's meaning can do: its loops change only BUF, and it ends in the error
completion of its first failing check or in its own effect (40_command.md R133, R139). -/

namespace Sys2Proof.Machine

/-- `t` is `s` with another BUF, still canonical, the same outside [a, a+n). -/
structure State.BufStep (s t : State) (a n : Nat) : Prop where
  only : t = { s with buf := t.buf }
  wf : Memory.wf s.cfg.bufBytes s.buf = true → Memory.wf s.cfg.bufBytes t.buf = true
  outside : s.SameBytesOutside t a n

namespace State.BufStep

theorem refl (s : State) (a n : Nat) : s.BufStep s a n := ⟨rfl, id, fun _ _ => rfl⟩

theorem trans {s t u : State} {a n : Nat} (h : s.BufStep t a n) (h' : t.BufStep u a n) :
    s.BufStep u a n := by
  refine ⟨?_, fun hw => ?_, fun x hx => (h'.outside x hx).trans (h.outside x hx)⟩
  · rw [h'.only, h.only]
  · have hc : t.cfg = s.cfg := by rw [h.only]
    have := h'.wf
    rw [hc] at this
    exact this (h.wf hw)

theorem mono {s t : State} {a n a' n' : Nat} (h : s.BufStep t a n) (h1 : a' ≤ a) (h2 : a + n ≤ a' + n') :
    s.BufStep t a' n' :=
  ⟨h.only, h.wf, fun x hx => h.outside x (by omega)⟩

theorem memWrite (s : State) (a : Nat) (xs : List Byte) : s.BufStep (s.memWrite a xs) a xs.length :=
  ⟨State.memWrite_eq s a xs, State.memWrite_wf s a xs, fun _ hx => State.bufRead_memWrite_outside s a xs hx⟩

theorem bufWrite (s : State) (a : Nat) (x : Byte) : s.BufStep (s.bufWrite a x) a 1 :=
  memWrite s a [x]

theorem cfg {s t : State} {a n : Nat} (h : s.BufStep t a n) : t.cfg = s.cfg := by rw [h.only]
theorem nreg {s t : State} {a n : Nat} (h : s.BufStep t a n) : t.nreg = s.nreg := by rw [h.only]
theorem bufFill {s t : State} {a n : Nat} (h : s.BufStep t a n) : t.bufFill = s.bufFill := by rw [h.only]
theorem draws {s t : State} {a n : Nat} (h : s.BufStep t a n) : t.draws = s.draws := by rw [h.only]
theorem status {s t : State} {a n : Nat} (h : s.BufStep t a n) : t.status = s.status := by rw [h.only]

/-- A loop whose every round changes only BUF inside the range. -/
theorem foldl {s : State} {a n : Nat} {f : State → Nat → State} (l : List Nat)
    (hf : ∀ (t : State) (j : Nat), j ∈ l → t.BufStep (f t j) a n) : s.BufStep (l.foldl f s) a n := by
  induction l generalizing s with
  | nil => exact refl s a n
  | cons j l ih =>
    exact (hf s j List.mem_cons_self).trans (ih fun t i hi => hf t i (List.mem_cons_of_mem _ hi))

end State.BufStep

/-! ### The loops -/

/-- RSAENC's blocks touch only BUF, only inside its output. -/
theorem rsaenc_loop_bufStep (s : State) (e : Nat) :
    s.BufStep ((List.range s.encBlocks).foldl (rsaencBlock s e) s) s.dstAddr s.encNeed := by
  apply State.BufStep.foldl
  intro t j hj
  have hj := List.mem_range.1 hj
  refine (State.BufStep.memWrite t _ _).mono (Nat.le_add_right _ _) ?_
  rw [beBytes_length, State.encNeed]
  have : (j + 1) * outBlock s.modulus ≤ s.encBlocks * outBlock s.modulus := Nat.mul_le_mul_right _ hj
  have e : (j + 1) * outBlock s.modulus = j * outBlock s.modulus + outBlock s.modulus := by ring
  omega

/-- The value of the ciphertext block at hand, as RSADEC's loop reads it (43_rsa.md R216). -/
def State.cipherBlock (s0 s : State) (j : Nat) : Nat :=
  beVal (s.memRead (s0.srcAddr + j * outBlock s0.modulus) (outBlock s0.modulus))

theorem rsadecLoop_bad {s0 s : State} {j : Nat} (h : s0.modulus ≤ s0.cipherBlock s j) (d left w : Nat) :
    rsadecLoop s0 d (left + 1) j w s = .error .invalidArgument := if_pos h

theorem rsadecLoop_full {s0 s : State} {j d w : Nat} (h : ¬ s0.modulus ≤ s0.cipherBlock s j)
    (h' : s0.dstLen < w + nbytes (s0.modExp (s0.cipherBlock s j) d)) (left : Nat) :
    rsadecLoop s0 d (left + 1) j w s = .error .capacityExceeded := (if_neg h).trans (if_pos h')

theorem rsadecLoop_next {s0 s : State} {j d w : Nat} (h : ¬ s0.modulus ≤ s0.cipherBlock s j)
    (h' : ¬ s0.dstLen < w + nbytes (s0.modExp (s0.cipherBlock s j) d)) (left : Nat) :
    rsadecLoop s0 d (left + 1) j w s =
      rsadecLoop s0 d left (j + 1) (w + nbytes (s0.modExp (s0.cipherBlock s j) d))
        (s.memWrite (s0.dstAddr + w) (beBytes (s0.modExp (s0.cipherBlock s j) d)
          (nbytes (s0.modExp (s0.cipherBlock s j) d)))) := (if_neg h).trans (if_neg h')

/-- RSADEC's loop, when it succeeds, touches only BUF, only inside what it wrote, which fits. -/
theorem rsadecLoop_bufStep {s0 : State} {d : Nat} (left j w : Nat) (s t : State) (w' : Nat)
    (h : rsadecLoop s0 d left j w s = .ok (t, w')) (hw : w ≤ s0.dstLen) :
    s.BufStep t s0.dstAddr s0.dstLen ∧ s.BufStep t s0.dstAddr w' ∧ w ≤ w' ∧ w' ≤ s0.dstLen := by
  induction left generalizing j w s with
  | zero =>
    simp only [rsadecLoop, Except.ok.injEq, Prod.mk.injEq] at h
    obtain ⟨rfl, rfl⟩ := h
    exact ⟨.refl .., .refl .., le_rfl, hw⟩
  | succ left ih =>
    simp only [rsadecLoop] at h
    split at h
    · simp at h
    · split at h
      · simp at h
      · next hcap =>
        obtain ⟨h1, h2, h3, h4⟩ := ih _ _ _ h (by omega)
        have hstep := State.BufStep.memWrite s (s0.dstAddr + w)
          (beBytes (s0.modExp (beVal (s.memRead (s0.srcAddr + j * outBlock s0.modulus) (outBlock s0.modulus))) d)
            (nbytes (s0.modExp (beVal (s.memRead (s0.srcAddr + j * outBlock s0.modulus) (outBlock s0.modulus))) d)))
        rw [beBytes_length] at hstep
        exact ⟨(hstep.mono (by omega) (by omega)).trans h1, (hstep.mono (by omega) (by omega)).trans h2,
          by omega, h4⟩

/-- AESCTR's chunks touch only BUF, only inside its output. -/
theorem ctr_loop_bufStep (s : State) (w : List Word) :
    s.BufStep ((List.range (ctrChunks s.srcLen)).foldl (ctrChunk s w) s) s.dstAddr s.srcLen := by
  apply State.BufStep.foldl
  intro t j _
  unfold ctrChunk
  apply State.BufStep.foldl
  intro u i hi
  have hi := List.mem_range.1 hi
  exact (State.BufStep.bufWrite u _ _).mono (by omega) (by omega)

/-! ### The commands -/

/-- A code that a failing check of a command can raise (60_exceptions.md R271): not "none", not the
decoder's. -/
def ErrCode.raisable (c : ErrCode) : Bool := c != .noError && c != .illegalCommand

theorem ErrCode.raisable_iff (c : ErrCode) : c.raisable = true ↔ c ≠ .noError ∧ c ≠ .illegalCommand := by
  cases c <;> decide

/-- The first failing check raises a code of its list. -/
theorem raisable_of_firstFailing {cs : List (Bool × ErrCode)} {code : ErrCode}
    (hcs : (cs.all fun c => c.2.raisable) = true) (h : firstFailing cs = some code) :
    code.raisable = true :=
  List.all_eq_true.1 hcs _ (firstFailing_mem h)

/-- RSADEC's loop fails with one of its two codes (43_rsa.md R216). -/
theorem rsadecLoop_error {s0 : State} {d : Nat} (left j w : Nat) (s : State) {code : ErrCode}
    (h : rsadecLoop s0 d left j w s = .error code) : code = .invalidArgument ∨ code = .capacityExceeded := by
  induction left generalizing j w s with
  | zero => simp [rsadecLoop] at h
  | succ left ih =>
    simp only [rsadecLoop] at h
    split at h
    · exact .inl (Except.error.inj h).symm
    · split at h
      · exact .inr (Except.error.inj h).symm
      · exact ih _ _ _ h

theorem execNop_eq (s : State) : execNop s = .next (s.succeeded 0) := rfl

theorem execLoadb_cases (rd : RegNo) (swsz : Nat) (pz : Bool) (s : State) :
    (∃ code, code.raisable = true ∧ execLoadb rd swsz pz s = .next (s.failed code)) ∨
      s.loadValue rd swsz pz < radix ^ s.cfg.lMax ∧
        execLoadb rd swsz pz s = .next ((s.setN rd (s.loadValue rd swsz pz)).succeeded 0) := by
  unfold execLoadb
  rcases s.guarded_cases _ (.next ((s.setN rd (s.loadValue rd swsz pz)).completeOk 0)) with
    ⟨code, hf, h⟩ | ⟨hn, h⟩
  · exact .inl ⟨code, raisable_of_firstFailing rfl hf, h⟩
  · refine .inr ⟨?_, h⟩
    have := (firstFailing_eq_none.1 hn) _ (List.mem_cons_of_mem _ (List.mem_cons_of_mem _ List.mem_cons_self))
    simpa using this

theorem execStoreb_cases (rs1 : RegNo) (swsz : Nat) (s : State) :
    (∃ code, code.raisable = true ∧ execStoreb rs1 swsz s = .next (s.failed code)) ∨
      execStoreb rs1 swsz s = .next ((s.memWrite s.dstAddr (s.storeBytes rs1 swsz)).succeeded 0) := by
  unfold execStoreb
  rcases s.guarded_cases _ (.next ((s.memWrite s.dstAddr (s.storeBytes rs1 swsz)).completeOk 0)) with
    ⟨code, hf, h⟩ | ⟨_, h⟩
  · exact .inl ⟨code, raisable_of_firstFailing rfl hf, h⟩
  · exact .inr h

@[simp] theorem storeBytes_length (s : State) (rs1 : RegNo) (swsz : Nat) :
    (s.storeBytes rs1 swsz).length = s.dstLen := by simp [State.storeBytes]

theorem execMinv_cases (s : State) :
    (∃ code, code.raisable = true ∧ execMinv s = .next (s.failed code)) ∨
      s.modulus % 2 = 1 ∧ execMinv s = .next ((s.setMprime (BitVec.ofNat 31 (montInverse s.modulus))).succeeded
        ((BitVec.ofNat 31 (montInverse s.modulus)).setWidth 32)) := by
  unfold execMinv
  rcases s.guarded_cases (modulusChecks s.modulus) (.next ((s.setMprime
    (BitVec.ofNat 31 (montInverse s.modulus))).completeOk
      ((BitVec.ofNat 31 (montInverse s.modulus)).setWidth 32))) with
    ⟨code, hf, h⟩ | ⟨hn, h⟩
  · exact .inl ⟨code, raisable_of_firstFailing rfl hf, h⟩
  · refine .inr ⟨?_, h⟩
    have := (firstFailing_eq_none.1 hn) _ (List.mem_cons_of_mem _ List.mem_cons_self)
    simp only [beq_eq_false_iff_ne] at this
    omega

/-- The shared checks pass exactly in a good Montgomery context (R137, R138). -/
theorem contextChecks_none (s : State) : firstFailing s.contextChecks = none ↔ s.ContextOK := by
  simp only [State.contextChecks, modulusChecks, State.ContextOK, mPrimeOK, State.modulus, State.mp,
    RegNo.m, firstFailing_eq_none, List.cons_append, List.nil_append, List.mem_cons, List.not_mem_nil,
    or_false, forall_eq_or_imp, forall_eq, beq_eq_false_iff_ne, Bool.not_eq_false', beq_iff_eq]
  constructor
  · rintro ⟨h1, h2, h3⟩
    exact ⟨by omega, h3⟩
  · rintro ⟨h1, h2⟩
    refine ⟨by rintro h; rw [h] at h1; simp at h1, by omega, h2⟩

theorem execMontmul_cases (rd rs1 rs2 : RegNo) (s : State) :
    (∃ code, code.raisable = true ∧ execMontmul rd rs1 rs2 s = .next (s.failed code)) ∨
      (s.ContextOK ∧ s.nval rs1 < s.modulus ∧ s.nval rs2 < s.modulus) ∧
        execMontmul rd rs1 rs2 s = .next
          ((s.setN rd (mm (s.nval rs1) (s.nval rs2) s.modulus s.mp)).succeeded 0) := by
  unfold execMontmul
  rcases s.guarded_cases (s.contextChecks ++ [belowCheck (s.nval rs1) s.modulus,
    belowCheck (s.nval rs2) s.modulus]) (.next ((s.setN rd (mm (s.nval rs1) (s.nval rs2) s.modulus
      s.mp)).completeOk 0)) with
    ⟨code, hf, h⟩ | ⟨hn, h⟩
  · exact .inl ⟨code, raisable_of_firstFailing rfl hf, h⟩
  · refine .inr ⟨?_, h⟩
    rw [firstFailing_append, Option.or_eq_none_iff, contextChecks_none] at hn
    refine ⟨hn.1, ?_⟩
    simpa [belowCheck, firstFailing_eq_none, -firstFailing_cons] using hn.2

theorem execMontexp_cases (rd rs1 rs2 : RegNo) (s : State) :
    (∃ code, code.raisable = true ∧ execMontexp rd rs1 rs2 s = .next (s.failed code)) ∨
      (s.ContextOK ∧ s.nval rs1 < s.modulus ∧ s.rModM < s.modulus ∧ s.rrModM < s.modulus) ∧
        execMontexp rd rs1 rs2 s = .next
          ((s.setN rd (s.modExp (s.nval rs1) (s.nval rs2))).succeeded 0) := by
  unfold execMontexp
  rcases s.guarded_cases (s.contextChecks ++ [belowCheck (s.nval rs1) s.modulus,
    belowCheck s.rModM s.modulus, belowCheck s.rrModM s.modulus])
    (.next ((s.setN rd (s.modExp (s.nval rs1) (s.nval rs2))).completeOk 0)) with
    ⟨code, hf, h⟩ | ⟨hn, h⟩
  · exact .inl ⟨code, raisable_of_firstFailing rfl hf, h⟩
  · refine .inr ⟨?_, h⟩
    rw [firstFailing_append, Option.or_eq_none_iff, contextChecks_none] at hn
    refine ⟨hn.1, ?_⟩
    simpa [belowCheck, firstFailing_eq_none, -firstFailing_cons] using hn.2

theorem execRsaenc_cases (rs2 : RegNo) (s : State) :
    (∃ code, code.raisable = true ∧ execRsaenc rs2 s = .next (s.failed code)) ∨
      (firstFailing s.rsaencChecks = none ∧ execRsaenc rs2 s = .next
        (((List.range s.encBlocks).foldl (rsaencBlock s (s.nval rs2)) s).succeeded
          (BitVec.ofNat 32 s.encNeed))) := by
  unfold execRsaenc
  rcases s.guarded_cases s.rsaencChecks (.next (((List.range s.encBlocks).foldl
    (rsaencBlock s (s.nval rs2)) s).completeOk (BitVec.ofNat 32 s.encNeed))) with
    ⟨code, hf, h⟩ | ⟨hn, h⟩
  · exact .inl ⟨code, raisable_of_firstFailing rfl hf, h⟩
  · exact .inr ⟨hn, h⟩

theorem execRsadec_cases (rs2 : RegNo) (s : State) :
    (∃ code, code.raisable = true ∧ execRsadec rs2 s = .next (s.failed code)) ∨
      firstFailing s.rsadecChecks = none ∧
        ((∃ t w, rsadecLoop s (s.nval rs2) (s.srcLen / outBlock s.modulus) 0 0 s = .ok (t, w) ∧
            execRsadec rs2 s = .next (t.succeeded (BitVec.ofNat 32 w))) ∨
          ∃ code, rsadecLoop s (s.nval rs2) (s.srcLen / outBlock s.modulus) 0 0 s = .error code ∧
            execRsadec rs2 s = .next ((s.unspecify s.dstAddr s.dstLen).failed code)) := by
  unfold execRsadec
  rcases s.guarded_cases s.rsadecChecks (s.rsadecRun (s.nval rs2)) with
    ⟨code, hf, h⟩ | ⟨hn, h⟩
  · exact .inl ⟨code, raisable_of_firstFailing rfl hf, h⟩
  · refine .inr ⟨hn, ?_⟩
    rw [h, State.rsadecRun]
    cases rsadecLoop s (s.nval rs2) (s.srcLen / outBlock s.modulus) 0 0 s with
    | ok r => exact .inl ⟨r.1, r.2, rfl, rfl⟩
    | error code => exact .inr ⟨code, rfl, rfl⟩

/-- RSADEC's range checks passed, so its destination lies in BUF. -/
theorem rsadecChecks_range {s : State} (h : firstFailing s.rsadecChecks = none) :
    s.dstAddr + s.dstLen ≤ s.cfg.bufBytes := by
  rw [State.rsadecChecks, firstFailing_append, Option.or_eq_none_iff] at h
  have := h.2
  simp only [firstFailing_eq_none, List.mem_cons, forall_eq_or_imp, State.rangeCheck, State.inBuf] at this
  simpa using this.2.2.2.1

theorem execAeskeyexp_eq (s : State) : execAeskeyexp s = .next ((s.setRk s.schedule).succeeded 0) := rfl

theorem execAesblk_cases (s : State) :
    (∃ code, code.raisable = true ∧ execAesblk s = .next (s.failed code)) ∨
      (s.srcAddr + 16 ≤ s.cfg.bufBytes ∧ s.dstAddr + 16 ≤ s.cfg.bufBytes) ∧
        execAesblk s = .next (((s.memWrite s.dstAddr (aesEnc s.schedule (s.memRead s.srcAddr 16))).setRk
          s.schedule).succeeded 0) := by
  unfold execAesblk
  rcases s.guarded_cases [s.rangeCheck s.srcAddr 16, s.rangeCheck s.dstAddr 16]
    (.next (((s.memWrite s.dstAddr (aesEnc s.schedule (s.memRead s.srcAddr 16))).setRk
      s.schedule).completeOk 0)) with
    ⟨code, hf, h⟩ | ⟨hn, h⟩
  · exact .inl ⟨code, raisable_of_firstFailing rfl hf, h⟩
  · refine .inr ⟨?_, h⟩
    simpa [State.rangeCheck, State.inBuf, firstFailing_eq_none, -firstFailing_cons] using hn

theorem execAesctr_cases (s : State) :
    (∃ code, code.raisable = true ∧ execAesctr s = .next (s.failed code)) ∨
      (s.srcAddr + s.srcLen ≤ s.cfg.bufBytes ∧ s.dstAddr + s.srcLen ≤ s.cfg.bufBytes) ∧
        execAesctr s = .next ((((((List.range (ctrChunks s.srcLen)).foldl (ctrChunk s s.schedule) s).setCtrVal
          ((s.ctrVal + ctrChunks s.srcLen) % 2 ^ 128)).setRk s.schedule)).succeeded 0) := by
  unfold execAesctr
  rcases s.guarded_cases [s.rangeCheck s.srcAddr s.srcLen, s.rangeCheck s.dstAddr s.srcLen]
    (.next ((((((List.range (ctrChunks s.srcLen)).foldl (ctrChunk s s.schedule) s).setCtrVal
      ((s.ctrVal + ctrChunks s.srcLen) % 2 ^ 128)).setRk s.schedule)).completeOk 0)) with
    ⟨code, hf, h⟩ | ⟨hn, h⟩
  · exact .inl ⟨code, raisable_of_firstFailing rfl hf, h⟩
  · refine .inr ⟨?_, h⟩
    simpa [State.rangeCheck, State.inBuf, firstFailing_eq_none, -firstFailing_cons] using hn

end Sys2Proof.Machine
end

