-- ==== Sys2Proof/Laws/Commands.lean ====
section
/-! SUPPORT. Everything a command's completion can do, said once for all eleven: the error completion, its
own effect with its frame, or RSADEC's mid-run failure (10_state.md R38; 40_command.md R133, R139). -/

namespace Sys2Proof.Machine

/-- How many bytes from ARG2 on a command that succeeds with result `r` writes. -/
def State.storeWidth (s : State) (i : Instr) (r : Word) : Nat :=
  match i with
  | .nop => 0
  | .loadb _ _ _ => 0
  | .storeb _ _ => s.dstLen
  | .minv => 0
  | .montmul _ _ _ => 0
  | .montexp _ _ _ => 0
  | .rsaenc _ => s.encNeed
  | .rsadec _ => r.toNat
  | .aeskeyexp => 0
  | .aesblk => 16
  | .aesctr => s.srcLen

/-- What a successful command may leave in `u`, before RESULT and STATUS (R38). -/
structure State.Effect (s u : State) (i : Instr) (r : Word) : Prop where
  only : u = { s with nreg := u.nreg, mprime := u.mprime, ctr := u.ctr, rk := u.rk, buf := u.buf }
  nreg : ∀ k : RegNo, writesN i ≠ some k → u.nreg[k] = s.nreg[k]
  length : ∀ k : RegNo, u.nreg[k] = s.nreg[k] ∨ u.nreg[k].length = s.cfg.lMax
  mprime : i ≠ .minv → u.mprime = s.mprime
  ctr : i ≠ .aesctr → u.ctr = s.ctr
  rk : expandsKey i = false → u.rk = s.rk
  wf : Memory.wf s.cfg.bufBytes s.buf = true → Memory.wf s.cfg.bufBytes u.buf = true
  outside : s.SameBytesOutside u s.dstAddr (s.storeWidth i r)
  fits : ∀ d, i = .rsadec d → r.toNat ≤ s.dstLen

/-- A command that only stores to BUF. -/
theorem State.BufStep.effect {s u : State} {i : Instr} {r : Word}
    (h : s.BufStep u s.dstAddr (s.storeWidth i r)) (hf : ∀ d, i = .rsadec d → r.toNat ≤ s.dstLen) :
    s.Effect u i r where
  only := by rw [h.only]
  nreg := fun k _ => by rw [h.only]
  length := fun k => .inl (by rw [h.only])
  mprime := fun _ => by rw [h.only]
  ctr := fun _ => by rw [h.only]
  rk := fun _ => by rw [h.only]
  wf := h.wf
  outside := h.outside
  fits := hf

/-- A command that changes nothing of its own. -/
theorem State.Effect.refl (s : State) {i : Instr} (hi : ∀ d, i ≠ .rsadec d) (r : Word) : s.Effect s i r where
  only := rfl
  nreg := fun _ _ => rfl
  length := fun _ => .inl rfl
  mprime := fun _ => rfl
  ctr := fun _ => rfl
  rk := fun _ => rfl
  wf := id
  outside := fun _ _ => rfl
  fits := fun d e => absurd e (hi d)

/-- A command that only writes a BigNum register. -/
theorem State.effect_setN (s : State) {i : Instr} {rd : RegNo} (hi : writesN i = some rd) (v : Nat)
    (r : Word) : s.Effect (s.setN rd v) i r where
  only := rfl
  nreg := fun k hk => by
    have hne : rd.val ≠ k.val := fun e => hk (by rw [hi, Fin.ext e])
    show (s.nreg.set rd (toDigits s.cfg.lMax v))[k.val] = s.nreg[k.val]
    rw [Vector.getElem_set_ne _ _ hne]
  length := fun k => by
    by_cases hk : k = rd
    · right; subst hk; rw [nreg_setN_self]; simp
    · left
      have hne : rd.val ≠ k.val := fun e => hk (Fin.ext e.symm)
      show (s.nreg.set rd (toDigits s.cfg.lMax v))[k.val] = s.nreg[k.val]
      rw [Vector.getElem_set_ne _ _ hne]
  mprime := fun _ => rfl
  ctr := fun _ => rfl
  rk := fun _ => rfl
  wf := id
  outside := fun _ _ => rfl
  fits := fun d e => by subst e; cases hi

/-- An AES command's key schedule on top of what it stored. -/
theorem State.Effect.setRk {s u : State} {i : Instr} {r : Word} (h : s.Effect u i r) (hi : expandsKey i = true)
    (ws : List Word) : s.Effect (u.setRk ws) i r where
  only := by rw [State.setRk, h.only]
  nreg := h.nreg
  length := h.length
  mprime := h.mprime
  ctr := h.ctr
  rk := fun e => by rw [hi] at e; cases e
  wf := h.wf
  outside := fun x hx => (State.bufRead_setRk u ws x).trans (h.outside x hx)
  fits := h.fits

/-- AESCTR's counter on top of what it stored. -/
theorem State.Effect.setCtrVal {s u : State} {r : Word} (h : s.Effect u .aesctr r) (v : Nat) :
    s.Effect (u.setCtrVal v) .aesctr r where
  only := by rw [State.setCtrVal, h.only]
  nreg := h.nreg
  length := h.length
  mprime := h.mprime
  ctr := fun e => absurd rfl e
  rk := h.rk
  wf := h.wf
  outside := h.outside
  fits := h.fits

/-- Everything a completion can do. -/
theorem exec_cases (i : Instr) (s : State) :
    (∃ code, code.raisable = true ∧ exec i s = .next (s.failed code)) ∨
      (∃ u r, s.Effect u i r ∧ exec i s = .next (u.succeeded r)) ∨
      ∃ d code, i = .rsadec d ∧ code.raisable = true ∧ s.dstAddr + s.dstLen ≤ s.cfg.bufBytes ∧
        exec i s = .next ((s.unspecify s.dstAddr s.dstLen).failed code) := by
  cases i with
  | nop => exact .inr (.inl ⟨s, 0, .refl s (by simp) 0, rfl⟩)
  | loadb rd swsz pz =>
    rcases execLoadb_cases rd swsz pz s with h | ⟨_, h⟩
    · exact .inl h
    · exact .inr (.inl ⟨_, _, s.effect_setN rfl _ _, h⟩)
  | storeb rs1 swsz =>
    rcases execStoreb_cases rs1 swsz s with h | h
    · exact .inl h
    · refine .inr (.inl ⟨_, _, State.BufStep.effect ?_ (by simp), h⟩)
      have hb := State.BufStep.memWrite s s.dstAddr (s.storeBytes rs1 swsz)
      rwa [storeBytes_length] at hb
  | minv =>
    rcases execMinv_cases s with h | ⟨_, h⟩
    · exact .inl h
    · refine .inr (.inl ⟨_, _, ?_, h⟩)
      exact ⟨rfl, fun _ _ => rfl, fun _ => .inl rfl, fun e => absurd rfl e, fun _ => rfl, fun _ => rfl, id,
        fun _ _ => rfl, by simp⟩
  | montmul rd rs1 rs2 =>
    rcases execMontmul_cases rd rs1 rs2 s with h | ⟨_, h⟩
    · exact .inl h
    · exact .inr (.inl ⟨_, _, s.effect_setN rfl _ _, h⟩)
  | montexp rd rs1 rs2 =>
    rcases execMontexp_cases rd rs1 rs2 s with h | ⟨_, h⟩
    · exact .inl h
    · exact .inr (.inl ⟨_, _, s.effect_setN rfl _ _, h⟩)
  | rsaenc rs2 =>
    rcases execRsaenc_cases rs2 s with h | ⟨_, h⟩
    · exact .inl h
    · exact .inr (.inl ⟨_, _, (rsaenc_loop_bufStep s _).effect (by simp), h⟩)
  | rsadec rs2 =>
    rcases execRsadec_cases rs2 s with h | ⟨hc, ⟨t, w, hl, h⟩ | ⟨code, hl, h⟩⟩
    · exact .inl h
    · obtain ⟨_, h2, _, h4⟩ := rsadecLoop_bufStep _ _ _ _ _ _ hl (Nat.zero_le _)
      have hlt : s.dstLen < 2 ^ 32 := s.args[3].isLt
      have e : (BitVec.ofNat 32 w).toNat = w := by simp; omega
      refine .inr (.inl ⟨_, _, State.BufStep.effect ?_ (fun _ _ => by rw [e]; exact h4), h⟩)
      show s.BufStep t s.dstAddr (BitVec.ofNat 32 w).toNat
      rwa [e]
    · refine .inr (.inr ⟨rs2, code, rfl, ?_, rsadecChecks_range hc, h⟩)
      rcases rsadecLoop_error _ _ _ _ hl with rfl | rfl <;> rfl
  | aeskeyexp => exact .inr (.inl ⟨_, _, (State.Effect.refl s (i := .aeskeyexp) (by simp) 0).setRk rfl _, execAeskeyexp_eq s⟩)
  | aesblk =>
    rcases execAesblk_cases s with h | ⟨_, h⟩
    · exact .inl h
    · refine .inr (.inl ⟨_, _, State.Effect.setRk (State.BufStep.effect ?_ (by simp)) rfl _, h⟩)
      have hb := State.BufStep.memWrite s s.dstAddr (aesEnc s.schedule (s.memRead s.srcAddr 16))
      rwa [aesEnc_length (schedule_length s)] at hb
  | aesctr =>
    rcases execAesctr_cases s with h | ⟨_, h⟩
    · exact .inl h
    · exact .inr (.inl ⟨_, _, State.Effect.setRk
        (State.Effect.setCtrVal (State.BufStep.effect (ctr_loop_bufStep s _) (by simp)) _) rfl _, h⟩)

end Sys2Proof.Machine
end

