-- ==== Sys2Proof/Laws/Ctr.lean ====
section
/-! SUPPORT. AESCTR's two loops are one loop over the bytes, and what that loop leaves in BUF, overlap
included (44_aes.md R251; 20_memory.md R77). -/

namespace Sys2Proof.Machine

/-- One byte of a keystream pass from `src` to `dst`. -/
def xorByte (src dst : Nat) (ks : Nat → Byte) (t : State) (p : Nat) : State :=
  t.bufWrite (dst + p) (t.bufRead (src + p) ^^^ ks p)

/-- The first n bytes of a keystream pass. -/
def xorPass (src dst : Nat) (ks : Nat → Byte) (s : State) (n : Nat) : State :=
  (List.range n).foldl (xorByte src dst ks) s

theorem xorPass_succ (src dst : Nat) (ks : Nat → Byte) (s : State) (n : Nat) :
    xorPass src dst ks s (n + 1) = xorByte src dst ks (xorPass src dst ks s n) n := by
  simp [xorPass, List.range_succ]

/-- What a pass leaves: the range beside it alone, and each byte XORed with the byte its turn read. -/
theorem xorPass_spec (src dst : Nat) (ks : Nat → Byte) (s : State) {n : Nat} (h : dst + n ≤ s.cfg.bufBytes) :
    s.BufStep (xorPass src dst ks s n) dst n ∧ ∀ q, q < n → (xorPass src dst ks s n).bufRead (dst + q) =
      (if src < dst ∧ dst ≤ src + q then (xorPass src dst ks s n).bufRead (src + q)
        else s.bufRead (src + q)) ^^^ ks q := by
  induction n with
  | zero => exact ⟨.refl .., fun q hq => absurd hq (Nat.not_lt_zero q)⟩
  | succ n ih =>
    obtain ⟨hb, hv⟩ := ih (by omega)
    rw [xorPass_succ]
    generalize xorPass src dst ks s n = t at hb hv
    have hcfg : dst + n < t.cfg.bufBytes := by rw [hb.cfg]; omega
    have hr : ∀ a, (xorByte src dst ks t n).bufRead a =
        if a = dst + n then t.bufRead (src + n) ^^^ ks n else t.bufRead a :=
      fun a => State.bufRead_bufWrite t _ a hcfg
    refine ⟨(hb.mono le_rfl (by omega)).trans ((State.BufStep.bufWrite t _ _).mono (by omega) (by omega)), ?_⟩
    intro q hq
    by_cases hqn : q = n
    · subst hqn
      rw [hr (dst + q), if_pos rfl]
      congr 1
      split
      · next hc => rw [hr, if_neg (by omega)]
      · next hc => exact hb.outside _ (by omega)
    · rw [hr (dst + q), if_neg (by omega), hv q (by omega)]
      congr 1
      split
      · next hc => rw [hr, if_neg (by omega)]
      · rfl

/-- The keystream byte of place p (R251). -/
def ctrKey (w : List Word) (c p : Nat) : Byte :=
  (aesEnc w (beBytes ((c + p / 16) % 2 ^ 128) 16)).getD (p % 16) 0

/-- The keystream byte of place i of chunk n. -/
theorem ctrKey_chunk (w : List Word) (c n : Nat) {i : Nat} (hi : i < 16) :
    ctrKey w c (16 * n + i) = (keystream w ((c + n) % 2 ^ 128)).getD i 0 := by
  have h1 : (16 * n + i) / 16 = n := by omega
  have h2 : (16 * n + i) % 16 = i := by omega
  unfold ctrKey keystream
  rw [h1, h2]

/-- A chunk is the next bytes of the pass. -/
theorem ctrChunk_eq (s : State) (w : List Word) (t : State) (n : Nat) :
    ctrChunk s w t n = (List.range (min 16 (s.srcLen - 16 * n))).foldl
      (fun t i => xorByte s.srcAddr s.dstAddr (ctrKey w s.ctrVal) t (16 * n + i)) t := by
  unfold ctrChunk
  apply List.foldl_ext
  intro u i hi
  have hi := List.mem_range.1 hi
  unfold ctrByte xorByte
  rw [ctrKey_chunk w s.ctrVal n (by omega), Nat.add_assoc, Nat.add_assoc]

/-- AESCTR's chunks are one pass over its bytes. -/
theorem ctr_loop_eq (s : State) (w : List Word) :
    (List.range (ctrChunks s.srcLen)).foldl (ctrChunk s w) s =
      xorPass s.srcAddr s.dstAddr (ctrKey w s.ctrVal) s s.srcLen := by
  have key : ∀ n, 16 * n < s.srcLen + 16 → (List.range n).foldl (ctrChunk s w) s =
      xorPass s.srcAddr s.dstAddr (ctrKey w s.ctrVal) s (min (16 * n) s.srcLen) := by
    intro n
    induction n with
    | zero => intro _; rfl
    | succ n ih =>
      intro hn
      have hm : min (16 * (n + 1)) s.srcLen = 16 * n + min 16 (s.srcLen - 16 * n) := by omega
      have h0 : min (16 * n) s.srcLen = 16 * n := by omega
      have ih := ih (by omega)
      rw [h0] at ih
      rw [List.range_succ, List.foldl_append, ih, hm]
      simp only [List.foldl_cons, List.foldl_nil]
      rw [ctrChunk_eq]
      unfold xorPass
      rw [List.range_add, List.foldl_append, List.foldl_map]
  have hc : 16 * ctrChunks s.srcLen < s.srcLen + 16 := by unfold ctrChunks; omega
  have hl : min (16 * ctrChunks s.srcLen) s.srcLen = s.srcLen := by unfold ctrChunks; omega
  rw [key _ hc, hl]

/-- The counter's four words hold its value (10_state.md R34). -/
theorem ctrVal_setCtrVal (s : State) {v : Nat} (h : v < 2 ^ 128) : (s.setCtrVal v).ctrVal = v := by
  unfold State.ctrVal State.setCtrVal ctrWords
  simp
  omega

end Sys2Proof.Machine
end

