-- ==== Sys2Proof/Laws/Outside.lean ====
section
/-! SUPPORT. What a completion does not look at: IRQEN, STATUS, the schedule, the port and (but for its free
bytes) the draw counter, so its outcome is the same whatever they are (70_reset_and_hazards.md R308). -/

namespace Sys2Proof.Machine

/-- `s` with everything replaced that no command reads. -/
def State.outside (s o : State) : State :=
  { s with irqen := o.irqen, status := o.status, draws := o.draws, sched := o.sched, resp := o.resp }

namespace State

theorem outside_memRead (s o : State) (a n : Nat) : (s.outside o).memRead a n = s.memRead a n := rfl
theorem outside_modExp (s o : State) (x e : Nat) : (s.outside o).modExp x e = s.modExp x e := rfl
theorem outside_modulus (s o : State) : (s.outside o).modulus = s.modulus := rfl
theorem outside_srcAddr (s o : State) : (s.outside o).srcAddr = s.srcAddr := rfl
theorem outside_srcLen (s o : State) : (s.outside o).srcLen = s.srcLen := rfl
theorem outside_dstAddr (s o : State) : (s.outside o).dstAddr = s.dstAddr := rfl
theorem outside_dstLen (s o : State) : (s.outside o).dstLen = s.dstLen := rfl

theorem outside_bufWrite (s o : State) (a : Nat) (x : Byte) :
    (s.outside o).bufWrite a x = (s.bufWrite a x).outside o := by
  unfold bufWrite
  show (if a < s.cfg.bufBytes then _ else _) = _
  split <;> rfl

theorem outside_memWrite (s o : State) (a : Nat) (xs : List Byte) :
    (s.outside o).memWrite a xs = (s.memWrite a xs).outside o := by
  induction xs generalizing s a with
  | nil => rfl
  | cons x xs ih => simp only [memWrite, outside_bufWrite, ih]

theorem outside_foldl (o : State) (f g : State → Nat → State)
    (h : ∀ (t : State) (j : Nat), f (t.outside o) j = (g t j).outside o) (l : List Nat) (s : State) :
    l.foldl f (s.outside o) = (l.foldl g s).outside o := by
  induction l generalizing s with
  | nil => rfl
  | cons j l ih => rw [List.foldl_cons, List.foldl_cons, h, ih]

end State

theorem rsaencBlock_outside (s o : State) (e : Nat) (t : State) (j : Nat) :
    rsaencBlock (s.outside o) e (t.outside o) j = (rsaencBlock s e t j).outside o :=
  State.outside_memWrite t o _ _

theorem ctrChunk_outside (s o : State) (w : List Word) (t : State) (j : Nat) :
    ctrChunk (s.outside o) w (t.outside o) j = (ctrChunk s w t j).outside o :=
  State.outside_foldl o _ _ (fun u _ => State.outside_bufWrite u o _ _) _ t

theorem rsadecLoop_outside (s o : State) (d left j w : Nat) (t : State) :
    rsadecLoop (s.outside o) d left j w (t.outside o) =
      (rsadecLoop s d left j w t).map fun r => (r.1.outside o, r.2) := by
  induction left generalizing j w t with
  | zero => rfl
  | succ left ih =>
    by_cases h1 : s.modulus ≤ s.cipherBlock t j
    · rw [rsadecLoop_bad h1, rsadecLoop_bad (s0 := s.outside o) (s := t.outside o) h1]
      rfl
    · by_cases h2 : s.dstLen < w + nbytes (s.modExp (s.cipherBlock t j) d)
      · rw [rsadecLoop_full h1 h2, rsadecLoop_full (s0 := s.outside o) (s := t.outside o) h1 h2]
        rfl
      · rw [rsadecLoop_next h1 h2, rsadecLoop_next (s0 := s.outside o) (s := t.outside o) h1 h2,
          State.outside_memWrite]
        exact ih _ _ _

/-- The three ways a completion goes are the same whatever stands outside it; only RSADEC's mid-run
failure draws. -/
def State.SameOutcome (s o : State) (x y : Out) : Prop :=
  (∃ code, x = .next (s.failed code) ∧ y = .next ((s.outside o).failed code)) ∨
    (∃ (u : State) (r : Word), x = .next (u.succeeded r) ∧ y = .next ((u.outside o).succeeded r)) ∨
    ∃ code, x = .next ((s.unspecify s.dstAddr s.dstLen).failed code) ∧
      y = .next (((s.outside o).unspecify s.dstAddr s.dstLen).failed code)

theorem State.guarded_sameOutcome (s o : State) (cs : List (Bool × ErrCode)) (go go' : Out)
    (h : s.SameOutcome o go go') : s.SameOutcome o (s.guarded cs go) ((s.outside o).guarded cs go') := by
  cases hc : firstFailing cs with
  | none => rwa [guarded_none hc, guarded_none hc]
  | some code =>
    rw [guarded_some hc, guarded_some hc]
    exact .inl ⟨code, rfl, rfl⟩

/-- A successful effect that is the same outside. -/
theorem State.sameOutcome_next (s o u : State) (r : Word) :
    s.SameOutcome o (.next (u.completeOk r)) (.next ((u.outside o).completeOk r)) :=
  .inr (.inl ⟨u, r, rfl, rfl⟩)

theorem exec_outside (i : Instr) (s o : State) : s.SameOutcome o (exec i s) (exec i (s.outside o)) := by
  cases i with
  | nop => exact s.sameOutcome_next o s 0
  | loadb rd swsz pz => exact s.guarded_sameOutcome o _ _ _ (s.sameOutcome_next o _ _)
  | storeb rs1 swsz =>
    refine s.guarded_sameOutcome o _ _ _ ?_
    rw [State.outside_memWrite]
    exact s.sameOutcome_next o _ _
  | minv => exact s.guarded_sameOutcome o _ _ _ (s.sameOutcome_next o _ _)
  | montmul rd rs1 rs2 => exact s.guarded_sameOutcome o _ _ _ (s.sameOutcome_next o _ _)
  | montexp rd rs1 rs2 => exact s.guarded_sameOutcome o _ _ _ (s.sameOutcome_next o _ _)
  | rsaenc rs2 =>
    refine s.guarded_sameOutcome o _ _ _ ?_
    have hl := State.outside_foldl o _ (rsaencBlock s (s.nval rs2)) (rsaencBlock_outside s o (s.nval rs2))
      (List.range s.encBlocks) s
    have e : (List.range (s.outside o).encBlocks).foldl
        (rsaencBlock (s.outside o) ((s.outside o).nval rs2)) (s.outside o) = _ := hl
    rw [e]
    exact s.sameOutcome_next o _ (BitVec.ofNat 32 s.encNeed)
  | rsadec rs2 =>
    refine s.guarded_sameOutcome o _ _ _ ?_
    have hl := rsadecLoop_outside s o (s.nval rs2) (s.srcLen / outBlock s.modulus) 0 0 s
    show s.SameOutcome o (s.rsadecRun (s.nval rs2)) ((s.outside o).rsadecRun (s.nval rs2))
    unfold State.rsadecRun
    simp only [State.outside_modulus, State.outside_srcLen, hl]
    cases rsadecLoop s (s.nval rs2) (s.srcLen / outBlock s.modulus) 0 0 s with
    | ok r => exact s.sameOutcome_next o _ _
    | error code => exact .inr (.inr ⟨code, rfl, rfl⟩)
  | aeskeyexp => exact s.sameOutcome_next o (s.setRk s.schedule) 0
  | aesblk =>
    refine s.guarded_sameOutcome o _ _ _ ?_
    rw [State.outside_memWrite]
    exact s.sameOutcome_next o ((s.memWrite _ _).setRk s.schedule) 0
  | aesctr =>
    refine s.guarded_sameOutcome o _ _ _ ?_
    have hl := State.outside_foldl o _ (ctrChunk s s.schedule) (ctrChunk_outside s o s.schedule)
      (List.range (ctrChunks s.srcLen)) s
    have e : (s.outside o).schedule = s.schedule := rfl
    rw [e, State.outside_srcLen, hl]
    exact s.sameOutcome_next o _ 0

end Sys2Proof.Machine
end

