-- ==== Sys2Proof/Laws/PerInstr.lean ====
section
/-! SUPPORT. Per-instruction family Packed: the command word of an instruction carries exactly its fields,
and its must-be-zero bits are 0 (30_encoding.md R100, R104). -/

namespace Sys2Proof.Laws.Packed

/-- The bits of a placed field. -/
theorem getLsbD_fieldAt {k : Nat} (n : Nat) (v : BitVec k) (i : Nat) :
    (fieldAt n v).getLsbD i = (decide (i < 32) && decide (n ≤ i) && v.getLsbD (i - n)) := by
  simp only [fieldAt, BitVec.getLsbD_shiftLeft, BitVec.getLsbD_setWidth]
  by_cases h1 : i < 32 <;> by_cases h2 : i < n
  · simp [h2, Nat.not_le.2 h2]
  · simp [h1, h2, Nat.not_lt.1 h2, show i - n < 32 by omega]
  · simp [h1]
  · simp [h1]

/-- Unpacking a packed word gives the fields back, whatever they are. -/
theorem fieldsOf_packFields (f : Fields) :
    reservedClear (packFields f) = true ∧ fieldsOf (packFields f) = f := by
  obtain ⟨opc, rd, rs1, rs2, swsz, pz⟩ := f
  have bit : ∀ i, (packFields ⟨opc, rd, rs1, rs2, swsz, pz⟩).getLsbD i =
      ((fieldAt 24 (BitVec.ofBool pz)).getLsbD i || (fieldAt 20 swsz).getLsbD i || (fieldAt 16 rs2).getLsbD i ||
        (fieldAt 12 rs1).getLsbD i || (fieldAt 8 rd).getLsbD i || (fieldAt 0 opc).getLsbD i) := by
    intro i; simp only [packFields, BitVec.getLsbD_or]
  simp only [getLsbD_fieldAt] at bit
  generalize packFields ⟨opc, rd, rs1, rs2, swsz, pz⟩ = c at bit
  have part : ∀ (n k : Nat) (v : BitVec k), (∀ j, j < k → c.getLsbD (n + j) = v.getLsbD j) →
      c.extractLsb' n k = v := by
    intro n k v h
    apply BitVec.eq_of_getLsbD_eq
    intro j hj
    rw [BitVec.getLsbD_extractLsb', h j hj]
    simp [hj]
  have h25 : c.extractLsb' 25 7 = 0#7 := part 25 7 0#7 fun j hj => by
    rw [bit]; interval_cases j <;> simp
  constructor
  · simp only [reservedClear, h25, bit]
    simp
  · simp only [fieldsOf, Fields.mk.injEq]
    refine ⟨part 0 8 _ fun j hj => ?_, part 8 3 _ fun j hj => ?_, part 12 3 _ fun j hj => ?_,
      part 16 3 _ fun j hj => ?_, part 20 4 _ fun j hj => ?_, ?_⟩
    · rw [bit]; interval_cases j <;> simp
    · rw [bit]; interval_cases j <;> simp
    · rw [bit]; interval_cases j <;> simp
    · rw [bit]; interval_cases j <;> simp
    · rw [bit]; interval_cases j <;> simp
    · rw [bit]; simp

/-- The word carries the instruction's fields and nothing else. -/
def Statement (i : Instr) : Prop := reservedClear (encode i) = true ∧ fieldsOf (encode i) = i.fields

theorem nop : Statement .nop := fieldsOf_packFields _
theorem loadb (rd : RegNo) (swsz : Nat) (pz : Bool) : Statement (.loadb rd swsz pz) := fieldsOf_packFields _
theorem storeb (rs1 : RegNo) (swsz : Nat) : Statement (.storeb rs1 swsz) := fieldsOf_packFields _
theorem minv : Statement .minv := fieldsOf_packFields _
theorem montmul (rd rs1 rs2 : RegNo) : Statement (.montmul rd rs1 rs2) := fieldsOf_packFields _
theorem montexp (rd rs1 rs2 : RegNo) : Statement (.montexp rd rs1 rs2) := fieldsOf_packFields _
theorem rsaenc (rs2 : RegNo) : Statement (.rsaenc rs2) := fieldsOf_packFields _
theorem rsadec (rs2 : RegNo) : Statement (.rsadec rs2) := fieldsOf_packFields _
theorem aeskeyexp : Statement .aeskeyexp := fieldsOf_packFields _
theorem aesblk : Statement .aesblk := fieldsOf_packFields _
theorem aesctr : Statement .aesctr := fieldsOf_packFields _

end Sys2Proof.Laws.Packed
end

