-- ==== Sys2Proof/Laws/Rsa.lean ====
section
/-! SUPPORT. The RSA block chains of Safety.lean are the loops of the meanings, they touch only BUF, and in a
correct context a block goes out as a power (43_rsa.md R210-R219). -/

namespace Sys2Proof.Machine

/-! ### Block sizes -/

theorem outBlock_eq (m : Nat) : outBlock m = nbytes m := rfl

theorem lt_pow_outBlock (m : Nat) : m < 256 ^ outBlock m := lt_pow_nbytes m

theorem pow_inBlock_le {m : Nat} (h : 0 < m) : 256 ^ inBlock m ≤ m := by
  calc 256 ^ inBlock m = 2 ^ (8 * inBlock m) := by rw [pow_mul]; norm_num
    _ ≤ 2 ^ (bitlen m - 1) := Nat.pow_le_pow_right (by norm_num) (by unfold inBlock; omega)
    _ ≤ m := pow_bitlen_le (by omega)

/-- An input block is below m (R211). -/
theorem encValue_lt {s : State} (hm : 0 < s.nval 7) (t : State) (j : Nat) : s.encValue t j < s.nval 7 := by
  unfold State.encValue
  refine lt_of_lt_of_le (beVal_lt _) (le_trans (Nat.pow_le_pow_right (by norm_num) ?_) (pow_inBlock_le hm))
  rw [State.memRead_length]
  exact min_le_left _ _

theorem outBlock_pos {m : Nat} (h : 0 < m) : 0 < outBlock m := by
  have := bitlen_pos (v := m) (by omega)
  unfold outBlock
  omega

/-! ### ME in a correct context -/

theorem modExp_eq {s : State} (h : s.ContextOK) (hr : s.ResiduesOK) {x : Nat} (hx : x < s.nval 7) (e : Nat) :
    s.modExp x e = x ^ e % s.nval 7 := by
  have h6 : s.rModM = montR (s.nval 7) % s.nval 7 := hr.1
  have h5 : s.rrModM = montR (s.nval 7) ^ 2 % s.nval 7 := hr.2
  unfold State.modExp
  rw [h6, h5]
  exact me_spec h.2 hx

theorem modExp_lt {s : State} (h : s.ContextOK) {x : Nat} (hx : x < s.nval 7) (h6 : s.nval 6 < s.nval 7)
    (h5 : s.nval 5 < s.nval 7) (e : Nat) : s.modExp x e < s.nval 7 :=
  (me_cast h.2 hx h6 h5).1

/-! ### RSAENC -/

theorem encChain_foldl (s : State) (e n : Nat) :
    (List.range n).foldl (rsaencBlock s e) s = s.encChain (fun x => s.modExp x e) n := by
  induction n with
  | zero => rfl
  | succ n ih => rw [List.range_succ, List.foldl_append, ih]; rfl

theorem encChain_congr {s : State} {f g : Nat → Nat} (hm : 0 < s.nval 7)
    (h : ∀ x, x < s.nval 7 → f x = g x) (n : Nat) : s.encChain f n = s.encChain g n := by
  induction n with
  | zero => rfl
  | succ n ih =>
    simp only [State.encChain]
    rw [ih, h _ (encValue_lt hm _ _)]

theorem encChain_bufStep (s : State) (f : Nat → Nat) (n : Nat) :
    s.BufStep (s.encChain f n) s.dstAddr (n * outBlock (s.nval 7)) := by
  induction n with
  | zero => exact .refl ..
  | succ n ih =>
    have e : (n + 1) * outBlock (s.nval 7) = n * outBlock (s.nval 7) + outBlock (s.nval 7) := by ring
    refine (ih.mono le_rfl (by omega)).trans ?_
    refine (State.BufStep.memWrite _ _ _).mono (by omega) ?_
    rw [beBytes_length]
    omega

/-- When RSAENC's checks pass (R212). -/
theorem rsaencChecks_none (s : State) : firstFailing s.rsaencChecks = none ↔
    s.RsaOperandsOK ∧ 0 < inBlock (s.nval 7) ∧ s.encNeed ≤ s.dstLen := by
  have hd : s.RsaOperandsOK ↔ s.ContextOK ∧ s.rModM < s.modulus ∧ s.rrModM < s.modulus ∧
    s.srcAddr + s.srcLen ≤ s.cfg.bufBytes ∧ s.dstAddr + s.dstLen ≤ s.cfg.bufBytes := Iff.rfl
  have hi : 0 < inBlock (s.nval 7) ↔ ¬ inBlock s.modulus = 0 := Nat.pos_iff_ne_zero
  rw [State.rsaencChecks, firstFailing_append, Option.or_eq_none_iff, contextChecks_none, hd, hi]
  simp only [firstFailing_eq_none, List.mem_cons, List.not_mem_nil, or_false, forall_eq_or_imp, forall_eq,
    belowCheck, State.rangeCheck, State.inBuf, decide_eq_false_iff_not, Bool.not_eq_false',
    decide_eq_true_eq, not_le, not_lt, beq_eq_false_iff_ne, ne_eq, and_assoc]

/-- RSAENC past its checks (R212). -/
theorem execRsaenc_ok {s : State} (r : RegNo) (h : s.RsaOperandsOK) (hi : 0 < inBlock (s.nval 7))
    (hn : s.encNeed ≤ s.dstLen) : execRsaenc r s =
      .next ((s.encChain (fun x => s.modExp x (s.nval r)) s.encBlocks).succeeded (BitVec.ofNat 32 s.encNeed)) := by
  unfold execRsaenc
  rw [State.guarded_none ((rsaencChecks_none s).2 ⟨h, hi, hn⟩), encChain_foldl]
  rfl

/-! ### RSADEC -/

theorem rsadecChecks_none (s : State) : firstFailing s.rsadecChecks = none ↔
    s.RsaOperandsOK ∧ s.srcLen % outBlock (s.nval 7) = 0 := by
  have hd : s.RsaOperandsOK ↔ s.ContextOK ∧ s.rModM < s.modulus ∧ s.rrModM < s.modulus ∧
    s.srcAddr + s.srcLen ≤ s.cfg.bufBytes ∧ s.dstAddr + s.dstLen ≤ s.cfg.bufBytes := Iff.rfl
  have hi : s.srcLen % outBlock (s.nval 7) = 0 ↔ ¬ s.srcLen % outBlock s.modulus ≠ 0 := not_not.symm
  rw [State.rsadecChecks, firstFailing_append, Option.or_eq_none_iff, contextChecks_none, hd, hi]
  simp only [firstFailing_eq_none, List.mem_cons, List.not_mem_nil, or_false, forall_eq_or_imp, forall_eq,
    belowCheck, State.rangeCheck, State.inBuf, decide_eq_false_iff_not, Bool.not_eq_false',
    decide_eq_true_eq, not_le, and_assoc]

/-- While blocks go through, RSADEC's loop is the chain (R216). -/
theorem rsadecLoop_chain {s : State} {d n : Nat} (left : Nat)
    (h : ∀ j, j < n → s.decFits (fun c => s.modExp c d) j) :
    rsadecLoop s d (n + left) 0 0 s =
      rsadecLoop s d left n (s.decChain (fun c => s.modExp c d) n).2 (s.decChain (fun c => s.modExp c d) n).1 := by
  induction n generalizing left with
  | zero => simp [State.decChain]
  | succ n ih =>
    have h1 := ih (left + 1) fun j hj => h j (by omega)
    rw [show n + 1 + left = n + (left + 1) by omega, h1]
    obtain ⟨hc, hf⟩ := h n (by omega)
    exact rsadecLoop_next (not_le.2 hc) (not_lt.2 hf) left

theorem decChain_congr {s : State} {f g : Nat → Nat} (h : ∀ x, x < s.nval 7 → f x = g x) (n : Nat)
    (hf : ∀ j, j < n → s.decValue (s.decChain f j).1 j < s.nval 7) : s.decChain f n = s.decChain g n := by
  induction n with
  | zero => rfl
  | succ n ih =>
    have e := ih fun j hj => hf j (by omega)
    have hn := hf n (by omega)
    simp only [State.decChain]
    rw [← e, h _ hn]

theorem decChain_le {s : State} (f : Nat → Nat) (n : Nat) :
    (s.decChain f n).2 ≤ (s.decChain f (n + 1)).2 := Nat.le_add_right _ _

theorem decChain_bufStep (s : State) (f : Nat → Nat) (n : Nat) :
    s.BufStep (s.decChain f n).1 s.dstAddr (s.decChain f n).2 := by
  induction n with
  | zero => exact .refl ..
  | succ n ih =>
    refine (ih.mono le_rfl (Nat.add_le_add_left (decChain_le f n) _)).trans ?_
    refine (State.BufStep.memWrite _ _ _).mono (Nat.le_add_right _ _) ?_
    rw [beBytes_length]
    simp only [State.decChain]
    omega

/-- RSADEC past its checks when every block goes through (R216). -/
theorem execRsadec_ok {s : State} (r : RegNo) (h : s.RsaOperandsOK) (hn : s.srcLen % outBlock (s.nval 7) = 0)
    (hf : ∀ j, j < s.srcLen / outBlock (s.nval 7) → s.decFits (fun c => s.modExp c (s.nval r)) j) :
    execRsadec r s = .next
      ((s.decChain (fun c => s.modExp c (s.nval r)) (s.srcLen / outBlock (s.nval 7))).1.succeeded
        (BitVec.ofNat 32 (s.decChain (fun c => s.modExp c (s.nval r)) (s.srcLen / outBlock (s.nval 7))).2)) := by
  unfold execRsadec
  rw [State.guarded_none ((rsadecChecks_none s).2 ⟨h, hn⟩), State.rsadecRun]
  have := rsadecLoop_chain (d := s.nval r) 0 hf
  rw [Nat.add_zero] at this
  rw [show s.srcLen / outBlock s.modulus = s.srcLen / outBlock (s.nval 7) from rfl, this]
  rfl

/-- RSADEC past its checks when block j is the first that does not go through (R216 `fail_midrun`). -/
theorem execRsadec_midrun {s : State} (r : RegNo) (h : s.RsaOperandsOK)
    (hn : s.srcLen % outBlock (s.nval 7) = 0) {j : Nat} (hj : j < s.srcLen / outBlock (s.nval 7))
    (hf : ∀ i, i < j → s.decFits (fun c => s.modExp c (s.nval r)) i)
    (hbad : ¬ s.decFits (fun c => s.modExp c (s.nval r)) j) :
    execRsadec r s = .next ((s.unspecify s.dstAddr s.dstLen).failed
      (if s.nval 7 ≤ s.decValue (s.decChain (fun c => s.modExp c (s.nval r)) j).1 j then .invalidArgument
        else .capacityExceeded)) := by
  unfold execRsadec
  rw [State.guarded_none ((rsadecChecks_none s).2 ⟨h, hn⟩), State.rsadecRun]
  obtain ⟨left, hl⟩ := Nat.exists_eq_add_of_lt hj
  rw [show s.srcLen / outBlock s.modulus = j + (left + 1) from by
    show s.srcLen / outBlock (s.nval 7) = _; omega, rsadecLoop_chain (left + 1) hf]
  by_cases hc : s.nval 7 ≤ s.decValue (s.decChain (fun c => s.modExp c (s.nval r)) j).1 j
  · rw [rsadecLoop_bad hc, if_pos hc]
    rfl
  · have hfull : s.dstLen < (s.decChain (fun c => s.modExp c (s.nval r)) (j + 1)).2 := by
      by_contra hle
      exact hbad ⟨not_le.1 hc, not_lt.1 hle⟩
    rw [rsadecLoop_full hc hfull, if_neg hc]
    rfl

end Sys2Proof.Machine
end

