-- ==== Sys2Proof/Laws/Step.lean ====
section
/-! SUPPORT. What one step can do: the next event, the host port's three answers, the engine's turn
(00_scope.md R13; 20_memory.md R71; 40_command.md R132-R134). -/

namespace Sys2Proof.Machine

theorem step_nil {s : State} (h : s.sched = []) : step s = s.engineTurn := by
  simp [step, State.agentStep, h]

theorem step_cons {s : State} {e : Event} {rest : List Event} (h : s.sched = e :: rest) :
    step s = State.event { s with sched := rest } e := by
  simp [step, State.agentStep, h]

theorem State.engineTurn_idle {s : State} (h : s.status.busy = false) : s.engineTurn = .next s := by
  simp [State.engineTurn, h]

theorem State.engineTurn_busy {s : State} (h : s.status.busy = true) : s.engineTurn = s.completion := by
  simp [State.engineTurn, h]

theorem State.completion_ok {s : State} {i : Instr} (h : decode s.cmd = .ok i) : s.completion = exec i s := by
  simp [State.completion, h]

theorem State.completion_illegal {s : State} {r : DecodeReject} (h : decode s.cmd = .error r) :
    s.completion = .next (s.failed .illegalCommand) := by
  simp only [State.completion, h]
  rfl

/-- Everything the engine's turn can do. -/
theorem State.engineTurn_cases (s : State) :
    s.status.busy = false ∧ s.engineTurn = .next s ∨
      s.status.busy = true ∧
        ((∃ i, decode s.cmd = .ok i ∧ s.engineTurn = exec i s) ∨
          ∃ r, decode s.cmd = .error r ∧ s.engineTurn = .next (s.failed .illegalCommand)) := by
  cases hb : s.status.busy
  · exact .inl ⟨rfl, engineTurn_idle hb⟩
  · refine .inr ⟨rfl, ?_⟩
    rw [engineTurn_busy hb]
    cases hd : decode s.cmd with
    | ok i => exact .inl ⟨i, rfl, completion_ok hd⟩
    | error r => exact .inr ⟨r, rfl, completion_illegal hd⟩

/-- The three answers to a host access (R71): not decoded, a bus error, or the access itself. -/
theorem State.access_cases (s : State) (addr bytes : Nat) (go : Nat → State) :
    inWindow s.cfg addr = false ∧ s.access addr bytes go = .fault .outsideWindow ∨
      inWindow s.cfg addr = true ∧ admitted (addr - s.cfg.baseAddr) bytes = false ∧
        s.access addr bytes go = .next (s.respond .busError) ∨
      inWindow s.cfg addr = true ∧ admitted (addr - s.cfg.baseAddr) bytes = true ∧
        s.access addr bytes go = .next (go (addr - s.cfg.baseAddr)) := by
  unfold State.access
  cases inWindow s.cfg addr <;> cases admitted (addr - s.cfg.baseAddr) bytes <;> simp

theorem inWindow_iff (c : Config) (addr : Nat) :
    inWindow c addr = true ↔ c.baseAddr ≤ addr ∧ addr < c.baseAddr + 0x4000 := by
  simp [inWindow]

/-- An aligned 32-bit access at a window offset is admitted (R71). -/
theorem State.access_word (s : State) {off : Nat} (go : Nat → State) (h1 : off < 0x4000) (h2 : off % 4 = 0) :
    s.access (s.cfg.baseAddr + off) 4 go = .next (go off) := by
  have hw : inWindow s.cfg (s.cfg.baseAddr + off) = true := by rw [inWindow_iff]; omega
  simp [State.access, hw, admitted, h2]

/-- The event an admitted read is. -/
theorem State.event_read (s : State) {off : Nat} (h1 : off < 0x4000) (h2 : off % 4 = 0) :
    s.event (.read (s.cfg.baseAddr + off) 4) = .next (s.hostRead off) := s.access_word s.hostRead h1 h2

/-- The event an admitted write is. -/
theorem State.event_write (s : State) {off : Nat} (w : Word) (h1 : off < 0x4000) (h2 : off % 4 = 0) :
    s.event (.write (s.cfg.baseAddr + off) 4 w) = .next (s.hostWrite off w) :=
  s.access_word (fun off => s.hostWrite off w) h1 h2

theorem State.hostRead_hidden {s : State} {off : Nat} (hb : s.status.busy = true)
    (hl : (windowAt s.cfg off).legibleBusy = false) :
    s.hostRead off = { s with resp := .readData (Config.freeWord s.draws), draws := s.draws + 1 } := by
  simp [State.hostRead, hb, hl]

theorem State.hostRead_shown {s : State} {off : Nat}
    (h : s.status.busy = false ∨ (windowAt s.cfg off).legibleBusy = true) :
    s.hostRead off = s.respond (.readData (s.readReg (windowAt s.cfg off))) := by
  rcases h with h | h <;> simp [State.hostRead, h]

theorem State.hostWrite_dropped {s : State} {off : Nat} (w : Word) (hb : s.status.busy = true)
    (hl : (windowAt s.cfg off).writableBusy = false) : s.hostWrite off w = s.dropWrite.respond .writeAck := by
  simp [State.hostWrite, hb, hl]

theorem State.hostWrite_taken {s : State} {off : Nat} (w : Word)
    (h : s.status.busy = false ∨ (windowAt s.cfg off).writableBusy = true) :
    s.hostWrite off w = (s.writeReg (windowAt s.cfg off) w).respond .writeAck := by
  rcases h with h | h <;> simp [State.hostWrite, h]

/-- Everything a step that answers a next state can do. -/
theorem step_cases {s t : State} (h : step s = .next t) :
    s.sched = [] ∧ s.engineTurn = .next t ∨
      ∃ e rest, s.sched = e :: rest ∧
        ((e = .engine ∧ State.engineTurn { s with sched := rest } = .next t) ∨
          (e = .powerOn ∧ t = State.powerOn { s with sched := rest }) ∨
          (∃ addr bytes, (e = .read addr bytes ∨ ∃ w, e = .write addr bytes w) ∧
            admitted (addr - s.cfg.baseAddr) bytes = false ∧
            t = State.respond { s with sched := rest } .busError) ∨
          (∃ addr bytes, e = .read addr bytes ∧ admitted (addr - s.cfg.baseAddr) bytes = true ∧
            t = State.hostRead { s with sched := rest } (addr - s.cfg.baseAddr)) ∨
          ∃ addr bytes w, e = .write addr bytes w ∧ admitted (addr - s.cfg.baseAddr) bytes = true ∧
            t = State.hostWrite { s with sched := rest } (addr - s.cfg.baseAddr) w) := by
  cases hs : s.sched with
  | nil => rw [step_nil hs] at h; exact .inl ⟨rfl, h⟩
  | cons e rest =>
    rw [step_cons hs] at h
    refine .inr ⟨e, rest, rfl, ?_⟩
    cases e with
    | engine => exact .inl ⟨rfl, h⟩
    | powerOn =>
      simp only [State.event, Host.Outcome.next.injEq] at h
      exact .inr (.inl ⟨rfl, h.symm⟩)
    | read addr bytes =>
      simp only [State.event] at h
      rcases State.access_cases { s with sched := rest } addr bytes
          (State.hostRead { s with sched := rest }) with ⟨_, e⟩ | ⟨_, ha, e⟩ | ⟨_, ha, e⟩ <;>
        rw [e] at h
      · cases h
      · exact .inr (.inr (.inl ⟨addr, bytes, .inl rfl, ha, (Host.Outcome.next.inj h).symm⟩))
      · exact .inr (.inr (.inr (.inl ⟨addr, bytes, rfl, ha, (Host.Outcome.next.inj h).symm⟩)))
    | write addr bytes w =>
      simp only [State.event] at h
      rcases State.access_cases { s with sched := rest } addr bytes
          (fun off => State.hostWrite { s with sched := rest } off w) with ⟨_, e⟩ | ⟨_, ha, e⟩ | ⟨_, ha, e⟩ <;>
        rw [e] at h
      · cases h
      · exact .inr (.inr (.inl ⟨addr, bytes, .inr ⟨w, rfl⟩, ha, (Host.Outcome.next.inj h).symm⟩))
      · exact .inr (.inr (.inr (.inr ⟨addr, bytes, w, rfl, ha, (Host.Outcome.next.inj h).symm⟩)))

end Sys2Proof.Machine
end

