-- ==== Sys2Proof/Laws/Window.lean ====
section
/-! SUPPORT. The window map as facts: what stands at each offset, the numbers of the packed words, and what
an idle block's access to a known register is (10_state.md R21-R25; 20_memory.md R74);
SubWord and RotWord byte by byte (44_aes.md R238). -/

namespace Sys2Proof.Machine

theorem Config.legal_iff (c : Config) :
    c.legal = true ↔ (1 ≤ c.lMax ∧ c.lMax ≤ 128) ∧ c.bufBytes % 4 = 0 ∧ 16 ≤ c.bufBytes ∧ c.bufBytes ≤ 8192 := by
  simp [Config.legal]

theorem windowAt_control (c : Config) {off : Nat} (h : off < 0x1000) : windowAt c off = controlReg off := by
  simp [windowAt, h]

theorem windowAt_arg (c : Config) (k : Fin 4) : windowAt c (0x020 + 4 * k.val) = .arg k := by
  rw [windowAt_control c (by omega)]; revert k; decide

theorem windowAt_used (c : Config) (k : RegNo) : windowAt c (0x040 + 4 * k.val) = .used k := by
  rw [windowAt_control c (by omega)]; revert k; decide

theorem windowAt_key (c : Config) (k : Fin 8) : windowAt c (0x080 + 4 * k.val) = .key k := by
  rw [windowAt_control c (by omega)]; revert k; decide

theorem windowAt_ctr (c : Config) (k : Fin 4) : windowAt c (0x0A0 + 4 * k.val) = .ctr k := by
  rw [windowAt_control c (by omega)]; revert k; decide

theorem windowAt_rk (c : Config) (i : Fin 60) : windowAt c (0x100 + 4 * i.val) = .rk i := by
  rw [windowAt_control c (by omega)]; revert i; decide

theorem windowAt_digit {c : Config} (hc : c.legal = true) (k : RegNo) {i : Nat} (h : i < c.lMax) :
    windowAt c (0x1000 + 0x200 * k.val + 4 * i) = .digit k i := by
  rw [Config.legal_iff] at hc
  have hk := k.isLt
  unfold windowAt
  rw [if_neg (by omega), dif_pos (by omega), if_pos (by omega)]
  congr 1
  · apply Fin.ext; simp; omega
  · omega

theorem windowAt_bufWord {c : Config} (hc : c.legal = true) {j : Nat} (h : 4 * j < c.bufBytes) :
    windowAt c (0x2000 + 4 * j) = .bufWord j := by
  rw [Config.legal_iff] at hc
  unfold windowAt
  rw [if_neg (by omega), dif_neg (by omega), if_pos (by omega)]
  congr 1; omega

/-- The offsets that alone reach CTRL and STATUS. -/
theorem windowAt_writableBusy (c : Config) {off : Nat} (h1 : off ≠ 0x008) (h2 : off ≠ 0x00C) :
    (windowAt c off).writableBusy = false := by
  unfold windowAt
  split
  · unfold controlReg
    repeat' split
    all_goals rfl
  · split
    · split <;> rfl
    · split <;> rfl

/-- The offsets that alone are legible while BUSY = 1. -/
theorem windowAt_legibleBusy (c : Config) {off : Nat} (h1 : off ≠ 0x000) (h2 : off ≠ 0x004)
    (h3 : off ≠ 0x008) (h4 : off ≠ 0x00C) : (windowAt c off).legibleBusy = false := by
  unfold windowAt
  split
  · unfold controlReg
    repeat' split
    all_goals first | rfl | contradiction
  · split
    · split <;> rfl
    · split <;> rfl

/-- PARAM as a number (R25). -/
theorem paramWord_eq {c : Config} (hc : c.legal = true) :
    paramWord c = BitVec.ofNat 32 (c.bufBytes * 2 ^ 16 + c.lMax) := by
  rw [Config.legal_iff] at hc
  apply BitVec.eq_of_toNat_eq
  have h1 : c.lMax < 2 ^ 16 := by omega
  rw [Nat.mul_comm, Nat.two_pow_add_eq_or_of_lt h1]
  simp [paramWord, fieldAt, Nat.shiftLeft_eq]
  rw [show c.bufBytes % 65536 * 65536 = 65536 * c.bufBytes by omega,
    show c.lMax % 256 = c.lMax by omega]

/-- CTRL as a number (R26). -/
theorem ctrlWord_eq (b : Bool) : ctrlWord b = BitVec.ofNat 32 (2 * b.toNat) := by cases b <;> rfl

/-- STATUS as a number (R27). -/
theorem Status.word_eq (st : Status) : st.word = BitVec.ofNat 32 (st.busy.toNat + 2 * st.done.toNat +
    4 * st.err.toNat + 8 * st.busyErr.toNat + 256 * st.errcode.bits.toNat) := by
  obtain ⟨b, d, e, be, ec⟩ := st
  cases b <;> cases d <;> cases e <;> cases be <;> cases ec <;> rfl

/-- A host BUF word is its bytes side by side, the one at the highest address on top (R74). -/
theorem wordOfLanes_eq (x0 x1 x2 x3 : Byte) : wordOfLanes x0 x1 x2 x3 = x3 ++ x2 ++ x1 ++ x0 := by
  apply BitVec.eq_of_getLsbD_eq
  intro i hi
  simp only [wordOfLanes, BitVec.getLsbD_or, Laws.Packed.getLsbD_fieldAt, BitVec.getLsbD_append]
  interval_cases i <;> simp

/-- A word from its four bytes, byte 0 on top (R232). -/
theorem wordOfBytesBE_eq (x0 x1 x2 x3 : Byte) : wordOfBytesBE x0 x1 x2 x3 = x0 ++ x1 ++ x2 ++ x3 :=
  wordOfLanes_eq x3 x2 x1 x0

/-- SubWord byte by byte (R238). -/
theorem subWord_eq (w : Word) : subWord w = sbox (w.extractLsb' 24 8) ++ sbox (w.extractLsb' 16 8) ++
    sbox (w.extractLsb' 8 8) ++ sbox (w.extractLsb' 0 8) := wordOfBytesBE_eq ..

/-- SubWord after RotWord byte by byte (R238). -/
theorem subWord_rotWord (w : Word) : subWord (rotWord w) = sbox (w.extractLsb' 16 8) ++
    sbox (w.extractLsb' 8 8) ++ sbox (w.extractLsb' 0 8) ++ sbox (w.extractLsb' 24 8) := by
  have byte : ∀ n m, (∀ i, i < 8 → (w.rotateLeft 8).getLsbD (n + i) = w.getLsbD (m + i)) →
      (rotWord w).extractLsb' n 8 = w.extractLsb' m 8 := by
    intro n m h
    apply BitVec.eq_of_getLsbD_eq
    intro i hi
    simp only [BitVec.getLsbD_extractLsb', hi, decide_true, Bool.true_and]
    exact h i hi
  rw [subWord_eq, byte 24 16, byte 16 8, byte 8 0, byte 0 24] <;>
    (intro i hi; simp only [BitVec.getLsbD_rotateLeft]; interval_cases i <;> simp)

/-- A read of a register of an idle block. -/
theorem State.readsAs_idle {s : State} {off : Nat} {r : WindowReg} {w : Word} (hb : s.status.busy = false)
    (h1 : off < 0x4000) (h2 : off % 4 = 0) (hr : windowAt s.cfg off = r) (hw : s.readReg r = w) :
    s.ReadsAs off w := by
  unfold State.ReadsAs hostR
  rw [s.event_read h1 h2, s.hostRead_shown (.inl hb), hr, hw]
  rfl

/-- A write to a register of an idle block. -/
theorem State.writeMakes_idle {s t : State} {off : Nat} {r : WindowReg} {w : Word}
    (hb : s.status.busy = false) (h1 : off < 0x4000) (h2 : off % 4 = 0) (hr : windowAt s.cfg off = r)
    (hw : s.writeReg r w = t) : s.WriteMakes off w t := by
  unfold State.WriteMakes hostW
  rw [s.event_write w h1 h2, s.hostWrite_taken w (.inl hb), hr, hw]
  rfl

end Sys2Proof.Machine
end

