-- ==== Sys2Proof/Tests/Slice0.lean ====
section
/-! SUPPORT. Tests against spec/95_test_vectors.md and the encodings of spec/30_encoding.md, and one
witness for every obligation with hypotheses. "V-…", "S…" and "P…" name vectors and programs of
95_test_vectors.md. -/

namespace Sys2Proof.Tests

open Sys2Proof Sys2Proof.Machine

-- One test at a time: kernel evaluations side by side need more memory than a check may use.
set_option Elab.async false

/-! ### Small states -/

/-- The default parameters of R6 with the window at 0x10000. -/
def cfgT : Config := ⟨67, 4096, 4⟩

/-- The state after power-on reset. -/
def s0 : State := State.resetWith cfgT

/-- ARG0-ARG3 written. -/
def withArgs (s : State) (a0 a1 a2 a3 : Word) : State := { s with args := #v[a0, a1, a2, a3] }

/-- The `ctx(m)` of 95_test_vectors.md with its three values written out. -/
def ctx (m mp rm rr : Nat) : State :=
  (((s0.setN 7 m).setN 6 rm).setN 5 rr).setMprime (BitVec.ofNat 31 mp)

/-- The state of a next outcome. -/
def nextState : Out → Option State
  | .next t => some t
  | .fault _ => none
  | .refused _ => none

/-- STATUS after an outcome. -/
def statusAfter (o : Out) : Option Word := (nextState o).map fun t => t.status.word

/-- The state after the events of a schedule, one step each. -/
def after (s : State) (evs : List Event) : Option State := nextState (core.run evs.length { s with sched := evs })

/-- `W` and `R` of R114. -/
def W (off : Nat) (v : Word) : Event := hostW cfgT off v
def R (off : Nat) : Event := hostR cfgT off

/-- BUSY = 1 with a command word in flight. -/
def busyWith (s : State) (w : Word) : State := s.placeCommand w

def ctx17 : State := ctx 17 252645135 9 13
def ctx3233 : State := ctx 3233 1721706655 2194 2932

/-- V-RSA-1: e = 17 in N0, d = 413 in N1, "Hi!" at 0. -/
def rsaHi : State := withArgs (((ctx3233.setN 0 17).setN 1 413).memWrite 0 [0x48, 0x69, 0x21]) 0 3 0x100 6

/-- V-RSA-2: the ciphertext of V-RSA-1 at 0x100. -/
def rsaCipher (cap : Word) : State :=
  withArgs (((ctx3233.setN 0 17).setN 1 413).memWrite 0x100 [0x0b, 0xb8, 0x0c, 0x6b, 0x07, 0x3d]) 0x100 6 0x200 cap

/-- Section 2.3's BUF[0..8) = 01 … 08. -/
def ls : State := withArgs (s0.memWrite 0 [1, 2, 3, 4, 5, 6, 7, 8]) 0 8 0x10 8

/-- V-AES-6. -/
def aesCtr6 : State :=
  { withArgs (s0.memWrite 0 (beBytes 0x6bc1bee22e409f96e93d7e117393172aae2d8a571e03ac9c9eb76fac45af8e51 32))
      0 32 0x40 0 with
    key := #v[0x603deb10, 0x15ca71be, 0x2b73aef0, 0x857d7781, 0x1f352c07, 0x3b6108d7, 0x2d9810a3, 0x0914dff4]
    ctr := #v[0xf0f1f2f3, 0xf4f5f6f7, 0xf8f9fafb, 0xfcfdfeff] }

def countingKey : Vector Word 8 :=
  #v[0x00010203, 0x04050607, 0x08090a0b, 0x0c0d0e0f, 0x10111213, 0x14151617, 0x18191a1b, 0x1c1d1e1f]

/-- The invariant as a test on a concrete state. -/
def invTest (s : State) : Bool :=
  s.cfg.legal && decide (∀ k : RegNo, s.nreg[k].length = s.cfg.lMax) && Memory.wf s.cfg.bufBytes s.buf &&
    decide (s.bufFill < s.draws) &&
    decide (s.status.busy = true →
      s.status.done = false ∧ s.status.err = false ∧ s.status.errcode = .noError) &&
    decide (s.status.err = true → s.status.errcode ≠ .noError)

theorem inv_of_invTest {s : State} (h : invTest s = true) : s.Inv := by
  simp only [invTest, Bool.and_eq_true, decide_eq_true_eq] at h
  obtain ⟨⟨⟨⟨⟨h1, h2⟩, h3⟩, h4⟩, h5⟩, h6⟩ := h
  exact ⟨h1, h2, h3, h4, h5, h6⟩

/-- A next outcome whose state meets a test. -/
theorem next_of_any {o : Out} {p : State → Bool} (h : (nextState o).any p = true) :
    ∃ t, o = .next t ∧ p t = true := by
  cases o with
  | next t => exact ⟨t, rfl, by simpa [nextState] using h⟩
  | fault f => simp [nextState] at h
  | refused r => simp [nextState] at h

/-- An error completion of an outcome. -/
def endsWith (code : ErrCode) (t : State) : Bool := t.status.errcode == code

/-! ### Well-formedness: ill-formed terms are refused (R103) -/

theorem test_loadb_swizzle_16_ill_formed : (Instr.loadb 0 16 true).wellFormed = false := by decide
theorem test_storeb_swizzle_16_ill_formed : (Instr.storeb 0 16).wellFormed = false := by decide
theorem test_swizzle_15_well_formed :
    (Instr.loadb 7 15 true).wellFormed = true ∧ (Instr.storeb 7 15).wellFormed = true := by decide

/-! ### Decode: every constructor, from words written out from R100 and R101 -/

theorem test_decode_nop : decode 0b00000000000000000000000000000000#32 = .ok .nop := by decide
theorem test_decode_loadb :
    decode 0b00000001010000000000001000000001#32 = .ok (.loadb 2 4 true) := by decide
theorem test_decode_storeb : decode 0b00000000010000000011000000000010#32 = .ok (.storeb 3 4) := by decide
theorem test_decode_minv : decode 0b00000000000000000000000000000011#32 = .ok .minv := by decide
theorem test_decode_montmul :
    decode 0b00000000000000010000001000000100#32 = .ok (.montmul 2 0 1) := by decide
theorem test_decode_montexp :
    decode 0b00000000000001100101001100000101#32 = .ok (.montexp 3 5 6) := by decide
theorem test_decode_rsaenc : decode 0b00000000000001000000000000000110#32 = .ok (.rsaenc 4) := by decide
theorem test_decode_rsadec : decode 0b00000000000000010000000000000111#32 = .ok (.rsadec 1) := by decide
theorem test_decode_aeskeyexp : decode 0b00000000000000000000000000001000#32 = .ok .aeskeyexp := by decide
theorem test_decode_aesblk : decode 0b00000000000000000000000000001001#32 = .ok .aesblk := by decide
theorem test_decode_aesctr : decode 0b00000000000000000000000000001010#32 = .ok .aesctr := by decide

/-- Section 2.2's illegal words, each with the reason R104 and R105 give. -/
theorem test_decode_illegal :
    decode 0x0000000B = .error .unassignedOpcode ∧ decode 0x000000FF = .error .unassignedOpcode ∧
    decode 0x00000800 = .error .reservedBits ∧ decode 0x00000103 = .error .unusedField ∧
    decode 0x01000002 = .error .unusedField ∧ decode 0x00001006 = .error .unusedField ∧
    decode 0x00100004 = .error .unusedField ∧ decode 0x02000000 = .error .reservedBits ∧
    decode 0x80000009 = .error .reservedBits := by decide

theorem test_decodeTableWord :
    decodeTableWord 32 0x00403002 = some (.storeb 3 4) ∧ decodeTableWord 32 0x0000000B = none := by decide

/-- A word placed by withFetchWord runs in the very next step after reset (R39, R84). -/
theorem test_fetch_word_runs :
    step (State.reset.withFetchWord 32 0x00010204) =
      exec (.montmul 2 0 1) (State.reset.withFetchWord 32 0x00010204) := rfl

/-- R110-R112: assembler errors. -/
theorem test_assembler_rejects :
    assemble "loadb" ["n8"] = none ∧ assemble "loadb" ["n0", "pz", "swz=4"] = none ∧
    assemble "storeb" ["n3", "pz"] = none ∧ assemble "loadb" ["n0", "swz=16"] = none := by decide

/-! ### The host port (section 2.1) -/

/-- V-ST-1. -/
theorem test_param : (after s0 [R 0x004]).map (·.resp) = some (.readData 0x10000043) := by decide +kernel
/-- V-ST-3. -/
theorem test_digit_write :
    (after s0 [W 0x1000 0xFFFFFFFF, R 0x1000]).map (·.resp) = some (.readData 0x7FFFFFFF) ∧
    (after s0 [W 0x1000 0xFFFFFFFF, R 0x040]).map (·.resp) = some (.readData 1) := by decide +kernel
/-- V-ST-6, V-ST-7. -/
theorem test_nop_run :
    (after s0 [W 0x008 1, R 0x00C]).map (·.resp) = some (.readData 1) ∧
    (after s0 [W 0x008 1, .engine, R 0x00C]).map (·.resp) = some (.readData 2) ∧
    (after s0 [W 0x008 1, .engine, W 0x00C 2, R 0x00C]).map (·.resp) = some (.readData 0) := by decide +kernel
/-- V-ST-8, V-ST-9, V-ST-10. -/
theorem test_busy_accesses :
    (after s0 [W 0x008 1, W 0x010 5, R 0x00C]).map (fun t => (t.resp, t.cmd)) = some (.readData 9, 0) ∧
    (after s0 [W 0x008 1, W 0x008 1, R 0x00C]).map (·.resp) = some (.readData 9) ∧
    (after s0 [W 0x008 1, R 0x000]).map (·.resp) = some (.readData 0x4D504531) := by decide +kernel
/-- V-ST-12: a 16-bit read, a misaligned read; then U10. -/
theorem test_bus_errors :
    (after s0 [.read 0x10000 2]).map (·.resp) = some .busError ∧
    (after s0 [.read 0x10002 4]).map (·.resp) = some .busError ∧
    after s0 [.read 0x13FFC 4] ≠ none ∧ after s0 [.read 0x14000 4] = none := by decide +kernel
/-- V-ST-13, V-ST-11. -/
theorem test_mprime_and_reserved :
    (after s0 [W 0x018 0xFFFFFFFF, R 0x018]).map (·.resp) = some (.readData 0x7FFFFFFF) ∧
    (after s0 [W 0x01C 0x12345678, R 0x01C]).map (·.resp) = some (.readData 0) := by decide +kernel
/-- V-ER-3, V-ER-6. -/
theorem test_illegal_and_irq :
    statusAfter (busyWith s0 0x0000000B).engineTurn = some 0x406 ∧
    (after s0 [W 0x008 1, .engine, W 0x008 2]).map (·.irq) = some true := by decide +kernel
/-- V-ER-8: START with SRST is a soft reset only. -/
theorem test_soft_reset_aborts :
    (after (busyWith ls 0x00000002) [W 0x008 5]).map
      (fun t => (t.status.word, t.args, t.bufRead 7, t.draws)) = some (0, #v[0, 0, 0, 0], 8, 2) ∧
    (after (busyWith ls 0x00000002) [W 0x008 5]).map (·.bufRead 0x10) = some (Config.freeByte 1 0x10) :=
  ⟨by decide +kernel, rfl⟩
/-- P4 up to the acknowledge. -/
theorem test_program_p4 :
    (after s0 [W 0x1E00 16, W 0x1000 3, W 0x1200 5, W 0x010 0x00010204, W 0x008 3, .engine, R 0x00C]).map
      (fun t => (t.resp, t.irq, t.nval 2)) = some (.readData 0x206, true, 0) ∧
    (after s0 [W 0x1E00 17, W 0x1000 3, W 0x1200 5, W 0x018 0x0F0F0F0F, W 0x010 0x00010204, W 0x008 3, .engine,
      R 0x1400]).map (fun t => (t.resp, t.irq)) = some (.readData 0x0000000D, true) := by decide +kernel

/-! ### The commands -/

/-- V-LS-1, V-LS-2, V-LS-3. -/
theorem test_loadb :
    (nextState (exec (.loadb 0 0 true) ls)).map (fun t =>
      (t.nval 0, t.used 0, t.readReg (.digit 0 0), t.readReg (.digit 0 1))) =
      some (0x0102030405060708, 2, 0x05060708, 0x02040608) ∧
    (nextState (exec (.loadb 0 4 true) ls)).map (·.nval 0) = some 0x0403020108070605 ∧
    (nextState (exec (.loadb 0 2 true) ls)).map (·.nval 0) = some 0x0201040306050807 := by decide +kernel
/-- V-LS-8, V-LS-9, V-LS-4. -/
theorem test_loadb_capacity_and_append :
    (nextState (exec (.loadb 0 0 true) (withArgs (s0.memWrite 0 (1 :: List.replicate 259 0)) 0 260 0 0))).map
      (fun t => (t.used 0, t.status.word)) = some (67, 2) ∧
    statusAfter (exec (.loadb 0 0 true) (withArgs (s0.memWrite 0 (0x20 :: List.replicate 259 0)) 0 260 0 0)) =
      some 0x506 ∧
    (nextState (exec (.loadb 0 0 false) (withArgs ((s0.setN 0 0x1234).memWrite 0 [0xAA, 0xBB]) 0 2 0 0))).map
      (·.nval 0) = some 0x1234AABB := by decide +kernel
/-- V-LS-11, V-LS-12, V-LS-13. -/
theorem test_storeb :
    (nextState (exec (.storeb 3 0) (withArgs (s0.setN 3 0x0102030405060708) 0 0 0x10 10))).map
      (·.memRead 0x10 10) = some [0, 0, 1, 2, 3, 4, 5, 6, 7, 8] ∧
    (nextState (exec (.storeb 3 0) (withArgs (s0.setN 3 0x0102030405060708) 0 0 0x10 4))).map
      (·.memRead 0x10 4) = some [5, 6, 7, 8] ∧
    (nextState (exec (.storeb 3 4) (withArgs (s0.setN 3 0x0102030405060708) 0 0 0x10 8))).map
      (·.memRead 0x10 8) = some [4, 3, 2, 1, 8, 7, 6, 5] := by decide +kernel
/-- V-LS-14, V-LS-15. -/
theorem test_storeb_errors :
    statusAfter (exec (.storeb 3 4) (withArgs s0 0 0 0x10 6)) = some 0x106 ∧
    statusAfter (exec (.storeb 3 0) (withArgs s0 0 0 4093 4)) = some 0x506 := by decide +kernel
/-- S2 and the table of section 2.4. -/
theorem test_minv :
    (nextState (exec .minv (s0.setN 7 31))).map (fun t => (t.result, t.mprime, t.status.word)) =
      some (1108378657, 1108378657, 2) ∧
    (nextState (exec .minv (s0.setN 7 4611685975477714963))).map (·.result) = some 1469330917 ∧
    statusAfter (exec .minv (s0.setN 7 16)) = some 0x206 ∧ statusAfter (exec .minv s0) = some 0x106 := by
  decide +kernel
/-- S3, V-MM-15 (aliasing), V-MM-10. -/
theorem test_montmul :
    (nextState (exec (.montmul 2 0 1) ((ctx17.setN 0 7).setN 1 15))).map (·.nval 2) = some 6 ∧
    (nextState (exec (.montmul 0 0 0) (ctx17.setN 0 7))).map (·.nval 0) = some 13 ∧
    mm (4611685975477714963 - 1) (4611685975477714963 - 2) 4611685975477714963 1469330917 =
      574863902522431657 := by decide +kernel
/-- V-ME-1 with the exponent's register as destination, V-ME-3, V-ME-9. -/
theorem test_montexp :
    (nextState (exec (.montexp 1 0 1) ((ctx3233.setN 0 65).setN 1 17))).map (·.nval 1) = some 2790 ∧
    me 0 0 3233 1721706655 2194 2932 = 1 ∧
    me 72623859790382856 65537 4611685975477714963 1469330917 42949672941 15547781604281 =
      2741049562925350221 := by decide +kernel
/-- V-RSA-1, V-RSA-6. -/
theorem test_rsaenc :
    (nextState (exec (.rsaenc 0) rsaHi)).map (fun t => (t.memRead 0x100 6, t.result, t.readReg (.bufWord 0x40))) =
      some ([0x0b, 0xb8, 0x0c, 0x6b, 0x07, 0x3d], 6, 0x6B0CB80B) ∧
    statusAfter (exec (.rsaenc 0) (withArgs rsaHi 0 3 0x100 5)) = some 0x106 := by decide +kernel
/-- V-RSA-2, V-RSA-3 (the byte after the free ones). -/
theorem test_rsadec :
    (nextState (exec (.rsadec 1) (rsaCipher 16))).map (fun t => (t.memRead 0x200 3, t.result)) =
      some ([0x48, 0x69, 0x21], 3) ∧
    (nextState (exec (.rsadec 1) ((rsaCipher 2).memWrite 0x202 [0x77]))).map (fun t =>
      (t.status.word, t.result, t.bufRead 0x202)) = some (0x306, 0, 0x77) := by decide +kernel
/-- V-AES-4. -/
theorem test_aeskeyexp :
    (nextState (exec .aeskeyexp s0)).map (fun t => (t.rk[8], t.rk[11], t.rk[59])) =
      some (0x62636363, 0x62636363, 0xcb706385) := by decide +kernel
/-- V-AES-2 (in place), V-AES-3. -/
theorem test_aesblk :
    (nextState (exec .aesblk { withArgs (s0.memWrite 0 (beBytes 0x00112233445566778899aabbccddeeff 16)) 0 0 0 0 with
      key := countingKey })).map (fun t => beVal (t.memRead 0 16)) =
      some 0x8ea2b7ca516745bfeafc49904b496089 ∧
    statusAfter (exec .aesblk (withArgs s0 0 0 4081 0)) = some 0x506 := by decide +kernel
/-- V-AES-6. -/
theorem test_aesctr :
    (nextState (exec .aesctr aesCtr6)).map (fun t => (beVal (t.memRead 0x40 32), t.ctr[3], t.rk[59])) =
      some (0x601ec313775789a5b7a7f504bbf3d228f443e3ca4d62b59aca84e990cacaf5c5, 0xfcfdff01, 0x706c631e) := by
  decide +kernel
/-- V-AES-7: the counter wraps, and the partial chunk counts. -/
theorem test_aesctr_wrap :
    (nextState (exec .aesctr { withArgs (s0.memWrite 0 (List.replicate 20 0)) 0 20 0x40 0 with
      key := countingKey, ctr := Vector.replicate 4 0xffffffff })).map (fun t =>
        (beVal (t.memRead 0x40 20), t.ctr)) =
      some (0xe999e41d4ca770da5387117b5d8f57eef29000b6, #v[0, 0, 0, 1]) := by decide +kernel
/-- The field values of section 2.6. -/
theorem test_field_and_sbox :
    xtime 0x57 = 0xae ∧ xtime 0xae = 0x47 ∧ xtime 0x80 = 0x1b ∧ gfMul 0x57 0x13 = 0xfe ∧
    sbox 0x00 = 0x63 ∧ sbox 0x01 = 0x7c ∧ sbox 0x53 = 0xed ∧ sbox 0xff = 0x16 := by decide


/-! ### Witnesses: a state and operands that meet each obligation's hypotheses, clause by clause -/

theorem witness_DecodeOfEncode : (Instr.loadb 7 15 true).wellFormed = true := by decide
theorem witness_EncodeOfDecode : decode 0x01F00701 = .ok (.loadb 7 15 true) := by decide
theorem witness_OpcodeTableIsTheDecoder :
    (⟨"LOADB", 0x00000001, 0xFE0FF8FF⟩ : OpRow) ∈ opTable ∧
    (⟨"LOADB", 0x00000001, 0xFE0FF8FF⟩ : OpRow).holds 0x01F00701 = true := by decide
/-- The last legal opcode and the first unassigned one; an illegal word in flight. -/
theorem witness_IllegalCommands :
    decode 0x0000000A = .ok .aesctr ∧ decode 0x0000000B = .error .unassignedOpcode ∧
    decode (busyWith s0 0x0000000B).cmd = .error .unassignedOpcode ∧
    (busyWith s0 0x0000000B).status.busy = true := by decide +kernel

theorem witness_StepRunsTheDecodedCommand :
    (busyWith s0 0x00010204).status.busy = true ∧ decode (busyWith s0 0x00010204).cmd = .ok (.montmul 2 0 1) ∧
    (busyWith s0 0x00010204).sched = [] ∧
    ({ busyWith s0 0x00010204 with sched := [.engine] } : State).sched = .engine :: [] := by decide +kernel
theorem witness_StepTakesTheFirstEvent :
    ({ s0 with sched := [.engine] } : State).sched = .engine :: [] ∧ s0.status.busy = false ∧ s0.sched = [] := by
  decide +kernel
theorem witness_WriteStartComplete :
    s0.status.busy = false ∧ decode 0x00010204 = .ok (.montmul 2 0 1) ∧
    (1#32).getLsbD 0 = true ∧ (1#32).getLsbD 2 = false ∧
    ({ s0 with sched := [W 0x010 0x00010204, W 0x008 1, .engine] } : State).sched =
      hostW s0.cfg 0x010 0x00010204 :: hostW s0.cfg 0x008 1 :: .engine :: [] := by decide +kernel
/-- START on an idle block, no START, SRST, START on a busy block. -/
theorem witness_CtrlWriteStartsOrSetsIrqen :
    ((3#32).getLsbD 0 = true ∧ (3#32).getLsbD 2 = false ∧ s0.status.busy = false) ∧
    ((2#32).getLsbD 0 = false ∧ (2#32).getLsbD 2 = false) ∧ (7#32).getLsbD 2 = true ∧
    ((1#32).getLsbD 0 = true ∧ (1#32).getLsbD 2 = false ∧ (busyWith s0 0).status.busy = true) := by
  decide +kernel
theorem witness_BusyChangesOnlyByLifecycle :
    (∃ t, step { s0 with sched := [W 0x008 1] } = .next t ∧ t.status.busy = true) ∧
    (∃ t, step (busyWith s0 0) = .next t ∧ (!t.status.busy) = true) :=
  ⟨next_of_any (p := fun t => t.status.busy) (by decide +kernel),
    next_of_any (p := fun t => !t.status.busy) (by decide +kernel)⟩
theorem witness_NothingMovesWhileBusy :
    ∃ t, step { busyWith s0 0 with sched := [W 0x010 5] } = .next t ∧ t.status.busy = true :=
  next_of_any (p := fun t => t.status.busy) (by decide +kernel)
theorem witness_OutcomeIgnoresAccessesWhileBusy :
    (∃ t, step { busyWith ls 1 with sched := [W 0x020 5] } = .next t ∧ t.status.busy = true) ∧
    (∃ t, exec (.loadb 0 0 false) { busyWith ls 1 with sched := [W 0x020 5] } = .next t ∧
      t.status.done = true) :=
  ⟨next_of_any (p := fun t => t.status.busy) (by decide +kernel),
    next_of_any (p := fun t => t.status.done) (by decide +kernel)⟩
theorem witness_BusyEndsWithinTheSchedule :
    ∃ s : State, s.status.busy = true ∧ s.SafeSched ∧ s.sched.length = 3 := by
  refine ⟨{ busyWith s0 0 with sched := [R 0x000, W 0x3FFC 1, .read 0x10001 2] }, by decide +kernel, ?_, rfl⟩
  intro e he
  have hT : cfgT.baseAddr = 0x10000 := by decide +kernel
  have hi : ∀ c : Config, c = cfgT → e.inside c := by
    rintro c rfl
    simp only [List.mem_cons, List.not_mem_nil, or_false] at he
    rcases he with rfl | rfl | rfl <;> simp [R, W, hostR, hostW, Event.inside, hT]
  exact hi _ rfl
theorem witness_OnlyOutsideAccessesStop :
    ∃ e, ({ s0 with sched := [.read 0x14000 4] } : State).sched = e :: [] ∧ ¬ e.inside s0.cfg := by
  have hc : s0.cfg.baseAddr = 0x10000 := by decide +kernel
  exact ⟨.read 0x14000 4, rfl, by simp [Event.inside, hc]⟩
/-- The first and last bytes of the window, and the bytes next to it. -/
theorem witness_RefusedAccessesChangeNothing :
    (s0.cfg.baseAddr ≤ 0x10000 ∧ 0x10000 < s0.cfg.baseAddr + 0x4000 ∧ (2 : Nat) ≠ 4) ∧
    (s0.cfg.baseAddr ≤ 0x13FFF ∧ 0x13FFF < s0.cfg.baseAddr + 0x4000 ∧ (0x13FFF - s0.cfg.baseAddr) % 4 ≠ 0) ∧
    0xFFFF < s0.cfg.baseAddr ∧ s0.cfg.baseAddr + 0x4000 ≤ 0x14000 := by decide +kernel
theorem witness_RegistersReadAtTheirOffsets : s0.Inv ∧ s0.status.busy = false ∧ 66 < s0.cfg.lMax ∧
    4 * 1023 < s0.cfg.bufBytes := ⟨inv_of_invTest (by decide +kernel), by decide +kernel⟩
/-- The edges of every reserved range, with what the model answers there. -/
theorem witness_ReservedOffsetsReadZeroIgnoreWrites :
    cfgT.legal = true ∧ s0.status.busy = false ∧
    (∀ off ∈ [0x01C, 0x030, 0x03C, 0x060, 0x07C, 0x0B0, 0x0FC, 0x1F0, 0xFFC, 0x1000 + 4 * 67, 0x11FC,
      0x1E00 + 4 * 67, 0x1FFC, 0x3000, 0x3FFC], off % 4 = 0 ∧ windowAt cfgT off = .reserved) ∧
    (∀ off ∈ [0x018, 0x020, 0x02C, 0x040, 0x05C, 0x080, 0x0AC, 0x100, 0x1EC, 0x1000, 0x1108, 0x1F08, 0x2000,
      0x2FFC], windowAt cfgT off ≠ .reserved) := by decide +kernel
theorem witness_IdleWritesStoreOrAreIgnored : s0.status.busy = false := by decide +kernel
theorem witness_DigitWriteDropsTheTopBit : s0.Inv ∧ s0.status.busy = false ∧ 66 < s0.cfg.lMax :=
  ⟨inv_of_invTest (by decide +kernel), by decide +kernel⟩
theorem witness_BufByteLanes : s0.cfg.legal = true ∧ s0.status.busy = false ∧ 4 * 1023 < s0.cfg.bufBytes := by
  decide +kernel
theorem witness_UsedReadsTheLength :
    ∃ s : State, s.Inv ∧ s.status.busy = false ∧ s.used 0 = 67 ∧ s.used 1 = 0 :=
  ⟨s0.setN 0 (2 ^ 2077 - 1), inv_of_invTest (by decide +kernel), by decide +kernel⟩
theorem witness_BusyAccessesAreDroppedOrFree :
    (busyWith s0 0).status.busy = true ∧ (busyWith s0 0).cfg.legal = true ∧ 0x3FFC < 0x4000 := by decide +kernel
theorem witness_PowerOnResetValues :
    (∃ t, (busyWith s0 0).event .powerOn = .next t ∧ (!t.status.busy) = true) ∧ State.reset = State.reset :=
  ⟨next_of_any (p := fun t => !t.status.busy) (by decide +kernel), rfl⟩
/-- Aborting STOREB, aborting an illegal command, an idle block. -/
theorem witness_SoftResetAbortsAndRestores :
    (4#32).getLsbD 2 = true ∧ decode (busyWith s0 0x00000002).cmd = .ok (.storeb 0 0) ∧
    (busyWith s0 0x00000002).status.busy = true ∧
    decode (busyWith s0 0x0000000B).cmd = .error .unassignedOpcode ∧
    (busyWith s0 0x0000000B).status.busy = true ∧ s0.status.busy = false := by decide +kernel
theorem witness_IrqIsDoneAndEnabled : ∃ t, (busyWith s0 0).event .powerOn = .next t ∧ (!t.irq) = true :=
  next_of_any (p := fun t => !t.irq) (by decide +kernel)
theorem witness_IrqRisesAtCompletionAndFalls :
    (∃ t, exec .nop { busyWith s0 0 with irqen := true } = .next t ∧ t.irq = true) ∧
    (∃ t, (busyWith s0 0x0000000B).event .engine = .next t ∧ t.status.done = true) ∧
    (∃ t, s0.event .engine = .next t ∧ (!t.irq) = true) ∧
    (∃ t, s0.event .powerOn = .next t ∧ (!t.irq) = true) ∧
    (∃ t, s0.event (hostW s0.cfg 0x00C 2) = .next t ∧ (!t.irq) = true) ∧
    (∃ t, s0.event (hostW s0.cfg 0x008 0) = .next t ∧ (!t.irq) = true) ∧
    (∃ t, (busyWith s0 0).event (hostW s0.cfg 0x008 3) = .next t ∧ t.status.busy = true) ∧
    (∃ t, s0.event (.read 0x10001 1) = .next t ∧ (!t.irq) = true) ∧
    (∃ t, s0.event (.write 0x10008 2 4) = .next t ∧ (!t.irq) = true) :=
  ⟨next_of_any (p := fun t => t.irq) (by decide +kernel),
    next_of_any (p := fun t => t.status.done) (by decide +kernel),
    next_of_any (p := fun t => !t.irq) (by decide +kernel), next_of_any (p := fun t => !t.irq) (by decide +kernel),
    next_of_any (p := fun t => !t.irq) (by decide +kernel),
    next_of_any (p := fun t => !t.irq) (by decide +kernel),
    next_of_any (p := fun t => t.status.busy) (by decide +kernel),
    next_of_any (p := fun t => !t.irq) (by decide +kernel), next_of_any (p := fun t => !t.irq) (by decide +kernel)⟩
theorem witness_ResetMeetsTheInvariant :
    (⟨1, 16, 0⟩ : Config).legal = true ∧ (⟨128, 8192, 7⟩ : Config).legal = true := by decide
theorem witness_StepKeepsTheInvariant :
    (busyWith s0 1).Inv ∧ ∃ t, step (busyWith s0 1) = .next t ∧ t.status.done = true :=
  ⟨inv_of_invTest (by decide +kernel), next_of_any (p := fun t => t.status.done) (by decide +kernel)⟩

/-- One completion that succeeds for every command. -/
theorem witness_CommandsKeepEveryOtherRegister :
    ∀ p ∈ ([(.nop, s0), (.loadb 7 15 true, withArgs s0 4096 0 0 0), (.storeb 3 4, ls), (.minv, ctx17),
        (.montmul 2 2 3, ctx17), (.montexp 2 2 3, ctx3233), (.rsaenc 0, rsaHi), (.rsadec 1, rsaCipher 3),
        (.aeskeyexp, s0), (.aesblk, s0), (.aesctr, withArgs ls 0 8 4 0)] : List (Instr × State)),
      ∃ t, exec p.1 p.2 = .next t ∧ endsWith .noError t = true := by
  intro p hp
  simp only [List.mem_cons, List.not_mem_nil, or_false] at hp
  rcases hp with rfl | rfl | rfl | rfl | rfl | rfl | rfl | rfl | rfl | rfl | rfl <;>
    exact next_of_any (by decide +kernel)
theorem witness_RegisterCommandsKeepEveryByte :
    ∃ t, exec (.montexp 2 2 3) ctx3233 = .next t ∧ endsWith .noError t = true := next_of_any (by decide +kernel)
theorem witness_StoringCommandsKeepOtherBytes :
    ∃ t, exec (.rsadec 1) (rsaCipher 3) = .next t ∧ endsWith .noError t = true := next_of_any (by decide +kernel)
/-- A check that fails, and RSADEC failing inside its loop (V-RSA-3). -/
theorem witness_FailedCommandsHaveNoEffect :
    (∃ t, exec (.storeb 0 0) (withArgs s0 0 0 4093 4) = .next t ∧ endsWith .outOfRange t = true) ∧
    (∃ t, exec (.rsadec 1) (rsaCipher 2) = .next t ∧ endsWith .capacityExceeded t = true) :=
  ⟨next_of_any (by decide +kernel), next_of_any (by decide +kernel)⟩

theorem witness_NopHasNoEffect :
    (busyWith s0 0).status = ⟨true, false, false, false, .noError⟩ ∧
    ∃ t, exec .nop (busyWith s0 0) = .next t ∧ endsWith .noError t = true :=
  ⟨by decide +kernel, next_of_any (by decide +kernel)⟩
/-- The last source range of BUF, the largest value 67 digits hold; and n = 0. -/
theorem witness_LoadbLoadsTheValue :
    (let s := withArgs (s0.memWrite 4088 [1, 2, 3, 4, 5, 6, 7, 8]) 4088 8 0 0
     s.srcLen % 4 = 0 ∧ s.srcAddr + s.srcLen ≤ s.cfg.bufBytes ∧
       beVal (swizzleBy 4 (s.memRead s.srcAddr s.srcLen)) < radix ^ s.cfg.lMax) ∧
    (let s := withArgs (s0.setN 0 (2 ^ 2077 - 1)) 4096 0 0 0
     s.srcLen % 15 = 0 ∧ s.srcAddr + s.srcLen ≤ s.cfg.bufBytes ∧
       s.nval 0 * 256 ^ s.srcLen + beVal (swizzleBy 15 (s.memRead s.srcAddr s.srcLen)) < radix ^ s.cfg.lMax) := by
  decide +kernel
theorem witness_StorebStoresTheBytes :
    (withArgs s0 0 0 4088 8).dstLen % 4 = 0 ∧ (withArgs s0 0 0 4088 8).dstAddr + (withArgs s0 0 0 4088 8).dstLen ≤
      s0.cfg.bufBytes := by decide +kernel
theorem witness_SwizzleReversesEachGroup :
    1 ≤ 4 ∧ ([1, 2, 3, 4, 5, 6, 7, 8] : List Byte).length % 4 = 0 ∧
    swizzle [1, 2, 3, 4, 5, 6, 7, 8] 4 = [4, 3, 2, 1, 8, 7, 6, 5] := by decide
theorem witness_LoadThenStoreWritesBack :
    ls.srcLen % 4 = 0 ∧ ls.dstLen = ls.srcLen ∧ 256 ^ ls.srcLen ≤ radix ^ ls.cfg.lMax ∧
    ls.srcAddr + ls.srcLen ≤ ls.cfg.bufBytes ∧ ls.dstAddr + ls.dstLen ≤ ls.cfg.bufBytes := by decide +kernel
/-- V-LS-6, V-LS-7, V-LS-9, V-LS-14, V-LS-15, V-AES-3, V-AES-9: the premise of each clause, at its edge. -/
theorem witness_TransferAndAesErrorsInOrder :
    (withArgs s0 0 3 0 0).srcLen % 4 ≠ 0 ∧
    4096 < (withArgs s0 4093 4 0 0).srcAddr + (withArgs s0 4093 4 0 0).srcLen ∧
    radix ^ 67 ≤ beVal ((withArgs (s0.memWrite 0 (0x20 :: List.replicate 259 0)) 0 260 0 0).memRead 0 260) ∧
    (withArgs s0 0 0 0x10 6).dstLen % 4 ≠ 0 ∧
    4096 < (withArgs s0 0 0 4093 4).dstAddr + (withArgs s0 0 0 4093 4).dstLen ∧
    4096 < (withArgs s0 4081 0 0 0).srcAddr + 16 ∧ 4096 < (withArgs s0 0 0 4081 0).dstAddr + 16 ∧
    4096 < (withArgs s0 4090 17 0 0).srcAddr + (withArgs s0 4090 17 0 0).srcLen ∧
    4096 < (withArgs s0 0 17 4090 0).dstAddr + (withArgs s0 0 17 4090 0).srcLen := by decide +kernel

/-- The table of section 2.4: a value, both corners, m = 0, m even. -/
theorem witness_MinvFindsTheInverse :
    (s0.setN 7 31).nval 7 = 31 ∧ (s0.setN 7 1).nval 7 = 1 ∧ (s0.setN 7 (2 ^ 31 - 1)).nval 7 = 2 ^ 31 - 1 ∧
    s0.nval 7 = 0 ∧ (s0.setN 7 16).nval 7 % 2 = 0 ∧ (s0.setN 7 16).nval 7 ≠ 0 := by decide +kernel
/-- ctx(n62) and ctx(1), the largest x and y. -/
theorem witness_MontgomeryProductLaws :
    (4611685975477714963 % 2 = 1 ∧ (4611685975477714963 * 1469330917 + 1) % 2 ^ 31 = 0 ∧
      4611685975477714962 < 4611685975477714963 ∧ len 4611685975477714963 = 2) ∧
    (1 % 2 = 1 ∧ (1 * 2147483647 + 1) % 2 ^ 31 = 0 ∧ 0 < 1 ∧ len 1 = 1) := by decide +kernel
theorem contextOK_ctx3233 (s : State) (h : s.nreg = rsaHi.nreg) (hm : s.mprime = rsaHi.mprime) : s.ContextOK := by
  unfold State.ContextOK State.nval
  rw [h, hm]
  decide +kernel
theorem witness_MontmulIsTheProduct :
    ∃ s : State, s.Inv ∧ s.ContextOK ∧ s.nval 0 < s.nval 7 ∧ s.nval 1 < s.nval 7 :=
  ⟨(ctx17.setN 0 16).setN 1 15, inv_of_invTest (by decide +kernel),
    by unfold State.ContextOK; decide +kernel, by decide +kernel⟩
theorem witness_LadderIsThePower :
    3233 % 2 = 1 ∧ (3233 * 1721706655 + 1) % 2 ^ 31 = 0 ∧ 3232 < 3233 ∧ 5 ≤ bitlen 17 := by decide +kernel
theorem witness_MontexpIsThePower :
    ∃ s : State, s.Inv ∧ s.ContextOK ∧ s.ResiduesOK ∧ s.nval 1 < s.nval 7 ∧ s.nval 2 = 0 :=
  ⟨rsaHi, inv_of_invTest (by decide +kernel), contextOK_ctx3233 _ rfl rfl,
    by unfold State.ResiduesOK montR; decide +kernel, by decide +kernel⟩
theorem witness_MontexpWithAnyResidues :
    ∃ s : State, s.Inv ∧ s.ContextOK ∧ s.nval 0 < s.nval 7 ∧ s.nval 6 < s.nval 7 ∧ s.nval 5 < s.nval 7 :=
  ⟨ctx 17 252645135 16 0, inv_of_invTest (by decide +kernel), by unfold State.ContextOK; decide +kernel,
    by decide +kernel⟩
/-- V-MM-14, V-MM-12, V-MM-13, V-MM-11, V-ME-7. -/
theorem witness_MontgomeryErrorsInOrder :
    s0.nval 7 = 0 ∧ ((s0.setN 7 16).nval 7 ≠ 0 ∧ (s0.setN 7 16).nval 7 % 2 = 0) ∧
    ((s0.setN 7 17).nval 7 % 2 = 1 ∧ ((s0.setN 7 17).nval 7 * (s0.setN 7 17).mprime.toNat + 1) % 2 ^ 31 ≠ 0) ∧
    ((ctx17.setN 0 17).ContextOK ∧ (ctx17.setN 0 17).nval 7 ≤ (ctx17.setN 0 17).nval 0) ∧
    ((ctx17.setN 6 17).ContextOK ∧ (ctx17.setN 6 17).nval 7 ≤ (ctx17.setN 6 17).nval 6) := by
  unfold State.ContextOK
  decide +kernel

theorem witness_RsaInputBlocksAreBelowTheModulus :
    0 < 3233 ∧ ([0xFF] : List Byte).length ≤ inBlock 3233 ∧ ([] : List Byte).length ≤ inBlock 1 := by
  decide +kernel
theorem rsaOperandsOK_rsaHi : rsaHi.RsaOperandsOK := by
  unfold State.RsaOperandsOK State.ContextOK
  decide +kernel
theorem rsaOperandsOK_rsaCipher : (rsaCipher 3).RsaOperandsOK ∧ (rsaCipher 2).RsaOperandsOK := by
  unfold State.RsaOperandsOK State.ContextOK
  decide +kernel
theorem residuesOK_rsa : rsaHi.ResiduesOK ∧ (rsaCipher 3).ResiduesOK := by
  unfold State.ResiduesOK montR
  decide +kernel
theorem witness_RsaencEncryptsEachBlock :
    rsaHi.RsaOperandsOK ∧ rsaHi.ResiduesOK ∧ 0 < inBlock (rsaHi.nval 7) ∧
    (rsaHi.srcLen + inBlock (rsaHi.nval 7) - 1) / inBlock (rsaHi.nval 7) * outBlock (rsaHi.nval 7) ≤
      rsaHi.dstLen := ⟨rsaOperandsOK_rsaHi, residuesOK_rsa.1, by decide +kernel⟩
/-- V-RSA-2 with the exact capacity. -/
theorem witness_RsadecDecryptsEachBlock :
    (rsaCipher 3).RsaOperandsOK ∧ (rsaCipher 3).ResiduesOK ∧
    (rsaCipher 3).srcLen % outBlock ((rsaCipher 3).nval 7) = 0 ∧
    (∀ j, j < (rsaCipher 3).srcLen / outBlock ((rsaCipher 3).nval 7) →
      (rsaCipher 3).decFits (fun c => (rsaCipher 3).modExp c ((rsaCipher 3).nval 1)) j) ∧
    (∀ j, j < (rsaCipher 3).srcLen / outBlock ((rsaCipher 3).nval 7) →
      (rsaCipher 3).decFits (fun c => c ^ (rsaCipher 3).nval 1 % (rsaCipher 3).nval 7) j) := by
  refine ⟨rsaOperandsOK_rsaCipher.1, residuesOK_rsa.2, by decide +kernel, ?_, ?_⟩ <;>
    (unfold State.decFits; decide +kernel)
/-- V-RSA-3: two blocks fit, the third does not. -/
theorem witness_RsadecFailsMidRun :
    let s := rsaCipher 2
    s.RsaOperandsOK ∧ s.srcLen % outBlock (s.nval 7) = 0 ∧ 2 < s.srcLen / outBlock (s.nval 7) ∧
    (∀ i, i < 2 → s.decFits (fun c => s.modExp c (s.nval 1)) i) ∧
    ¬ s.decFits (fun c => s.modExp c (s.nval 1)) 2 := by
  refine ⟨rsaOperandsOK_rsaCipher.2, by decide +kernel, by decide +kernel, ?_, ?_⟩ <;>
    (unfold State.decFits; decide +kernel)
/-- V-RSA-8 at the edge, V-RSA-9, V-RSA-6, V-RSA-10. -/
theorem witness_RsaErrorsInOrder :
    (let s := withArgs rsaHi 0 3 4091 6
     s.ContextOK ∧ s.nval 6 < s.nval 7 ∧ s.nval 5 < s.nval 7 ∧ s.cfg.bufBytes < s.dstAddr + s.dstLen) ∧
    (let s := withArgs (ctx 255 16843009 128 64) 0 3 0x100 6
     s.RsaOperandsOK ∧ inBlock (s.nval 7) = 0) ∧
    (let s := withArgs rsaHi 0 3 0x100 5
     s.RsaOperandsOK ∧ s.dstLen < (s.srcLen + inBlock (s.nval 7) - 1) / inBlock (s.nval 7) *
       outBlock (s.nval 7) ∧ s.srcLen % outBlock (s.nval 7) ≠ 0) := by
  unfold State.RsaOperandsOK State.ContextOK
  decide +kernel
/-- P2: "Hi!" modulo 53·61. -/
theorem witness_RsaRoundTrip :
    let s := rsaHi
    s.RsaOperandsOK ∧ s.ResiduesOK ∧ Squarefree (s.nval 7) ∧
    (∀ p : Nat, p.Prime → p ∣ s.nval 7 → s.nval 0 * s.nval 1 % (p - 1) = 1 % (p - 1)) ∧
    0 < inBlock (s.nval 7) ∧
    (let need := (s.srcLen + inBlock (s.nval 7) - 1) / inBlock (s.nval 7) * outBlock (s.nval 7)
     need ≤ s.dstLen ∧ s.srcAddr + s.srcLen ≤ s.dstAddr ∧ s.dstAddr + need ≤ (0x200#32).toNat) ∧
    (∀ j, j * inBlock (s.nval 7) < s.srcLen → s.bufRead (s.srcAddr + j * inBlock (s.nval 7)) ≠ 0) ∧
    (0x200#32).toNat + (16#32).toNat ≤ s.cfg.bufBytes ∧ s.srcLen ≤ (16#32).toNat := by
  have h7 : rsaHi.nval 7 = 3233 := by decide +kernel
  have h0 : rsaHi.nval 0 = 17 := by decide +kernel
  have h1 : rsaHi.nval 1 = 413 := by decide +kernel
  have hib : inBlock 3233 = 1 := by decide +kernel
  have hl : rsaHi.srcLen = 3 := by decide +kernel
  have ha : rsaHi.srcAddr = 0 := by decide +kernel
  have hr : rsaHi.bufRead 0 ≠ 0 ∧ rsaHi.bufRead 1 ≠ 0 ∧ rsaHi.bufRead 2 ≠ 0 := by decide +kernel
  refine ⟨rsaOperandsOK_rsaHi, residuesOK_rsa.1, ?_, ?_, by decide +kernel, by decide +kernel, ?_, by decide +kernel⟩
  · rw [h7, show 3233 = 53 * 61 from rfl, Nat.squarefree_mul (by norm_num)]
    exact ⟨(Nat.prime_iff.mp (by norm_num)).squarefree, (Nat.prime_iff.mp (by norm_num)).squarefree⟩
  · intro p hp hd
    rw [h7, show 3233 = 53 * 61 from rfl] at hd
    rw [h0, h1]
    rcases (Nat.Prime.dvd_mul hp).mp hd with h | h
    · obtain rfl := (Nat.prime_dvd_prime_iff_eq hp (by norm_num)).mp h; rfl
    · obtain rfl := (Nat.prime_dvd_prime_iff_eq hp (by norm_num)).mp h; rfl
  · intro j hj
    rw [h7, hib, hl] at hj
    rw [h7, hib, ha]
    have : j = 0 ∨ j = 1 ∨ j = 2 := by omega
    rcases this with rfl | rfl | rfl
    · exact hr.1
    · exact hr.2.1
    · exact hr.2.2

theorem witness_RoundTransformations :
    (List.replicate 16 (0 : Byte)).length = 16 ∧ (List.replicate 60 (0 : Word)).length = 60 ∧ 14 ≤ 14 := by decide
theorem witness_KeyExpansionRecurrence :
    (∃ t, exec .aeskeyexp s0 = .next t ∧ endsWith .noError t = true) ∧
    (∃ t, exec .aesblk s0 = .next t ∧ endsWith .noError t = true) ∧
    (∃ t, exec .aesctr s0 = .next t ∧ endsWith .noError t = true) :=
  ⟨next_of_any (by decide +kernel), next_of_any (by decide +kernel), next_of_any (by decide +kernel)⟩
theorem witness_AesblkEncryptsOneBlock :
    (withArgs s0 4080 0 0 0).srcAddr + 16 ≤ s0.cfg.bufBytes ∧ (withArgs s0 0 0 4080 0).dstAddr + 16 ≤
      s0.cfg.bufBytes := by decide +kernel
theorem witness_AesctrXorsTheKeystream :
    (withArgs s0 4079 17 0 0).srcAddr + (withArgs s0 4079 17 0 0).srcLen ≤ s0.cfg.bufBytes ∧
    (withArgs s0 0 17 4079 0).dstAddr + (withArgs s0 0 17 4079 0).srcLen ≤ s0.cfg.bufBytes := by decide +kernel
/-- V-AES-6 and back to 0x80 (P3); and in place. -/
theorem witness_AesctrUndoesItself :
    (let s := aesCtr6
     s.srcAddr + s.srcLen ≤ s.cfg.bufBytes ∧ s.dstAddr + s.srcLen ≤ s.cfg.bufBytes ∧
     (0x80#32).toNat + s.srcLen ≤ s.cfg.bufBytes ∧
     ¬ (s.srcAddr < s.dstAddr ∧ s.dstAddr < s.srcAddr + s.srcLen) ∧
     ¬ (s.dstAddr < (0x80#32).toNat ∧ (0x80#32).toNat < s.dstAddr + s.srcLen)) ∧
    (let s := withArgs aesCtr6 0 32 0 0
     ¬ (s.srcAddr < s.dstAddr ∧ s.dstAddr < s.srcAddr + s.srcLen) ∧
     ¬ (s.dstAddr < (0#32).toNat ∧ (0#32).toNat < s.dstAddr + s.srcLen)) := by decide +kernel

theorem witness_AesEncIsTheRoundSequence :
    (keyExpand countingKey.toList).length = 60 ∧ (beBytes 0x00112233445566778899aabbccddeeff 16).length = 16 := by
  decide +kernel

end Sys2Proof.Tests
end

/-! ### The block's events, the invariant over every step and at reset, and the S-box
(00_scope.md R6, R10, R13; 40_command.md R131-R134; 44_aes.md R234; 70_reset_and_hazards.md R300-R302) -/

namespace Sys2Proof.Machine

/-! #### What a step is -/

/-- The engine's turn on a legal command in flight (R133). -/
theorem State.engineTurn_exec {s : State} {i : Instr} (hb : s.status.busy = true) (hd : decode s.cmd = .ok i) :
    s.engineTurn = exec i s :=
  (engineTurn_busy hb).trans (completion_ok hd)

/-- Settles O6: the engine's turn, scheduled or for want of anything scheduled, is `exec`. -/
theorem stepRunsTheDecodedCommand : Obligations.StepRunsTheDecodedCommand := by
  intro s i hb hd
  refine ⟨fun hs => ?_, fun rest hs => ?_⟩
  · rw [step_nil hs, State.engineTurn_exec hb hd]
  · rw [step_cons hs]
    exact State.engineTurn_exec (s := { s with sched := rest }) hb hd

/-- Settles O7: a step is its first scheduled event, and an idle engine's turn changes nothing. -/
theorem stepTakesTheFirstEvent : Obligations.StepTakesTheFirstEvent := by
  refine ⟨fun s e rest hs => step_cons hs, fun s hb => State.engineTurn_idle hb, fun s hb hs => ?_⟩
  rw [step_nil hs, State.engineTurn_idle hb]

/-! #### The flags -/

/-- What the invariant says of STATUS. -/
structure Status.Coherent (st : Status) : Prop where
  busyClear : st.busy = true → st.done = false ∧ st.err = false ∧ st.errcode = .noError
  errCoded : st.err = true → st.errcode ≠ .noError

namespace Status

theorem coherent_reset : Status.reset.Coherent := ⟨by decide, by decide⟩

theorem coherent_start (st : Status) : st.start.Coherent := ⟨fun _ => ⟨rfl, rfl, rfl⟩, by simp⟩

/-- A success leaves ERR as it was, so it must have been clear (log entry 12). -/
theorem coherent_complete {st : Status} (he : st.err = false) : st.complete.Coherent :=
  ⟨by simp, by simp [he]⟩

theorem coherent_fail (st : Status) {code : ErrCode} (hc : code ≠ .noError) : (st.fail code).Coherent :=
  ⟨by simp, fun _ => hc⟩

theorem Coherent.w1c {st : Status} (h : st.Coherent) (w : Word) : (st.w1c w).Coherent where
  busyClear hb := by
    obtain ⟨hd, he, hc⟩ := h.busyClear hb
    simp [hd, he, hc]
  errCoded he := h.errCoded (by simp at he; exact he.1)

theorem Coherent.dropped {st : Status} (h : st.Coherent) : st.dropped.Coherent := ⟨h.busyClear, h.errCoded⟩

end Status

/-! #### The invariant under each operation of the state -/

/-- The reset state of legal parameters meets the invariant (R300, R301). -/
theorem State.resetWith_inv {c : Config} (hc : c.legal = true) : (State.resetWith c).Inv where
  cfgLegal := hc
  nregLength k := by simp [State.resetWith]
  bufWf := rfl
  drawn := Nat.zero_lt_one
  busyClear := Status.coherent_reset.busyClear
  errCoded := Status.coherent_reset.errCoded

/-- Settles O28: the defaults of R6 are legal parameters, and every legal reset state meets the invariant. -/
theorem resetMeetsTheInvariant : Obligations.ResetMeetsTheInvariant :=
  have default_legal : Config.default.legal = true := rfl
  ⟨State.resetWith_inv default_legal, fun _ => State.resetWith_inv⟩

namespace State.Inv

variable {s : State}

theorem coherent (h : s.Inv) : s.status.Coherent := ⟨h.busyClear, h.errCoded⟩

/-- The flags are the only part of the invariant that STATUS enters. -/
theorem setStatus (h : s.Inv) {st : Status} (hst : st.Coherent) : ({ s with status := st } : State).Inv :=
  { h with busyClear := hst.busyClear, errCoded := hst.errCoded }

theorem setIrqen (h : s.Inv) (q : Bool) : ({ s with irqen := q } : State).Inv := { h with }

theorem setSched (h : s.Inv) (rest : List Event) : ({ s with sched := rest } : State).Inv := { h with }

theorem respond (h : s.Inv) (r : BusResp) : (s.respond r).Inv := { h with }

/-- A draw that nothing has used yet. -/
theorem draw (h : s.Inv) : ({ s with draws := s.draws + 1 } : State).Inv :=
  { h with drawn := Nat.lt_succ_of_lt h.drawn }

theorem memWrite (h : s.Inv) (a : Nat) (xs : List Byte) : (s.memWrite a xs).Inv := by
  rw [memWrite_eq]
  exact { h with bufWf := memWrite_wf s a xs h.bufWf }

theorem unspecify (h : s.Inv) (a n : Nat) : (s.unspecify a n).Inv := by
  have hw := (h.memWrite a ((List.range n).map fun j => Config.freeByte s.draws (a + j))).draw
  rwa [memWrite_draws] at hw

theorem setDigit (h : s.Inv) (k : RegNo) (i : Nat) (w : Word) : (s.setDigit k i w).Inv := by
  refine { h with nregLength := fun j => ?_ }
  by_cases hj : k.val = j.val
  · have hk : k = j := Fin.ext hj
    subst hk
    simpa using h.nregLength k
  · have hkeep : (s.nreg.set k (s.nreg[k].set i (w.extractLsb' 0 31)))[j.val] = s.nreg[j.val] :=
      Vector.getElem_set_ne _ _ hj
    exact (congrArg List.length hkeep).trans (h.nregLength j)

theorem failed (h : s.Inv) {code : ErrCode} (hc : code ≠ .noError) : (s.failed code).Inv :=
  { h.setStatus (s.status.coherent_fail hc) with }

theorem succeeded (h : s.Inv) (he : s.status.err = false) (r : Word) : (s.succeeded r).Inv :=
  { h.setStatus (Status.coherent_complete he) with }

/-- Register reset keeps BUF and its draws, and BUF stays canonical (R302). -/
theorem resetRegisters (h : s.Inv) : s.resetRegisters.Inv :=
  { State.resetWith_inv h.cfgLegal with bufWf := h.bufWf, drawn := h.drawn }

/-- Power-on fills BUF from the draw it makes (R300). -/
theorem powerOn (h : s.Inv) : s.powerOn.Inv :=
  { h.resetRegisters with bufWf := rfl, drawn := Nat.lt_succ_self _ }

/-- The abort of a command in flight frees at most its destination (R302). -/
theorem abort (h : s.Inv) : s.abort.Inv := by
  unfold State.abort
  split
  · split
    · exact h.unspecify _ _
    · exact h
  · exact h

theorem softReset (h : s.Inv) : s.softReset.Inv := h.abort.resetRegisters

/-! #### The host port -/

theorem acceptStart (h : s.Inv) (q : Bool) : (s.acceptStart q).Inv :=
  (h.setIrqen q).setStatus s.status.coherent_start

theorem refuseStart (h : s.Inv) (q : Bool) : (s.refuseStart q).Inv :=
  (h.setIrqen q).setStatus h.coherent.dropped

theorem writeCtrl (h : s.Inv) (w : Word) : (s.writeCtrl w).Inv := by
  unfold State.writeCtrl
  split
  · exact h.softReset
  · split
    · split
      · exact h.refuseStart _
      · exact h.acceptStart _
    · exact h.setIrqen _

/-- Whatever stands at the offset, a taken write keeps the invariant (R21-R37). -/
theorem writeReg (h : s.Inv) (r : WindowReg) (w : Word) : (s.writeReg r w).Inv := by
  cases r with
  | ctrl => exact h.writeCtrl w
  | status => exact h.setStatus (h.coherent.w1c w)
  | digit k i => exact h.setDigit k i w
  | bufWord j => exact h.memWrite _ _
  | id | param | result | used | rk | reserved => exact h
  | cmd | mprime | arg | key | ctr => exact { h with }

theorem hostRead (h : s.Inv) (off : Nat) : (s.hostRead off).Inv := by
  unfold State.hostRead
  split
  · exact h.draw.respond _
  · exact h.respond _

theorem hostWrite (h : s.Inv) (off : Nat) (w : Word) : (s.hostWrite off w).Inv := by
  unfold State.hostWrite
  split
  · exact (h.setStatus h.coherent.dropped).respond _
  · exact (h.writeReg _ w).respond _

/-! #### The engine -/

/-- What a successful command leaves before RESULT and STATUS (R38). -/
theorem effect {u : State} {i : Instr} {r : Word} (h : s.Inv) (he : s.Effect u i r) : u.Inv := by
  rw [he.only]
  refine { h with nregLength := fun k => ?_, bufWf := he.wf h.bufWf }
  rcases he.length k with hk | hk
  · exact (congrArg List.length hk).trans (h.nregLength k)
  · exact hk

/-- A completion finds ERR clear, since the block was busy, and raises only nonzero codes (R131, R133). -/
theorem of_exec {t : State} {i : Instr} (h : s.Inv) (hb : s.status.busy = true) (ht : exec i s = .next t) :
    t.Inv := by
  have raised {code : ErrCode} (hc : code.raisable = true) : code ≠ .noError := (code.raisable_iff.1 hc).1
  rcases exec_cases i s with ⟨code, hc, e⟩ | ⟨u, r, he, e⟩ | ⟨_, code, _, hc, _, e⟩ <;>
    obtain rfl := Host.Outcome.next.inj (e.symm.trans ht)
  · exact h.failed (raised hc)
  · have hst : u.status = s.status := by rw [he.only]
    exact (h.effect he).succeeded (by rw [hst]; exact (h.busyClear hb).2.1) r
  · exact (h.unspecify _ _).failed (raised hc)

theorem of_engineTurn {t : State} (h : s.Inv) (ht : s.engineTurn = .next t) : t.Inv := by
  rcases s.engineTurn_cases with ⟨_, e⟩ | ⟨hb, ⟨i, _, e⟩ | ⟨_, _, e⟩⟩ <;> rw [e] at ht
  · obtain rfl := Host.Outcome.next.inj ht
    exact h
  · exact h.of_exec hb ht
  · obtain rfl := Host.Outcome.next.inj ht
    exact h.failed (by decide)

end State.Inv

/-- Settles O29, by the kinds of events a step can handle: the engine's turn, power-on, and the host port's
refusal, read and write. -/
theorem stepKeepsTheInvariant : Obligations.StepKeepsTheInvariant := by
  intro s t h hstep
  rcases step_cases hstep with
    ⟨_, ht⟩ | ⟨e, rest, _, ⟨_, ht⟩ | ⟨_, rfl⟩ | ⟨_, _, _, _, rfl⟩ | ⟨_, _, _, _, rfl⟩ | ⟨_, _, w, _, _, rfl⟩⟩
  · exact h.of_engineTurn ht
  · exact (h.setSched rest).of_engineTurn ht
  · exact (h.setSched rest).powerOn
  · exact (h.setSched rest).respond _
  · exact (h.setSched rest).hostRead _
  · exact (h.setSched rest).hostWrite _ w

/-! #### The S-box -/

/-- The affine map of the S-box on a byte: four rotations of it and the constant 0x63 (R234). -/
def affine (y : Byte) : Byte :=
  y ^^^ y.rotateRight 4 ^^^ y.rotateRight 5 ^^^ y.rotateRight 6 ^^^ y.rotateRight 7 ^^^ 0x63#8

theorem getLsbD_rotateRight_byte (y : Byte) {k i : Nat} (hk : k < 8) (hi : i < 8) :
    (y.rotateRight k).getLsbD i = y.getLsbD ((i + k) % 8) := by
  rw [BitVec.getLsbD_rotateRight, Nat.mod_eq_of_lt hk, Bool.cond_decide]
  split
  · rw [Nat.mod_eq_of_lt (by omega), Nat.add_comm]
  · rw [decide_eq_true hi, Bool.true_and]
    congr 1
    omega

theorem getLsbD_affine (y : Byte) {i : Nat} (hi : i < 8) : (affine y).getLsbD i =
    (y.getLsbD i ^^ y.getLsbD ((i + 4) % 8) ^^ y.getLsbD ((i + 5) % 8) ^^ y.getLsbD ((i + 6) % 8) ^^
      y.getLsbD ((i + 7) % 8) ^^ (0x63#8).getLsbD i) := by
  simp [affine, getLsbD_rotateRight_byte y _ hi]

/-- The map that undoes `affine`: three rotations and the constant 0x05. -/
def affineInverse (z : Byte) : Byte := z.rotateRight 2 ^^^ z.rotateRight 5 ^^^ z.rotateRight 7 ^^^ 0x05#8

theorem affine_affineInverse : ∀ z : Byte, affine (affineInverse z) = z := by decide +kernel

/-- The table of R234 without its affine map is a table of inverses in GF(2^8). -/
theorem gfMul_affineInverse_sbox : ∀ x : Byte, x ≠ 0 → gfMul x (affineInverse (sbox x)) = 1 := by
  decide +kernel

theorem affineInverse_sbox_zero : affineInverse (sbox 0) = 0 := by decide

/-- Settles O54: the witness is the entry with the affine map undone, 0 for 0. -/
theorem sboxIsAffineOfTheInverse : Obligations.SboxIsAffineOfTheInverse := by
  refine fun x => ⟨affineInverse (sbox x), ?_, fun i hi => ?_⟩
  · by_cases hx : x = 0
    · subst hx
      exact .inl ⟨rfl, affineInverse_sbox_zero⟩
    · exact .inr (gfMul_affineInverse_sbox x hx)
  · rw [← getLsbD_affine _ hi, affine_affineInverse]

end Sys2Proof.Machine

/-! ### The host port's registers, the IRQ wire and the frame of the commands
(10_state.md R21-R44; 20_memory.md R72, R74; 40_command.md R131-R134; 70_reset_and_hazards.md R300, R302) -/

namespace Sys2Proof.Machine

/-! #### A command's frame, whatever its outcome -/

/-- R38 for every outcome at once: an error completion is an effect that leaves its registers alone, and
RSADEC's mid-run failure one that stores ARG3 bytes. RESULT is the effect's own only after a success. -/
theorem exec_effect {i : Instr} {s t : State} (h : exec i s = .next t) :
    ∃ u r, s.Effect u i r ∧ t = { u with result := t.result, status := t.status, draws := t.draws } ∧
      t.status.busyErr = s.status.busyErr ∧ (t.status.errcode = .noError → t.result = r) := by
  have raised {code : ErrCode} (hc : code.raisable = true) : code ≠ .noError := (code.raisable_iff.1 hc).1
  rcases exec_cases i s with ⟨code, hc, e⟩ | ⟨u, r, hu, e⟩ | ⟨d, code, rfl, hc, _, e⟩ <;>
    obtain rfl := Host.Outcome.next.inj (e.symm.trans h)
  · have hstep : s.BufStep s s.dstAddr (s.storeWidth i 0) := .refl ..
    exact ⟨s, 0, hstep.effect fun _ _ => Nat.zero_le _, rfl, rfl, fun hok => absurd hok (raised hc)⟩
  · have hbe : u.status.busyErr = s.status.busyErr := by rw [hu.only]
    exact ⟨u, r, hu, rfl, hbe, fun _ => rfl⟩
  · have hstep := State.BufStep.memWrite s s.dstAddr
      ((List.range s.dstLen).map fun j => Config.freeByte s.draws (s.dstAddr + j))
    rw [List.length_map, List.length_range] at hstep
    have hbe : (s.unspecify s.dstAddr s.dstLen).status.busyErr = s.status.busyErr := by
      rw [State.unspecify_status]
    exact ⟨_, s.args[3], hstep.effect (i := .rsadec d) fun _ _ => le_rfl, rfl, hbe,
      fun hok => absurd hok (raised hc)⟩

/-- The range a command may store to (R38), `r` its RESULT when it succeeds. -/
theorem exec_sameBytesOutside {i : Instr} {s t : State} (h : exec i s = .next t) :
    ∃ r, s.SameBytesOutside t s.dstAddr (s.storeWidth i r) ∧ (∀ d, i = .rsadec d → r.toNat ≤ s.dstLen) ∧
      (t.status.errcode = .noError → t.result = r) := by
  obtain ⟨u, r, hu, ht, _, hr⟩ := exec_effect h
  have hbuf : t.buf = u.buf := by rw [ht]
  have hfill : t.bufFill = u.bufFill := by rw [ht]
  exact ⟨r, fun x hx => (State.bufRead_congr hbuf hfill x).trans (hu.outside x hx), hu.fits, hr⟩

theorem State.SameBytesOutside.mono {s t : State} {a n n' : Nat} (h : s.SameBytesOutside t a n) (hn : n ≤ n') :
    s.SameBytesOutside t a n' := fun x hx => h x (by omega)

/-- Nothing is outside an empty range. -/
theorem State.SameBytesOutside.sameBytes {s t : State} {a : Nat} (h : s.SameBytesOutside t a 0) :
    s.SameBytes t := fun x => h x (by omega)

/-- Settles O31: every outcome is the command's own effect, then RESULT, STATUS and the draw counter. -/
theorem commandsKeepEveryOtherRegister : Obligations.CommandsKeepEveryOtherRegister := by
  intro i s t h
  obtain ⟨u, r, hu, ht, hbe, _⟩ := exec_effect h
  have hs := hu.only
  have hnreg : t.nreg = u.nreg := by rw [ht]
  have hmprime : t.mprime = u.mprime := by rw [ht]
  have hctr : t.ctr = u.ctr := by rw [ht]
  have hrk : t.rk = u.rk := by rw [ht]
  refine ⟨?_, ?_, hbe, ?_, ?_, ?_, ?_, ?_, ?_, fun k hk => by rw [hnreg, hu.nreg k hk],
    fun hi => hmprime.trans (hu.mprime hi), fun hi => hctr.trans (hu.ctr hi), fun hi => hrk.trans (hu.rk hi)⟩ <;>
    rw [ht, hs]

/-- Settles O32: the range these six store to is empty. -/
theorem registerCommandsKeepEveryByte : Obligations.RegisterCommandsKeepEveryByte := by
  intro i s t h hi
  obtain ⟨r, hout, _, _⟩ := exec_sameBytesOutside h
  rcases hi with rfl | ⟨_, _, _, rfl⟩ | rfl | ⟨_, _, _, rfl⟩ | ⟨_, _, _, rfl⟩ | rfl <;> exact hout.sameBytes

/-- Settles O33: each range is the command's `storeWidth`, RSADEC's taken at its RESULT or widened to ARG3. -/
theorem storingCommandsKeepOtherBytes : Obligations.StoringCommandsKeepOtherBytes := by
  intro i s t h
  obtain ⟨r, hout, hfit, hr⟩ := exec_sameBytesOutside h
  refine ⟨?_, ?_, ?_, ?_, ?_⟩
  · rintro ⟨_, _, rfl⟩
    exact hout
  · rintro ⟨_, rfl⟩
    exact hout
  · rintro ⟨d, rfl⟩
    refine ⟨hout.mono (hfit d rfl), fun hok => ?_⟩
    rw [hr hok]
    exact hout
  · rintro rfl
    exact hout
  · rintro rfl
    exact hout

/-! #### Accesses that BUSY does not hold up (R134) -/

/-- A read of ID, PARAM, CTRL or STATUS, busy or idle. -/
theorem State.readsAs_legible {s : State} {off : Nat} {r : WindowReg} {w : Word} (hl : r.legibleBusy = true)
    (h1 : off < 0x4000) (h2 : off % 4 = 0) (hr : windowAt s.cfg off = r) (hw : s.readReg r = w) :
    s.ReadsAs off w := by
  subst hr hw
  exact (s.event_read h1 h2).trans (congrArg _ (s.hostRead_shown (.inr hl)))

/-- A write to CTRL or STATUS, busy or idle. -/
theorem State.writeMakes_writable {s t : State} {off : Nat} {r : WindowReg} {w : Word}
    (hl : r.writableBusy = true) (h1 : off < 0x4000) (h2 : off % 4 = 0) (hr : windowAt s.cfg off = r)
    (hw : s.writeReg r w = t) : s.WriteMakes off w t := by
  subst hr hw
  exact (s.event_write w h1 h2).trans (congrArg _ (s.hostWrite_taken w (.inr hl)))

theorem State.writeMakes_ctrl (s : State) (w : Word) : s.WriteMakes 0x008 w (s.writeCtrl w) :=
  writeMakes_writable (r := .ctrl) rfl (by decide) rfl rfl rfl

theorem State.writeMakes_status (s : State) (w : Word) : s.WriteMakes 0x00C w (s.acknowledge w) :=
  writeMakes_writable (r := .status) rfl (by decide) rfl rfl rfl

/-- A write has one outcome. -/
theorem State.WriteMakes.eq_of_event {s t u : State} {off : Nat} {w : Word} (h : s.WriteMakes off w u)
    (ht : s.event (hostW s.cfg off w) = .next t) : t = { u with resp := .writeAck } :=
  Host.Outcome.next.inj (ht.symm.trans h)

/-- Settles O10: STATUS is written and read the same way busy or idle. -/
theorem statusReadAndWriteOneToClear : Obligations.StatusReadAndWriteOneToClear := fun s =>
  ⟨s.writeMakes_status,
    State.readsAs_legible (r := .status) rfl (by decide) rfl rfl s.status.word_eq⟩

/-! #### The registers of an idle block -/

/-- USED counts at least up to every nonzero digit (R32). -/
theorem getD_of_usedDigits_le {ds : List Digit} {i : Nat} (h : usedDigits ds ≤ i) : ds.getD i 0 = 0 := by
  induction ds generalizing i with
  | nil => rfl
  | cons d ds ih =>
    unfold usedDigits at h
    cases i with
    | zero =>
      split at h
      · next hz => exact hz.2
      · omega
    | succ i => exact ih (by split at h <;> omega)

/-- USED counts no zero digit at the top (R32). -/
theorem getD_usedDigits_pred {ds : List Digit} (h : usedDigits ds ≠ 0) : ds.getD (usedDigits ds - 1) 0 ≠ 0 := by
  induction ds with
  | nil => exact absurd rfl h
  | cons d ds ih =>
    unfold usedDigits at h ⊢
    split at h
    · exact absurd rfl h
    · next hz =>
      rw [if_neg hz, Nat.add_sub_cancel]
      by_cases h0 : usedDigits ds = 0
      · rw [h0]
        exact fun hd => hz ⟨h0, hd⟩
      · obtain ⟨n, hn⟩ := Nat.exists_eq_succ_of_ne_zero h0
        have hih := ih h0
        rw [hn] at hih ⊢
        exact hih

theorem State.used_eq_len (s : State) (k : RegNo) : s.used k = len (s.nval k) := usedDigits_eq_len _

/-- A register's value has at most L_MAX digits (R36). -/
theorem State.Inv.len_nval_le {s : State} (h : s.Inv) (k : RegNo) : len (s.nval k) ≤ s.cfg.lMax :=
  (len_le_iff _ _).2 (State.nval_lt h k)

/-- Settles O17, offset by offset, each read through the window map. -/
theorem registersReadAtTheirOffsets : Obligations.RegistersReadAtTheirOffsets := by
  intro s h hb
  have hc := h.cfgLegal
  have hl := (Config.legal_iff _).1 hc
  refine ⟨?_, ?_, ?_, ?_, ?_, ?_, fun k => ?_, fun k => ?_, fun k => ?_, fun k => ?_, fun i => ?_,
    fun k i hi => ?_, fun j hj => ?_⟩
  · exact State.readsAs_idle (r := .id) hb (by decide) rfl rfl rfl
  · exact State.readsAs_idle (r := .param) hb (by decide) rfl rfl (paramWord_eq hc)
  · exact State.readsAs_idle (r := .ctrl) hb (by decide) rfl rfl (ctrlWord_eq _)
  · exact State.readsAs_idle (r := .cmd) hb (by decide) rfl rfl rfl
  · exact State.readsAs_idle (r := .result) hb (by decide) rfl rfl rfl
  · exact State.readsAs_idle (r := .mprime) hb (by decide) rfl rfl (BitVec.ofNat_toNat ..).symm
  · exact State.readsAs_idle hb (by omega) (by omega) (windowAt_arg _ k) rfl
  · exact State.readsAs_idle hb (by omega) (by omega) (windowAt_used _ k)
      (congrArg (BitVec.ofNat 32) (s.used_eq_len k))
  · exact State.readsAs_idle hb (by omega) (by omega) (windowAt_key _ k) rfl
  · exact State.readsAs_idle hb (by omega) (by omega) (windowAt_ctr _ k) rfl
  · exact State.readsAs_idle hb (by omega) (by omega) (windowAt_rk _ i) rfl
  · exact State.readsAs_idle hb (by omega) (by omega) (windowAt_digit hc k hi) (BitVec.ofNat_toNat ..).symm
  · exact State.readsAs_idle hb (by omega) (by omega) (windowAt_bufWord hc hj) (wordOfLanes_eq ..)

/-- Settles O19, offset by offset, each write through the window map. -/
theorem idleWritesStoreOrAreIgnored : Obligations.IdleWritesStoreOrAreIgnored := by
  intro s w hb
  refine ⟨?_, ?_, fun k => ?_, fun k => ?_, fun k => ?_, ?_, ?_, ?_, fun k => ?_, fun i => ?_⟩
  · exact State.writeMakes_idle (r := .cmd) hb (by decide) rfl rfl rfl
  · exact State.writeMakes_idle (r := .mprime) hb (by decide) rfl rfl rfl
  · exact State.writeMakes_idle hb (by omega) (by omega) (windowAt_arg _ k) rfl
  · exact State.writeMakes_idle hb (by omega) (by omega) (windowAt_key _ k) rfl
  · exact State.writeMakes_idle hb (by omega) (by omega) (windowAt_ctr _ k) rfl
  · exact State.writeMakes_idle (r := .id) hb (by decide) rfl rfl rfl
  · exact State.writeMakes_idle (r := .param) hb (by decide) rfl rfl rfl
  · exact State.writeMakes_idle (r := .result) hb (by decide) rfl rfl rfl
  · exact State.writeMakes_idle hb (by omega) (by omega) (windowAt_used _ k) rfl
  · exact State.writeMakes_idle hb (by omega) (by omega) (windowAt_rk _ i) rfl

/-- Settles O22: USED is the digit count that `usedDigits` finds, and a write of it is ignored. -/
theorem usedReadsTheLength : Obligations.UsedReadsTheLength := by
  intro s k h hb
  have hle := h.len_nval_le k
  have hlmax := (Config.legal_iff _).1 h.cfgLegal
  have hv : (BitVec.ofNat 32 (s.used k)).toNat = s.used k := by
    rw [BitVec.toNat_ofNat, s.used_eq_len, Nat.mod_eq_of_lt (by omega)]
  refine ⟨⟨BitVec.ofNat 32 (s.used k), _,
    State.readsAs_idle hb (by omega) (by omega) (windowAt_used _ k) rfl, rfl, ?_⟩, fun w => ⟨.writeAck, ?_⟩⟩
  · rw [hv]
    exact ⟨s.used_eq_len k, (s.used_eq_len k).trans_le hle, fun _ => getD_of_usedDigits_le,
      getD_usedDigits_pred⟩
  · exact State.writeMakes_idle hb (by omega) (by omega) (windowAt_used _ k) rfl

/-! ##### Reserved offsets -/

/-- The gaps between the control registers (R21). -/
theorem controlReg_reserved {off : Nat} (h4 : off % 4 = 0)
    (h : off = 0x01C ∨ 0x030 ≤ off ∧ off < 0x040 ∨ 0x060 ≤ off ∧ off < 0x080 ∨ 0x0B0 ≤ off ∧ off < 0x100 ∨
      0x1F0 ≤ off) : controlReg off = .reserved := by
  unfold controlReg
  simp (disch := omega) only [if_neg, dif_neg]

/-- The digits a register does not have (R22). -/
theorem windowAt_pastDigits {c : Config} (k : RegNo) {i : Nat} (h : c.lMax ≤ i) (hi : i < 128) :
    windowAt c (0x1000 + 0x200 * k.val + 4 * i) = .reserved := by
  have hk := k.isLt
  unfold windowAt
  rw [if_neg (by omega), dif_pos (by omega), if_neg (by omega)]

/-- The offsets past BUF (R23). -/
theorem windowAt_pastBuf {c : Config} {off : Nat} (h : 0x2000 + c.bufBytes ≤ off) :
    windowAt c off = .reserved := by
  unfold windowAt
  rw [if_neg (by omega), dif_neg (by omega), if_neg (by omega)]

/-- RAZ/WI on an idle block. -/
theorem State.razwi_idle {s : State} {off : Nat} (w : Word) (hb : s.status.busy = false) (h1 : off < 0x4000)
    (h2 : off % 4 = 0) (hr : windowAt s.cfg off = .reserved) : s.ReadsAs off 0 ∧ s.WriteMakes off w s :=
  ⟨readsAs_idle hb h1 h2 hr rfl, writeMakes_idle hb h1 h2 hr rfl⟩

/-- Settles O18: the three parts of the window have their reserved offsets. -/
theorem reservedOffsetsReadZeroIgnoreWrites : Obligations.ReservedOffsetsReadZeroIgnoreWrites := by
  intro s off w hc hb h4 hoff
  have control (hlt : off < 0x1000) (h : off = 0x01C ∨ 0x030 ≤ off ∧ off < 0x040 ∨ 0x060 ≤ off ∧ off < 0x080 ∨
      0x0B0 ≤ off ∧ off < 0x100 ∨ 0x1F0 ≤ off) : s.ReadsAs off 0 ∧ s.WriteMakes off w s :=
    s.razwi_idle w hb (by omega) h4 ((windowAt_control _ hlt).trans (controlReg_reserved h4 h))
  rcases hoff with h | h | h | h | h | ⟨k, i, hi, hlt, rfl⟩ | ⟨h, hlt⟩
  iterate 5 exact control (by omega) (by omega)
  · exact s.razwi_idle w hb (by omega) h4 (windowAt_pastDigits k hi hlt)
  · exact s.razwi_idle w hb hlt h4 (windowAt_pastBuf h)

/-! ##### Digit writes -/

/-- Dropping bit 31 and reading it back as 0 is a mask (R37). -/
theorem setWidth_extractLsb'_eq_and (w : Word) : (w.extractLsb' 0 31).setWidth 32 = w &&& 0x7FFFFFFF#32 := by
  apply BitVec.eq_of_toNat_eq
  have hm : (w.extractLsb' 0 31).toNat = w.toNat % 2 ^ 31 := by simp
  rw [BitVec.toNat_and, BitVec.toNat_setWidth, hm, show (0x7FFFFFFF#32).toNat = 2 ^ 31 - 1 from rfl,
    Nat.and_two_pow_sub_one_eq_mod, Nat.mod_eq_of_lt (by omega)]

/-- A digit reads back as its low 31 bits (R37). -/
theorem State.readReg_setDigit {s : State} {k : RegNo} {i : Nat} (w : Word) (h : i < s.nreg[k].length) :
    (s.setDigit k i w).readReg (.digit k i) = w &&& 0x7FFFFFFF#32 := by
  have hreg : (s.setDigit k i w).nreg[k] = s.nreg[k].set i (w.extractLsb' 0 31) := Vector.getElem_set_self _
  have hdigit : (s.nreg[k].set i (w.extractLsb' 0 31)).getD i 0 = w.extractLsb' 0 31 := by
    rw [List.getD_eq_getElem _ _ (by rwa [List.length_set]), List.getElem_set_self]
  calc (s.setDigit k i w).readReg (.digit k i)
      = ((s.setDigit k i w).nreg[k].getD i 0).setWidth 32 := rfl
    _ = w &&& 0x7FFFFFFF#32 := by rw [hreg, hdigit, setWidth_extractLsb'_eq_and]

/-- Settles O20: the write is `setDigit`, and the read finds the digit it set. -/
theorem digitWriteDropsTheTopBit : Obligations.DigitWriteDropsTheTopBit := by
  intro s k i w h hb hi
  have hc := h.cfgLegal
  have hl := (Config.legal_iff _).1 hc
  have hlen : i < s.nreg[k].length := by rwa [h.nregLength k]
  exact ⟨{ s.setDigit k i w with resp := .writeAck }, .writeAck,
    State.writeMakes_idle hb (by omega) (by omega) (windowAt_digit hc k hi) rfl, rfl,
    State.readsAs_idle hb (by omega) (by omega) (windowAt_digit hc k hi) (State.readReg_setDigit w hlen)⟩

/-! #### The IRQ wire -/

namespace State

theorem irq_eq_true_iff (s : State) : s.irq = true ↔ s.status.done = true ∧ s.irqen = true := by
  rw [irq, Bool.and_eq_true]

/-- IRQ is a wire of DONE and IRQEN alone (R44). -/
theorem irq_congr {s t : State} (hd : t.status.done = s.status.done) (hq : t.irqen = s.irqen) :
    t.irq = s.irq := by
  rw [irq, irq, hd, hq]

@[simp] theorem irq_failed (s : State) (code : ErrCode) : (s.failed code).irq = s.irqen := rfl
@[simp] theorem irq_succeeded (s : State) (r : Word) : (s.succeeded r).irq = s.irqen := rfl
@[simp] theorem irq_respond (s : State) (r : BusResp) : (s.respond r).irq = s.irq := rfl
@[simp] theorem irq_powerOn (s : State) : s.powerOn.irq = false := rfl
@[simp] theorem irq_softReset (s : State) : s.softReset.irq = false := rfl
@[simp] theorem irq_acceptStart (s : State) (q : Bool) : (s.acceptStart q).irq = false := rfl
@[simp] theorem irq_dropWrite (s : State) : s.dropWrite.irq = s.irq := rfl

theorem irq_acknowledge (s : State) (w : Word) : (s.acknowledge w).irq = (s.irq && !w.getLsbD 1) :=
  Bool.and_right_comm ..

/-- A CTRL write resets, starts, or leaves DONE under the IRQEN it writes (R131, R134(a), R302). -/
theorem irq_writeCtrl (s : State) (w : Word) : (s.writeCtrl w).irq =
    (!w.getLsbD 2 && (!w.getLsbD 0 || s.status.busy) && (s.status.done && w.getLsbD 1)) := by
  unfold writeCtrl
  split
  · next hr => rw [hr, irq_softReset]; rfl
  · next hr =>
    rw [Bool.eq_false_of_not_eq_true hr]
    split
    · next hs =>
      rw [hs]
      split
      · next hb => rw [hb]; rfl
      · next hb => rw [Bool.eq_false_of_not_eq_true hb, irq_acceptStart]; rfl
    · next hs => rw [Bool.eq_false_of_not_eq_true hs]; rfl

/-- Only CTRL and STATUS reach the wire. -/
theorem irq_writeReg (s : State) {r : WindowReg} (w : Word) (hr : r.writableBusy = false) :
    (s.writeReg r w).irq = s.irq := by
  cases r with
  | ctrl | status => cases hr
  | bufWord j => exact irq_congr (congrArg _ (memWrite_status ..)) (memWrite_irqen ..)
  | id | param | cmd | result | mprime | arg | used | key | ctr | rk | digit | reserved => rfl

theorem irq_hostRead (s : State) (off : Nat) : (s.hostRead off).irq = s.irq := by
  unfold hostRead
  split <;> rfl

theorem irq_hostWrite (s : State) {off : Nat} (w : Word) (h1 : off ≠ 0x008) (h2 : off ≠ 0x00C) :
    (s.hostWrite off w).irq = s.irq := by
  unfold hostWrite
  split
  · rfl
  · exact s.irq_writeReg w (windowAt_writableBusy _ h1 h2)

/-- An access that answers leaves IRQ when its admitted effect does: a refused one changes nothing. -/
theorem irq_access {s t : State} {addr bytes : Nat} {go : Nat → State}
    (hgo : inWindow s.cfg addr = true → admitted (addr - s.cfg.baseAddr) bytes = true →
      (go (addr - s.cfg.baseAddr)).irq = s.irq)
    (h : s.access addr bytes go = .next t) : t.irq = s.irq := by
  rcases s.access_cases addr bytes go with ⟨_, e⟩ | ⟨_, _, e⟩ | ⟨hw, ha, e⟩ <;> rw [e] at h
  · cases h
  · obtain rfl := Host.Outcome.next.inj h
    rfl
  · obtain rfl := Host.Outcome.next.inj h
    exact hgo hw ha

/-- R280: a completion raises IRQ as far as IRQEN lets it. -/
theorem irq_exec {i : Instr} {s t : State} (h : exec i s = .next t) : t.irq = s.irqen := by
  rcases exec_cases i s with ⟨code, _, e⟩ | ⟨u, r, hu, e⟩ | ⟨_, code, _, _, _, e⟩ <;>
    obtain rfl := Host.Outcome.next.inj (e.symm.trans h)
  · exact irq_failed ..
  · rw [irq_succeeded, hu.only]
  · rw [irq_failed, unspecify_irqen]

theorem irq_engineTurn {s t : State} (h : s.engineTurn = .next t) :
    t.irq = if s.status.busy then s.irqen else s.irq := by
  rcases s.engineTurn_cases with ⟨hb, e⟩ | ⟨hb, ⟨i, _, e⟩ | ⟨_, _, e⟩⟩ <;> rw [e] at h <;> rw [hb]
  · obtain rfl := Host.Outcome.next.inj h
    rfl
  · exact irq_exec h
  · obtain rfl := Host.Outcome.next.inj h
    rfl

theorem irq_event_powerOn {s t : State} (h : s.event .powerOn = .next t) : t.irq = false := by
  obtain rfl := Host.Outcome.next.inj h
  exact s.irq_powerOn

end State

/-- Settles O26: the wire is defined as R44 has it, and DONE is 0 at reset and after power-on. -/
theorem irqIsDoneAndEnabled : Obligations.IrqIsDoneAndEnabled :=
  ⟨State.irq_eq_true_iff, rfl, fun _ _ => State.irq_event_powerOn⟩

/-- Settles O27, event by event. -/
theorem irqRisesAtCompletionAndFalls : Obligations.IrqRisesAtCompletionAndFalls := by
  refine ⟨fun _ _ _ => State.irq_exec, fun s t h => ?_, fun _ _ => State.irq_event_powerOn, fun s t w h => ?_,
    fun s t w h => ?_, ?_⟩
  · have hirq := State.irq_engineTurn h
    exact ⟨fun hb => by rwa [hb] at hirq, fun hb => by rwa [hb] at hirq⟩
  · rw [(s.writeMakes_status w).eq_of_event h]
    exact s.irq_acknowledge w
  · have hirq : t.irq = (s.writeCtrl w).irq := by rw [(s.writeMakes_ctrl w).eq_of_event h]; rfl
    rw [hirq, s.irq_writeCtrl]
    constructor
    · rintro (hq | hr | ⟨hs, hb⟩)
      · rw [hq, Bool.and_false, Bool.and_false]
      · rw [hr]; rfl
      · simp only [hs, hb, Bool.not_true, Bool.or_false, Bool.and_false, Bool.false_and]
    · rintro hr (hs | hb)
      · rw [hr, hs]; rfl
      · rw [hr, hb, Bool.or_true]; rfl
  · rintro s t e h (⟨addr, bytes, rfl⟩ | ⟨addr, bytes, w, rfl, hne⟩)
    · exact State.irq_access (fun _ _ => s.irq_hostRead _) h
    · refine State.irq_access (go := fun off => s.hostWrite off w) (fun hw ha => ?_) h
      have hbase := ((inWindow_iff _ _).1 hw).1
      have hbytes : bytes = 4 := by
        rw [admitted, Bool.and_eq_true, beq_iff_eq] at ha
        exact ha.1
      exact s.irq_hostWrite w (by omega) (by omega)

end Sys2Proof.Machine

/-! ### What stops, what moves while busy, the BUF window, and the commands' block loops
(20_memory.md R71-R81; 40_command.md R131-R135; 43_rsa.md R212, R216; 44_aes.md R251, R252) -/

namespace Sys2Proof.Machine

/-! #### Accesses that are not admitted (R71) -/

theorem State.access_outside {s : State} {addr : Nat} (bytes : Nat) (go : Nat → State)
    (h : ¬ (s.cfg.baseAddr ≤ addr ∧ addr < s.cfg.baseAddr + 0x4000)) :
    s.access addr bytes go = .fault .outsideWindow :=
  if_neg (mt (inWindow_iff _ _).1 h)

theorem State.access_refused {s : State} {addr bytes : Nat} (go : Nat → State)
    (hw : s.cfg.baseAddr ≤ addr ∧ addr < s.cfg.baseAddr + 0x4000)
    (h : bytes ≠ 4 ∨ (addr - s.cfg.baseAddr) % 4 ≠ 0) : s.access addr bytes go = .next (s.respond .busError) := by
  have ha : ¬ admitted (addr - s.cfg.baseAddr) bytes = true := by
    rw [admitted, Bool.and_eq_true, beq_iff_eq, beq_iff_eq]
    exact not_and_or.2 h
  exact (if_pos ((inWindow_iff _ _).2 hw)).trans (if_neg ha)

theorem State.access_next_of_inside {s : State} {addr : Nat} (bytes : Nat) (go : Nat → State)
    (hw : s.cfg.baseAddr ≤ addr ∧ addr < s.cfg.baseAddr + 0x4000) : ∃ t, s.access addr bytes go = .next t := by
  rcases s.access_cases addr bytes go with ⟨h, _⟩ | ⟨_, _, e⟩ | ⟨_, _, e⟩
  · rw [(inWindow_iff _ _).2 hw] at h
    cases h
  · exact ⟨_, e⟩
  · exact ⟨_, e⟩

/-- Settles O16: a refused access is the port's bus error alone, and one outside is not decoded. -/
theorem refusedAccessesChangeNothing : Obligations.RefusedAccessesChangeNothing := by
  refine fun s addr bytes w => ⟨fun h1 h2 hbad => ?_, fun hout => ?_⟩
  · exact ⟨State.access_refused s.hostRead ⟨h1, h2⟩ hbad,
      State.access_refused (fun off => s.hostWrite off w) ⟨h1, h2⟩ hbad⟩
  · have hw : ¬ (s.cfg.baseAddr ≤ addr ∧ addr < s.cfg.baseAddr + 0x4000) := by omega
    exact ⟨State.access_outside bytes s.hostRead hw,
      State.access_outside bytes (fun off => s.hostWrite off w) hw⟩

/-! #### What stops the machine -/

/-- Every command completes, and leaves the block idle (R133, R136). -/
theorem exec_next (i : Instr) (s : State) : ∃ t, exec i s = .next t ∧ t.status.busy = false := by
  rcases exec_cases i s with ⟨_, _, e⟩ | ⟨_, _, _, e⟩ | ⟨_, _, _, _, _, e⟩ <;> exact ⟨_, e, rfl⟩

theorem State.engineTurn_next (s : State) : ∃ t, s.engineTurn = .next t ∧ t.status.busy = false := by
  rcases s.engineTurn_cases with ⟨hb, e⟩ | ⟨_, ⟨i, _, e⟩ | ⟨_, _, e⟩⟩
  · exact ⟨s, e, hb⟩
  · rw [e]
    exact exec_next i s
  · exact ⟨_, e, rfl⟩

theorem State.event_next_of_inside {s : State} {e : Event} (h : e.inside s.cfg) : ∃ t, s.event e = .next t := by
  cases e with
  | read addr bytes => exact access_next_of_inside bytes s.hostRead h
  | write addr bytes w => exact access_next_of_inside bytes (fun off => s.hostWrite off w) h
  | engine => exact s.engineTurn_next.imp fun _ h => h.1
  | powerOn => exact ⟨_, rfl⟩

theorem State.event_outside {s : State} {e : Event} (h : ¬ e.inside s.cfg) :
    s.event e = .fault .outsideWindow := by
  cases e with
  | read addr bytes => exact access_outside bytes s.hostRead h
  | write addr bytes w => exact access_outside bytes (fun off => s.hostWrite off w) h
  | engine | powerOn => exact absurd trivial h

/-- Settles O15: the engine's turn always answers a next state, and so does every event in the window. -/
theorem onlyOutsideAccessesStop : Obligations.OnlyOutsideAccessesStop := by
  intro s
  cases hs : s.sched with
  | nil =>
    obtain ⟨t, ht, _⟩ := s.engineTurn_next
    rw [step_nil hs, ht]
    simp
  | cons e rest =>
    rw [step_cons hs]
    by_cases hin : e.inside s.cfg
    · obtain ⟨t, ht⟩ := State.event_next_of_inside (s := { s with sched := rest }) hin
      rw [ht]
      simp [hin]
    · rw [State.event_outside (s := { s with sched := rest }) hin]
      exact ⟨⟨fun _ => ⟨e, rest, rfl, hin⟩, fun _ => ⟨_, rfl⟩⟩, nofun⟩

/-! #### The busy block -/

/-- All that a step may do to a block that stays busy: IRQEN, the flags, the model's own port fields. -/
structure State.Held (s t : State) : Prop where
  errcode : t.status.errcode = s.status.errcode
  only : t = { s with irqen := t.irqen, status := t.status, draws := t.draws, sched := t.sched, resp := t.resp }

namespace State

variable {s : State}

/-- R134(a): START while busy is refused; what does not end the command moves nothing. -/
theorem held_writeCtrl {w : Word} (hb : s.status.busy = true) (hw : (s.writeCtrl w).status.busy = true) :
    s.Held (s.writeCtrl w) := by
  unfold writeCtrl at hw ⊢
  split at hw
  · cases hw
  · rw [if_neg ‹_›, if_pos hb]
    split <;> exact ⟨rfl, rfl⟩

/-- R134(a), (b): the two registers a busy block's write reaches. -/
theorem held_writeReg {r : WindowReg} {w : Word} (hr : r.writableBusy = true) (hb : s.status.busy = true)
    (hw : (s.writeReg r w).status.busy = true) : s.Held (s.writeReg r w) := by
  cases r with
  | ctrl => exact held_writeCtrl hb hw
  | status => exact ⟨rfl, rfl⟩
  | _ => cases hr

theorem Held.respond {t : State} (h : s.Held t) (r : BusResp) : s.Held (t.respond r) :=
  ⟨h.errcode, by rw [h.only]; rfl⟩

theorem held_hostRead (off : Nat) : s.Held (s.hostRead off) := by
  unfold hostRead
  split <;> exact ⟨rfl, rfl⟩

theorem held_hostWrite {off : Nat} {w : Word} (hb : s.status.busy = true)
    (hw : (s.hostWrite off w).status.busy = true) : s.Held (s.hostWrite off w) := by
  cases hr : (windowAt s.cfg off).writableBusy
  · rw [hostWrite_dropped w hb hr]
    exact ⟨rfl, rfl⟩
  · rw [hostWrite_taken w (.inr hr)] at hw ⊢
    exact (held_writeReg hr hb hw).respond _

theorem engineTurn_not_busy {t : State} (h : s.engineTurn = .next t) : t.status.busy = false := by
  obtain ⟨u, hu, hbusy⟩ := s.engineTurn_next
  obtain rfl := Host.Outcome.next.inj (hu.symm.trans h)
  exact hbusy

/-- Taking the event off the schedule is one of the changes `Held` allows. -/
theorem Held.of_sched {t : State} {rest : List Event} (h : ({ s with sched := rest } : State).Held t) : s.Held t :=
  ⟨h.errcode, h.only⟩

end State

/-- Settles O12, by the kinds of events: the engine's turn and power-on leave the block idle. -/
theorem nothingMovesWhileBusy : Obligations.NothingMovesWhileBusy := by
  intro s t hstep hb ht
  have held : s.Held t := by
    rcases step_cases hstep with
      ⟨_, h⟩ | ⟨e, rest, _, ⟨_, h⟩ | ⟨_, rfl⟩ | ⟨_, _, _, _, rfl⟩ | ⟨_, _, _, _, rfl⟩ | ⟨_, _, w, _, _, rfl⟩⟩
    · rw [State.engineTurn_not_busy h] at ht
      cases ht
    · rw [State.engineTurn_not_busy h] at ht
      cases ht
    · cases ht
    · exact ⟨rfl, rfl⟩
    · exact (State.held_hostRead _).of_sched
    · exact (State.held_hostWrite (s := { s with sched := rest }) hb ht).of_sched
  exact ⟨held.errcode, held.only⟩

/-! #### The RUN macro (R114) -/

/-- A scheduled host write, as the next step. -/
theorem step_write {s t : State} {off : Nat} {w : Word} {rest : List Event}
    (hs : s.sched = hostW s.cfg off w :: rest) (h : ({ s with sched := rest } : State).WriteMakes off w t) :
    step s = .next { t with resp := .writeAck } :=
  (step_cons hs).trans h

/-- R131: a CTRL write that starts an idle block. -/
theorem State.writeMakes_start {s : State} {w : Word} (h0 : w.getLsbD 0 = true) (h2 : w.getLsbD 2 = false)
    (hb : s.status.busy = false) : s.WriteMakes 0x008 w (s.acceptStart (w.getLsbD 1)) := by
  have hw := s.writeMakes_ctrl w
  rw [writeCtrl, h2, h0, hb] at hw
  exact hw

/-- Settles O8: the write of CMD, the accepted START, and the engine's turn on what they leave. -/
theorem writeStartComplete : Obligations.WriteStartComplete := by
  intro s c w i rest hb hd h0 h2 hs
  have hcmd := State.writeMakes_idle (r := .cmd) (off := 0x010) (w := c)
    (s := { s with sched := hostW s.cfg 0x008 w :: .engine :: rest }) hb (by decide) rfl rfl rfl
  have hstart := State.writeMakes_start (s := { s with cmd := c, sched := .engine :: rest, resp := .writeAck })
    h0 h2 hb
  refine ⟨_, _, step_write hs hcmd, step_write rfl hstart, ?_⟩
  rw [step_cons rfl]
  exact State.engineTurn_exec rfl hd

/-! #### The host BUF window (R74) -/

theorem State.bufStep_writeWord (s : State) (j : Nat) (w : Word) :
    s.BufStep (s.writeReg (.bufWord j) w) (4 * j) 4 :=
  BufStep.memWrite s (4 * j) [lane w 0, lane w 1, lane w 2, lane w 3]

theorem State.bufRead_writeWord (s : State) {j : Nat} (w : Word) (h : 4 * j + 4 ≤ s.cfg.bufBytes) {k : Nat}
    (hk : k < 4) : (s.writeReg (.bufWord j) w).bufRead (4 * j + k) = lane w k := by
  have hread := s.bufRead_memWrite (4 * j) [lane w 0, lane w 1, lane w 2, lane w 3] (4 * j + k) h
  rw [if_pos ⟨Nat.le_add_right _ _, Nat.add_lt_add_left hk _⟩, Nat.add_sub_cancel_left] at hread
  refine hread.trans ?_
  interval_cases k <;> rfl

theorem State.lane_readWord (s : State) (j : Nat) {k : Nat} (hk : k < 4) :
    lane (s.readReg (.bufWord j)) k = s.bufRead (4 * j + k) := by
  rw [readReg, wordOfLanes_eq]
  apply BitVec.eq_of_getLsbD_eq
  intro i hi
  simp only [lane, BitVec.getLsbD_extractLsb', BitVec.getLsbD_append, hi, decide_true, Bool.true_and]
  interval_cases k <;> simp (disch := omega) only [if_pos, if_neg] <;> congr 1 <;> omega

/-- Settles O21: the write stores the word's lanes, and the read packs the bytes in the same lanes. -/
theorem bufByteLanes : Obligations.BufByteLanes := by
  intro s j w hc hb hj
  have hl := (Config.legal_iff _).1 hc
  have hwin := windowAt_bufWord hc hj
  have hwrite : s.WriteMakes (0x2000 + 4 * j) w (s.writeReg (.bufWord j) w) :=
    State.writeMakes_idle hb (by omega) (by omega) hwin rfl
  have hread : s.ReadsAs (0x2000 + 4 * j) (s.readReg (.bufWord j)) :=
    State.readsAs_idle hb (by omega) (by omega) hwin rfl
  have hstep := s.bufStep_writeWord j w
  have stored {k : Nat} (hk : k < 4) := s.bufRead_writeWord w (j := j) (by omega) hk
  have shown {k : Nat} (hk : k < 4) := s.lane_readWord j hk
  constructor
  · generalize s.writeReg (.bufWord j) w = t at hwrite hstep stored
    exact ⟨t.respond .writeAck, .writeAck, hwrite, stored (k := 0) (by decide), stored (k := 1) (by decide),
      stored (k := 2) (by decide), stored (k := 3) (by decide), hstep.outside,
      congrArg (State.respond · .writeAck) hstep.only⟩
  · generalize s.readReg (.bufWord j) = v at hread shown
    exact ⟨v, s.respond (.readData v), .readData v, hread, rfl, rfl, shown (k := 0) (by decide),
      shown (k := 1) (by decide), shown (k := 2) (by decide), shown (k := 3) (by decide)⟩

/-! #### The RSA block loops (R212, R216) -/

theorem State.ContextOK.modulus_pos {s : State} (h : s.ContextOK) : 0 < s.nval 7 :=
  Nat.pos_of_ne_zero fun h0 => by simp [State.ContextOK, h0] at h

/-- Settles O49: the loop is the chain, and with correct residues ME is the power. -/
theorem rsaencEncryptsEachBlock : Obligations.RsaencEncryptsEachBlock := by
  intro r s hop hib nb hroom
  have hexec : exec (.rsaenc r) s = _ := execRsaenc_ok r hop hib hroom
  refine ⟨hexec, fun hres => ?_⟩
  have hpow : s.encChain (fun x => s.modExp x (s.nval r)) nb = s.encChain (fun x => x ^ s.nval r % s.nval 7) nb :=
    encChain_congr hop.1.modulus_pos (fun x hx => modExp_eq hop.1 hres hx _) nb
  rw [← hpow]
  exact hexec

/-- The chain, and which of its blocks go through, depend only on what goes out for values below m. -/
theorem decFits_congr {s : State} {f g : Nat → Nat} {n : Nat} (h : ∀ x, x < s.nval 7 → f x = g x)
    (hf : ∀ j, j < n → s.decFits f j) {j : Nat} (hj : j < n) : s.decFits g j := by
  have below : ∀ k, k ≤ n → s.decChain f k = s.decChain g k := fun k hk =>
    decChain_congr h k fun i hi => (hf i (by omega)).1
  rw [State.decFits, ← below j (by omega), ← below (j + 1) hj]
  exact hf j hj

/-- Settles O50: the loop is the chain, and with correct residues ME is the power. -/
theorem rsadecDecryptsEachBlock : Obligations.RsadecDecryptsEachBlock := by
  intro r s hop hlen nb
  refine ⟨fun hfits => execRsadec_ok r hop hlen hfits, fun hres hfits => ?_⟩
  have hpow : ∀ x, x < s.nval 7 → x ^ s.nval r % s.nval 7 = s.modExp x (s.nval r) := fun x hx =>
    (modExp_eq hop.1 hres hx _).symm
  rw [decChain_congr hpow nb fun j hj => (hfits j hj).1]
  exact execRsadec_ok r hop hlen fun j hj => decFits_congr hpow hfits hj

/-! #### AESCTR (R251, R252) -/

/-- AESCTR past its checks: one keystream pass, then the counter and the schedule. -/
theorem execAesctr_ok {s : State} (h1 : s.srcAddr + s.srcLen ≤ s.cfg.bufBytes)
    (h2 : s.dstAddr + s.srcLen ≤ s.cfg.bufBytes) : execAesctr s =
      .next ((((xorPass s.srcAddr s.dstAddr (ctrKey s.schedule s.ctrVal) s s.srcLen).setCtrVal
        ((s.ctrVal + ctrChunks s.srcLen) % 2 ^ 128)).setRk s.schedule).succeeded 0) := by
  have hchecks : firstFailing [s.rangeCheck s.srcAddr s.srcLen, s.rangeCheck s.dstAddr s.srcLen] = none := by
    simp [State.rangeCheck, State.inBuf, h1, h2]
  rw [execAesctr, State.guarded_none hchecks, ctr_loop_eq]
  rfl

/-- Settles O58: `xorPass_spec` says what the pass leaves, overlap included. -/
theorem aesctrXorsTheKeystream : Obligations.AesctrXorsTheKeystream := by
  intro s h1 h2
  obtain ⟨hstep, hbytes⟩ := xorPass_spec s.srcAddr s.dstAddr (ctrKey s.schedule s.ctrVal) s h2
  refine ⟨_, execAesctr_ok h1 h2, hbytes, ?_, fun n => rkWords_getElem _ n, hstep.outside, ?_⟩
  · exact ctrVal_setCtrVal s (Nat.mod_lt _ (by norm_num))
  · rw [hstep.only]
    rfl

end Sys2Proof.Machine

/-! ### The decoder, the encoder and the opcode table (30_encoding.md R100-R107, R113)

The encoder packs the fields of a command, and the decoder cuts the fields out of a word and looks at them.
Both halves are inverse to each other (`packFields_fieldsOf`; `decodeFields_fields`, `fields_of_decodeFields`),
so a word decodes to a command exactly when it is that command's word (`decode_eq_ok_iff`). -/

namespace Sys2Proof

/-! #### Runs of zero bits -/

theorem extractLsb'_eq_zero_iff {w : Nat} (x : BitVec w) (n k : Nat) :
    x.extractLsb' n k = 0 ↔ ∀ j < k, x.getLsbD (n + j) = false := by
  constructor
  · intro h j hj
    have hbit : (x.extractLsb' n k).getLsbD j = false := by rw [h]; exact BitVec.getLsbD_zero
    simpa [BitVec.getLsbD_extractLsb', hj] using hbit
  · intro h
    apply BitVec.eq_of_getLsbD_eq
    intro j hj
    simp [hj, h j hj]

theorem extractLsb'_add_eq_zero_iff {w : Nat} (x : BitVec w) (n k l : Nat) :
    x.extractLsb' n (k + l) = 0 ↔ x.extractLsb' n k = 0 ∧ x.extractLsb' (n + k) l = 0 := by
  simp only [extractLsb'_eq_zero_iff]
  refine ⟨fun h => ⟨fun j hj => h j (by omega), fun j hj => ?_⟩, fun ⟨hlow, hhigh⟩ j hj => ?_⟩
  · rw [Nat.add_assoc]
    exact h (k + j) (by omega)
  · by_cases hjk : j < k
    · exact hlow j hjk
    · simpa [show n + k + (j - k) = n + j by omega] using hhigh (j - k) (by omega)

theorem extractLsb'_one_eq_zero_iff {w : Nat} (x : BitVec w) (n : Nat) :
    x.extractLsb' n 1 = 0 ↔ x.getLsbD n = false := by
  rw [extractLsb'_eq_zero_iff]
  simp

/-! #### The must-be-zero bits and the fields of a word (R100, R104) -/

theorem reservedClear_iff (c : Word) : reservedClear c = true ↔
    c.getLsbD 11 = false ∧ c.getLsbD 15 = false ∧ c.getLsbD 19 = false ∧ c.extractLsb' 25 7 = 0 := by
  simp [reservedClear, and_assoc]

/-- SWSZ and PZ lie side by side (R100). -/
theorem swszPz_eq_zero_iff (c : Word) :
    c.extractLsb' 20 5 = 0 ↔ (fieldsOf c).swsz = 0 ∧ (fieldsOf c).pz = false := by
  rw [extractLsb'_add_eq_zero_iff c 20 4 1, extractLsb'_one_eq_zero_iff]
  rfl

/-- Beside the must-be-zero bits, the bits above OPC are the five operand fields (R100). -/
theorem operands_eq_zero_iff {c : Word} (h : reservedClear c = true) : c.extractLsb' 8 24 = 0 ↔
    (fieldsOf c).rd = 0 ∧ (fieldsOf c).rs1 = 0 ∧ (fieldsOf c).rs2 = 0 ∧ (fieldsOf c).swsz = 0 ∧
      (fieldsOf c).pz = false := by
  obtain ⟨h11, h15, h19, h25⟩ := (reservedClear_iff c).1 h
  rw [extractLsb'_add_eq_zero_iff c 8 3 21, extractLsb'_add_eq_zero_iff c 11 1 20,
    extractLsb'_add_eq_zero_iff c 12 3 17, extractLsb'_add_eq_zero_iff c 15 1 16,
    extractLsb'_add_eq_zero_iff c 16 3 13, extractLsb'_add_eq_zero_iff c 19 1 12,
    extractLsb'_add_eq_zero_iff c 20 5 7]
  simp only [extractLsb'_one_eq_zero_iff, swszPz_eq_zero_iff, h11, h15, h19, h25, true_and, and_true]
  rfl

/-- Packing the fields of a word whose must-be-zero bits are 0 gives the word back (R100). -/
theorem packFields_fieldsOf {c : Word} (h : reservedClear c = true) : packFields (fieldsOf c) = c := by
  obtain ⟨h11, h15, h19, h25⟩ := (reservedClear_iff c).1 h
  have htop := (extractLsb'_eq_zero_iff c 25 7).1 h25
  apply BitVec.eq_of_getLsbD_eq
  intro i hi
  simp only [packFields, fieldsOf, BitVec.getLsbD_or, Laws.Packed.getLsbD_fieldAt, BitVec.getLsbD_extractLsb']
  by_cases hi25 : 25 ≤ i
  · obtain ⟨j, rfl⟩ := Nat.exists_eq_add_of_le hi25
    rw [htop j (by omega)]
    simp
    omega
  · interval_cases i <;> simp [h11, h15, h19, -BitVec.getLsbD_eq_getElem]

/-! #### The fields of a command (R101, R102, R107) -/

theorem requireZero_eq_ok_iff (ok : Bool) (i j : Instr) : requireZero ok i = .ok j ↔ ok = true ∧ i = j := by
  cases ok <;> simp [requireZero]

theorem requireZero_error_iff (ok : Bool) (i : Instr) : (∃ why, requireZero ok i = .error why) ↔ ok = false := by
  cases ok <;> simp [requireZero]

/-- The fields of a well-formed command decode to it: SWSZ holds its swizzle size whole (R103). -/
theorem decodeFields_fields {i : Instr} (h : i.wellFormed = true) : decodeFields i.fields = .ok i := by
  have swsz_fits : ∀ w, w ≤ 15 → w % 16 = w := fun w hw => Nat.mod_eq_of_lt (by omega)
  cases i <;> simp_all [decodeFields, Instr.fields, Instr.wellFormed, requireZero]

/-- Fields that decode are exactly those of the command, the unused ones 0 (R104). -/
theorem fields_of_decodeFields {f : Fields} {i : Instr} (h : decodeFields f = .ok i) :
    i.wellFormed = true ∧ i.fields = f := by
  obtain ⟨opc, rd, rs1, rs2, swsz, pz⟩ := f
  have hopc : BitVec.ofNat 8 opc.toNat = opc := by simp
  have hswsz : swsz.toNat ≤ 15 := Nat.le_of_lt_succ swsz.isLt
  unfold decodeFields at h
  split at h
  case h_12 => cases h
  all_goals
    rename_i ho
    rw [ho] at hopc
    obtain ⟨hz, rfl⟩ := (requireZero_eq_ok_iff _ _ _).1 h
    simp_all [Instr.wellFormed, Instr.fields]

/-- Fields are Illegal by an unassigned opcode or by a field that the opcode does not use (R104, R105). -/
theorem decodeFields_error_iff (f : Fields) : (∃ why, decodeFields f = .error why) ↔
    0x0B ≤ f.opc.toNat ∨
    (f.opc.toNat ∈ [0x00, 0x03, 0x08, 0x09, 0x0A] ∧
      ¬ (f.rd = 0 ∧ f.rs1 = 0 ∧ f.rs2 = 0 ∧ f.swsz = 0 ∧ f.pz = false)) ∨
    (f.opc.toNat = 0x01 ∧ ¬ (f.rs1 = 0 ∧ f.rs2 = 0)) ∨
    (f.opc.toNat = 0x02 ∧ ¬ (f.rd = 0 ∧ f.rs2 = 0 ∧ f.pz = false)) ∨
    (f.opc.toNat ∈ [0x04, 0x05] ∧ ¬ (f.swsz = 0 ∧ f.pz = false)) ∨
    (f.opc.toNat ∈ [0x06, 0x07] ∧ ¬ (f.rd = 0 ∧ f.rs1 = 0 ∧ f.swsz = 0 ∧ f.pz = false)) := by
  unfold decodeFields
  split
  case h_12 =>
    have unassigned : 0x0B ≤ f.opc.toNat := by
      simp only [imp_false] at *
      omega
    exact iff_of_true ⟨_, rfl⟩ (.inl unassigned)
  all_goals
    rename_i ho
    rw [requireZero_error_iff, ho]
    simp [-not_and, and_assoc, ← Bool.not_eq_true]

/-! #### Decode and encode -/

/-- What decodes to a command is that command's word, and nothing else is (R107). -/
theorem decode_eq_ok_iff (c : Word) (i : Instr) : decode c = .ok i ↔ i.wellFormed = true ∧ encode i = c := by
  constructor
  · intro h
    unfold decode at h
    split at h
    case isFalse => cases h
    case isTrue hc =>
      obtain ⟨hw, hf⟩ := fields_of_decodeFields h
      exact ⟨hw, by rw [encode, hf, packFields_fieldsOf hc]⟩
  · rintro ⟨hw, rfl⟩
    obtain ⟨hc, hf⟩ := Laws.Packed.fieldsOf_packFields i.fields
    rw [decode, encode, if_pos hc, hf, decodeFields_fields hw]

/-- A word is Illegal by its must-be-zero bits or by its fields (R104, R105). -/
theorem decode_error_iff (c : Word) : (∃ why, decode c = .error why) ↔
    reservedClear c = false ∨ reservedClear c = true ∧ ∃ why, decodeFields (fieldsOf c) = .error why := by
  cases hc : reservedClear c <;> simp [decode, hc]

/-- Settles O2: a well-formed command's word decodes to it. -/
theorem decodeOfEncode : Obligations.DecodeOfEncode := fun i hw => (decode_eq_ok_iff _ i).2 ⟨hw, rfl⟩

/-- Settles O3: only a command's own word decodes to it. -/
theorem encodeOfDecode : Obligations.EncodeOfDecode := fun c i h => (decode_eq_ok_iff c i).1 h

/-! #### The opcode table (R107) -/

/-- The fields of a conjunction of two words, from theirs. -/
def Fields.inter (f g : Fields) : Fields :=
  ⟨f.opc &&& g.opc, f.rd &&& g.rd, f.rs1 &&& g.rs1, f.rs2 &&& g.rs2, f.swsz &&& g.swsz, f.pz && g.pz⟩

theorem fieldsOf_and (c d : Word) : fieldsOf (c &&& d) = (fieldsOf c).inter (fieldsOf d) := by
  simp only [fieldsOf, Fields.inter, BitVec.extractLsb'_and, BitVec.getLsbD_and]

/-- A mask that keeps every must-be-zero bit keeps what they say. -/
theorem reservedClear_and (c : Word) {m : Word} (h : reservedClear (~~~m) = true) :
    reservedClear (c &&& m) = reservedClear c := by
  have kept : ∀ i < 32, (~~~m).getLsbD i = false → (c &&& m).getLsbD i = c.getLsbD i := fun i hi hm => by
    have hone : m.getLsbD i = true := by simpa [BitVec.getLsbD_not, hi] using hm
    rw [BitVec.getLsbD_and, hone, Bool.and_true]
  obtain ⟨h11, h15, h19, h25⟩ := (reservedClear_iff _).1 h
  have htop : (c &&& m).extractLsb' 25 7 = c.extractLsb' 25 7 := by
    apply BitVec.eq_of_getLsbD_eq
    intro j hj
    rw [BitVec.getLsbD_extractLsb', BitVec.getLsbD_extractLsb',
      kept (25 + j) (by omega) ((extractLsb'_eq_zero_iff _ 25 7).1 h25 j hj)]
  rw [reservedClear, kept 11 (by omega) h11, kept 15 (by omega) h15, kept 19 (by omega) h19, htop, ← reservedClear]

/-- A row whose mask keeps the must-be-zero bits, and whose pattern has them 0, is a test of the fields. -/
theorem OpRow.holds_iff {r : OpRow} (hm : reservedClear (~~~r.mask) = true) (hp : reservedClear r.pattern = true)
    (c : Word) : r.holds c = true ↔
      reservedClear c = true ∧ (fieldsOf c).inter (fieldsOf r.mask) = fieldsOf r.pattern := by
  rw [OpRow.holds, beq_iff_eq, ← reservedClear_and c hm, ← fieldsOf_and]
  constructor
  · intro h
    rw [h]
    exact ⟨hp, rfl⟩
  · rintro ⟨hc, hf⟩
    rw [← packFields_fieldsOf hc, hf, packFields_fieldsOf hp]

theorem opTable_reserved : ∀ r ∈ opTable, reservedClear (~~~r.mask) = true ∧ reservedClear r.pattern = true := by
  decide

theorem opTable_eq_of_mnemonic : ∀ r ∈ opTable, ∀ q ∈ opTable, r.mnemonic = q.mnemonic → r = q := by decide

/-- A row fixes OPC and asks 0 of the fields that its command does not use. -/
theorem decodeFields_of_row (f : Fields) : ∀ r ∈ opTable, f.inter (fieldsOf r.mask) = fieldsOf r.pattern →
    ∃ i, decodeFields f = .ok i ∧ i.mnemonic = r.mnemonic := by
  obtain ⟨opc, rd, rs1, rs2, swsz, pz⟩ := f
  have whole8 : opc &&& 255#8 = opc := BitVec.and_allOnes
  have whole3 : ∀ x : BitVec 3, x &&& 7#3 = x := fun _ => BitVec.and_allOnes
  have whole4 : swsz &&& 15#4 = swsz := BitVec.and_allOnes
  intro r hr h
  fin_cases hr <;> simp_all [Fields.inter, fieldsOf, decodeFields, requireZero, Instr.mnemonic]

theorem fields_inter_of_mnemonic (i : Instr) : ∀ r ∈ opTable, i.mnemonic = r.mnemonic →
    i.fields.inter (fieldsOf r.mask) = fieldsOf r.pattern := by
  cases i <;> simp [opTable, Instr.mnemonic, Instr.fields, Fields.inter, fieldsOf]

theorem opTable_holds_iff (c : Word) {r : OpRow} (hr : r ∈ opTable) :
    r.holds c = true ↔ ∃ i, decode c = .ok i ∧ i.mnemonic = r.mnemonic := by
  obtain ⟨hm, hp⟩ := opTable_reserved r hr
  rw [OpRow.holds_iff hm hp]
  constructor
  · rintro ⟨hc, hf⟩
    obtain ⟨i, hi, hn⟩ := decodeFields_of_row _ r hr hf
    exact ⟨i, by rw [decode, if_pos hc, hi], hn⟩
  · rintro ⟨i, hi, hn⟩
    obtain ⟨-, rfl⟩ := (decode_eq_ok_iff c i).1 hi
    obtain ⟨hc, hf⟩ := Laws.Packed.fieldsOf_packFields i.fields
    refine ⟨hc, ?_⟩
    rw [encode, hf]
    exact fields_inter_of_mnemonic i r hr hn

/-- Settles O4: two rows of one word name the command it decodes to, and the table's names differ. -/
theorem opcodeTableIsTheDecoder : Obligations.OpcodeTableIsTheDecoder := by
  refine ⟨fun c r hr => opTable_holds_iff c hr, fun c r q hr hq hrc hqc => ?_⟩
  obtain ⟨i, hi, hir⟩ := (opTable_holds_iff c hr).1 hrc
  obtain ⟨j, hj, hjq⟩ := (opTable_holds_iff c hq).1 hqc
  obtain rfl : i = j := by simpa [hi] using hj
  exact opTable_eq_of_mnemonic r hr q hq (hir.symm.trans hjq)

/-! #### Illegal words (R104, R105) -/

/-- Settles O5: R105's list is the must-be-zero bits and the fields that each opcode does not use. -/
theorem illegalCommands : Obligations.IllegalCommands := by
  refine ⟨fun c => ?_, fun s why hd hb => ?_, fun c => ?_⟩
  · rw [decode_error_iff]
    cases hc : reservedClear c with
    | false =>
      have hres := mt (reservedClear_iff c).2 (by simp [hc])
      simp only [not_and_or, Bool.not_eq_false] at hres
      exact iff_of_true (by tauto) (.inl rfl)
    | true =>
      obtain ⟨h11, h15, h19, h25⟩ := (reservedClear_iff c).1 hc
      rw [decodeFields_error_iff, ← operands_eq_zero_iff hc, ← swszPz_eq_zero_iff]
      simp only [fieldsOf, h11, h15, h19, h25, not_and_or, Bool.not_eq_false, Bool.false_eq_true,
        Bool.true_eq_false, ne_eq, not_true_eq_false, false_or, true_and]
  · rw [Machine.State.engineTurn_busy hb, Machine.State.completion_illegal hd]
  · cases hd : decode c with
    | ok i =>
      obtain ⟨hw, he⟩ := encodeOfDecode c i hd
      exact .inl ⟨i, hw, he.symm⟩
    | error why => exact .inr ⟨why, rfl⟩

/-! #### Source lines (R110-R113) -/

/-- Source lines that assemble to well-formed commands with the given words agree with them both ways. -/
theorem forall_agree_of_all {rows : List (String × List String × Word)}
    (h : (rows.all fun r => (Machine.assemble r.1 r.2.1).any fun i => i.wellFormed && encode i == r.2.2) = true) :
    ∀ r ∈ rows, ∃ i, Machine.assemble r.1 r.2.1 = some i ∧ encode i = r.2.2 ∧ decode r.2.2 = .ok i := by
  intro r hr
  obtain ⟨i, hi, hword⟩ := (Option.any_eq_true _ _).1 (List.all_eq_true.1 h r hr)
  obtain ⟨hw, he⟩ : i.wellFormed = true ∧ encode i = r.2.2 := by simpa using hword
  exact ⟨i, hi, he, (decode_eq_ok_iff _ i).2 ⟨hw, he⟩⟩

/-- Settles O1: the assembler gives each line's word, and the decoder undoes the encoder. -/
theorem encodingExamples : Obligations.EncodingExamples := forall_agree_of_all (by decide)

end Sys2Proof

/-! ### The lifecycle of a command and its completion, and the Montgomery commands
(40_command.md R130-R140; 42_montgomery.md R185-R193) -/

namespace Sys2Proof.Machine

/-! #### How a command completes (R133, R139, R140) -/

/-- Settles O30: the three outcomes are a success and two error completions with a raisable code. -/
theorem everyCommandCompletes : Obligations.EveryCommandCompletes := by
  intro i s
  rcases exec_cases i s with ⟨code, hc, e⟩ | ⟨u, r, hu, e⟩ | ⟨_, code, _, hc, _, e⟩
  · obtain ⟨hnonzero, hlegal⟩ := code.raisable_iff.1 hc
    exact ⟨_, e, rfl, rfl, .inr ⟨hnonzero, hlegal, rfl, rfl⟩⟩
  · have herr : u.status.err = s.status.err := by rw [hu.only]
    exact ⟨_, e, rfl, rfl, .inl ⟨rfl, herr⟩⟩
  · obtain ⟨hnonzero, hlegal⟩ := code.raisable_iff.1 hc
    exact ⟨_, e, rfl, rfl, .inr ⟨hnonzero, hlegal, rfl, rfl⟩⟩

/-- Making a range unspecified changes BUF, by one draw (R9). -/
theorem State.unspecify_eq (s : State) (a n : Nat) :
    s.unspecify a n = { s with buf := (s.unspecify a n).buf, draws := s.draws + 1 } := by
  unfold State.unspecify
  rw [State.memWrite_eq]

/-- Settles O34: a success has the code 0, and of the two ways to fail only RSADEC's draws free bytes. -/
theorem failedCommandsHaveNoEffect : Obligations.FailedCommandsHaveNoEffect := by
  intro i s t h hcode
  rcases exec_cases i s with ⟨code, _, e⟩ | ⟨u, r, _, e⟩ | ⟨d, code, hd, _, hin, e⟩ <;>
    obtain rfl := Host.Outcome.next.inj (e.symm.trans h)
  · exact .inl rfl
  · exact absurd rfl hcode
  · exact .inr ⟨⟨d, hd⟩, congrArg (State.failed · code) (s.unspecify_eq _ _),
      fun a => s.bufRead_unspecify _ _ a hin⟩

/-- Settles O35: NOP's meaning is the bare success, and the word 0 is the one that encodes it. -/
theorem nopHasNoEffect : Obligations.NopHasNoEffect := by
  have encode_nop : encode .nop = 0x00000000#32 := rfl
  refine ⟨execNop_eq, (decode_eq_ok_iff _ _).2 ⟨rfl, encode_nop⟩, rfl, fun c hc => ?_, fun s t h hst => ?_⟩
  · obtain ⟨_, he⟩ := (decode_eq_ok_iff c _).1 hc
    exact he.symm.trans encode_nop
  · obtain rfl := Host.Outcome.next.inj h
    have hstatus : (s.completeOk 0).status = ⟨false, true, false, false, .noError⟩ := by
      rw [State.completeOk_status, hst]
      rfl
    rw [hstatus]
    rfl

/-! #### What a write to CTRL does (R131, R134) -/

namespace State

variable {s : State} {w : Word}

theorem writeCtrl_srst (h2 : w.getLsbD 2 = true) : s.writeCtrl w = s.softReset := if_pos h2

theorem writeCtrl_irqen (h2 : w.getLsbD 2 = false) (h0 : w.getLsbD 0 = false) :
    s.writeCtrl w = { s with irqen := w.getLsbD 1 } := by
  rw [writeCtrl, h2, h0]
  rfl

theorem writeCtrl_start (h2 : w.getLsbD 2 = false) (h0 : w.getLsbD 0 = true) (hb : s.status.busy = false) :
    s.writeCtrl w = s.acceptStart (w.getLsbD 1) := by
  rw [writeCtrl, h2, h0, hb]
  rfl

theorem writeCtrl_refused (h2 : w.getLsbD 2 = false) (h0 : w.getLsbD 0 = true) (hb : s.status.busy = true) :
    s.writeCtrl w = s.refuseStart (w.getLsbD 1) := by
  rw [writeCtrl, h2, h0, hb]
  rfl

end State

/-- Settles O9, by the four branches of a CTRL write. -/
theorem ctrlWriteStartsOrSetsIrqen : Obligations.CtrlWriteStartsOrSetsIrqen := by
  intro s w
  refine ⟨_, .writeAck, s.writeMakes_ctrl w, fun h0 h2 hb => ?_, fun h0 h2 => ?_, fun h2 => ?_, fun h0 h2 hb => ?_⟩
  · rw [State.writeCtrl_start h2 h0 hb]
    exact ⟨rfl, s.irq_acceptStart _⟩
  · rw [State.writeCtrl_irqen h2 h0]
  · rw [State.writeCtrl_srst h2]
    exact ⟨rfl, rfl⟩
  · rw [State.writeCtrl_refused h2 h0 hb]
    rfl

/-- Settles O23: only CTRL and STATUS take a write, and only ID, PARAM, CTRL and STATUS are legible. -/
theorem busyAccessesAreDroppedOrFree : Obligations.BusyAccessesAreDroppedOrFree := by
  intro s hb
  refine ⟨fun off w h1 h4 hctrl hstatus => ?_, ?_, fun hc => ?_, ?_, ?_,
    fun off h1 h4 hid hparam hctrl hstatus => ?_⟩
  · exact (s.event_write w h1 h4).trans
      (congrArg _ (s.hostWrite_dropped w hb (windowAt_writableBusy _ hctrl hstatus)))
  · exact State.readsAs_legible (r := .id) rfl (by decide) rfl rfl rfl
  · exact State.readsAs_legible (r := .param) rfl (by decide) rfl rfl (paramWord_eq hc)
  · exact State.readsAs_legible (r := .ctrl) rfl (by decide) rfl rfl (ctrlWord_eq _)
  · exact State.readsAs_legible (r := .status) rfl (by decide) rfl rfl rfl
  · exact (s.event_read h1 h4).trans
      (congrArg _ (State.hostRead_hidden hb (windowAt_legibleBusy _ hid hparam hctrl hstatus)))

/-! #### When BUSY changes (R130, R136) -/

namespace State

/-- A CTRL write ends a command only by SRST, and sets BUSY only by START (R131, R302). -/
theorem busy_writeCtrl (s : State) (w : Word) :
    (s.writeCtrl w).status.busy = (!w.getLsbD 2 && (w.getLsbD 0 || s.status.busy)) := by
  cases h2 : w.getLsbD 2 with
  | true =>
    rw [writeCtrl_srst h2]
    rfl
  | false =>
    cases h0 : w.getLsbD 0 with
    | false =>
      rw [writeCtrl_irqen h2 h0]
      rfl
    | true =>
      cases hb : s.status.busy with
      | true =>
        rw [writeCtrl_refused h2 h0 hb]
        exact hb
      | false =>
        rw [writeCtrl_start h2 h0 hb]
        rfl

/-- Only CTRL and STATUS reach STATUS. -/
theorem status_writeReg (s : State) {r : WindowReg} (w : Word) (hr : r.writableBusy = false) :
    (s.writeReg r w).status = s.status := by
  cases r with
  | ctrl | status => cases hr
  | bufWord j => exact memWrite_status ..
  | id | param | cmd | result | mprime | arg | used | key | ctr | rk | digit | reserved => rfl

/-- Every write but the one to CTRL leaves BUSY. -/
theorem busy_hostWrite_of_ne (s : State) {off : Nat} (w : Word) (h : off ≠ 0x008) :
    (s.hostWrite off w).status.busy = s.status.busy := by
  by_cases hst : off = 0x00C
  · subst hst
    rw [s.hostWrite_taken w (.inr rfl)]
    rfl
  · unfold hostWrite
    split
    · rfl
    · exact congrArg Status.busy (s.status_writeReg w (windowAt_writableBusy _ h hst))

theorem busy_hostWrite_ctrl (s : State) (w : Word) :
    (s.hostWrite 0x008 w).status.busy = (!w.getLsbD 2 && (w.getLsbD 0 || s.status.busy)) := by
  rw [s.hostWrite_taken w (.inr rfl)]
  exact s.busy_writeCtrl w

theorem busy_hostRead (s : State) (off : Nat) : (s.hostRead off).status.busy = s.status.busy := by
  unfold hostRead
  split <;> rfl

end State

/-- Everything a step can do to BUSY: the engine and power-on leave the block idle, a CTRL write sets what
`State.busy_writeCtrl` says, and every other access leaves BUSY. -/
theorem step_busy_cases {s t : State} (h : step s = .next t) :
    (t.status.busy = false ∧
      (s.sched = [] ∨ ∃ e rest, s.sched = e :: rest ∧ (e = .engine ∨ e = .powerOn))) ∨
    (∃ w rest, s.sched = hostW s.cfg 0x008 w :: rest ∧
      t.status.busy = (!w.getLsbD 2 && (w.getLsbD 0 || s.status.busy))) ∨
    t.status.busy = s.status.busy := by
  rcases step_cases h with
    ⟨hs, ht⟩ | ⟨e, rest, hs, ⟨he, ht⟩ | ⟨he, rfl⟩ | ⟨_, _, _, _, rfl⟩ | ⟨_, _, _, _, rfl⟩ |
      ⟨addr, bytes, w, he, ha, rfl⟩⟩
  · exact .inl ⟨State.engineTurn_not_busy ht, .inl hs⟩
  · exact .inl ⟨State.engineTurn_not_busy ht, .inr ⟨e, rest, hs, .inl he⟩⟩
  · exact .inl ⟨rfl, .inr ⟨e, rest, hs, .inr he⟩⟩
  · exact .inr (.inr rfl)
  · exact .inr (.inr (State.busy_hostRead _ _))
  · by_cases hoff : addr - s.cfg.baseAddr = 0x008
    · have hev : e = hostW s.cfg 0x008 w := by
        rw [admitted, Bool.and_eq_true, beq_iff_eq] at ha
        rw [he, hostW, ha.1, show addr = s.cfg.baseAddr + 0x008 by omega]
      rw [hoff]
      exact .inr (.inl ⟨w, rest, by rw [hs, hev], State.busy_hostWrite_ctrl _ w⟩)
    · exact .inr (.inr (State.busy_hostWrite_of_ne _ w hoff))

/-- Settles O11: read off from the ways a step can change BUSY. -/
theorem busyChangesOnlyByLifecycle : Obligations.BusyChangesOnlyByLifecycle := by
  intro s t h
  rcases step_busy_cases h with ⟨ht, hs⟩ | ⟨w, rest, hs, ht⟩ | ht
  · refine ⟨fun _ hb => ?_, fun _ _ => ?_⟩
    · rw [ht] at hb
      cases hb
    · exact hs.imp_right fun ⟨e, rest, hs, he⟩ => ⟨e, rest, hs, he.imp_right .inl⟩
  · refine ⟨fun hidle hbusy => ⟨w, rest, hs, ?_⟩,
      fun hbusy hidle => .inr ⟨_, rest, hs, .inr (.inr ⟨w, rfl, ?_⟩)⟩⟩
    · simpa [hidle, hbusy, and_comm] using ht
    · simpa [hidle, hbusy] using ht
  · refine ⟨fun hs hb => ?_, fun hs hb => ?_⟩ <;>
    · rw [ht, hs] at hb
      cases hb

/-! ##### The schedule runs out -/

namespace State

theorem sched_writeCtrl (s : State) (w : Word) : (s.writeCtrl w).sched = s.sched := by
  have habort : s.abort.sched = s.sched := by
    unfold abort
    split
    · split
      · exact unspecify_sched ..
      · rfl
    · rfl
  unfold writeCtrl
  split
  · exact habort
  · split
    · split <;> rfl
    · rfl

theorem sched_writeReg (s : State) (r : WindowReg) (w : Word) : (s.writeReg r w).sched = s.sched := by
  cases r with
  | ctrl => exact s.sched_writeCtrl w
  | bufWord j => exact memWrite_sched ..
  | id | param | status | cmd | result | mprime | arg | used | key | ctr | rk | digit | reserved => rfl

theorem sched_hostWrite (s : State) (off : Nat) (w : Word) : (s.hostWrite off w).sched = s.sched := by
  unfold hostWrite
  split
  · rfl
  · exact s.sched_writeReg _ w

theorem sched_hostRead (s : State) (off : Nat) : (s.hostRead off).sched = s.sched := by
  unfold hostRead
  split <;> rfl

theorem sched_engineTurn {s t : State} (h : s.engineTurn = .next t) : t.sched = s.sched := by
  rcases s.engineTurn_cases with ⟨_, e⟩ | ⟨_, ⟨i, _, e⟩ | ⟨_, _, e⟩⟩ <;> rw [e] at h
  · obtain rfl := Host.Outcome.next.inj h
    rfl
  · obtain ⟨_, _, _, _, _, _, _, hsched, _⟩ := commandsKeepEveryOtherRegister i s t h
    exact hsched
  · obtain rfl := Host.Outcome.next.inj h
    rfl

end State

/-- A step takes one event off the schedule and adds none (log entry 2). -/
theorem sched_step {s t : State} (h : step s = .next t) : t.sched = s.sched.tail := by
  rcases step_cases h with
    ⟨hs, ht⟩ | ⟨e, rest, hs, ⟨_, ht⟩ | ⟨_, rfl⟩ | ⟨_, _, _, _, rfl⟩ | ⟨_, _, _, _, rfl⟩ | ⟨_, _, w, _, _, rfl⟩⟩ <;>
    rw [hs]
  · exact (State.sched_engineTurn ht).trans hs
  · exact State.sched_engineTurn ht
  · rfl
  · rfl
  · exact State.sched_hostRead _ _
  · exact State.sched_hostWrite _ _ w

theorem State.SafeSched.step_next {s : State} (h : s.SafeSched) : ∃ t, step s = .next t := by
  cases hs : s.sched with
  | nil =>
    rw [step_nil hs]
    exact s.engineTurn_next.imp fun _ ht => ht.1
  | cons e rest =>
    rw [step_cons hs]
    exact State.event_next_of_inside (s := { s with sched := rest }) (h e (hs ▸ List.mem_cons_self))

/-- A step that leaves the block busy leaves the rest of the schedule in the window. -/
theorem State.SafeSched.of_step {s t : State} (h : s.SafeSched) (hstep : step s = .next t)
    (hs : s.status.busy = true) (ht : t.status.busy = true) : t.SafeSched := by
  obtain ⟨_, honly⟩ := nothingMovesWhileBusy s t hstep hs ht
  have hcfg : t.cfg = s.cfg := by rw [honly]
  intro e he
  rw [sched_step hstep] at he
  rw [hcfg]
  exact h e (List.mem_of_mem_tail he)

/-- A run of one step more. -/
theorem run_succ {s t : State} (k : Nat) (h : step s = .next t) : core.run (k + 1) s = core.run k t := by
  have hcore : core.step s = .next t := h
  simp only [Host.Core.run, hcore]

/-- Settles O14, by induction on the schedule: each step uses it up by one event, and the engine, alone on
an empty schedule, completes. -/
theorem busyEndsWithinTheSchedule : Obligations.BusyEndsWithinTheSchedule := by
  intro s hb hsafe
  induction hn : s.sched.length generalizing s with
  | zero =>
    obtain ⟨t, ht, hidle⟩ := s.engineTurn_next
    rw [← step_nil (List.length_eq_zero_iff.1 hn)] at ht
    exact ⟨1, t, le_rfl, run_succ 0 ht, hidle⟩
  | succ n ih =>
    obtain ⟨t, ht⟩ := hsafe.step_next
    cases hbt : t.status.busy with
    | false => exact ⟨1, t, by omega, run_succ 0 ht, hbt⟩
    | true =>
      have hlen : t.sched.length = n := by rw [sched_step ht, List.length_tail, hn, Nat.add_sub_cancel]
      obtain ⟨k, u, hk, hrun, hu⟩ := ih t hbt (hsafe.of_step ht hb hbt) hlen
      exact ⟨k + 1, u, by omega, (run_succ k ht).trans hrun, hu⟩

/-! #### What a completion does not see (R132, R308) -/

/-- Only RSADEC's mid-run failure draws free bytes. -/
theorem exec_draws {i : Instr} {s t : State} (h : exec i s = .next t) :
    t.draws = s.draws ∨ (∃ d, i = .rsadec d) ∧ t.status.errcode ≠ .noError := by
  rcases exec_cases i s with ⟨_, _, e⟩ | ⟨u, r, hu, e⟩ | ⟨d, code, hd, hc, _, e⟩ <;>
    obtain rfl := Host.Outcome.next.inj (e.symm.trans h)
  · exact .inl rfl
  · have hdraws : u.draws = s.draws := by rw [hu.only]
    exact .inl hdraws
  · exact .inr ⟨⟨d, hd⟩, (code.raisable_iff.1 hc).1⟩

/-- Settles O13: what a busy step may move is outside what a command looks at, and of the outcomes only the
one that draws may store other bytes. -/
theorem outcomeIgnoresAccessesWhileBusy : Obligations.OutcomeIgnoresAccessesWhileBusy := by
  intro i s s' t hb hstep hb' ht
  obtain ⟨_, honly⟩ := nothingMovesWhileBusy s s' hstep hb hb'
  have hout : s' = s.outside s' := honly
  rw [hout]
  rcases exec_outside i s s' with ⟨code, e, e'⟩ | ⟨u, r, e, e'⟩ | ⟨code, e, e'⟩ <;>
    obtain rfl := Host.Outcome.next.inj (e.symm.trans ht)
  · exact ⟨_, e', rfl, rfl, rfl, rfl, rfl, rfl, rfl, rfl, rfl, rfl, .inr rfl⟩
  · exact ⟨_, e', rfl, rfl, rfl, rfl, rfl, rfl, rfl, rfl, rfl, rfl, .inr rfl⟩
  · have hdrew : ((s.unspecify s.dstAddr s.dstLen).failed code).draws ≠ s.draws := Nat.succ_ne_self _
    obtain ⟨⟨d, hd⟩, hcode⟩ := (exec_draws e).resolve_left hdrew
    refine ⟨_, e', ?_, rfl, ?_, ?_, ?_, ?_, ?_, ?_, rfl, ?_, .inl ⟨d, hd, hcode⟩⟩ <;>
      simp [State.failed, State.outside]

/-! #### The Montgomery product (R185, R187) -/

/-- The digit that R185's loop adds multiples of m by (there u_i). -/
def mmDigit (x y mp i a : Nat) : Nat :=
  (a % radix + x / radix ^ i % radix * (y % radix)) % radix * mp % radix

theorem mmStep_eq (x y m mp i a : Nat) :
    mmStep x y m mp i a = (a + x / radix ^ i % radix * y + mmDigit x y mp i a * m) / radix := rfl

/-- The digit makes the division exact: modulo b the sum is a multiple of m · m' + 1 (R187 a). -/
theorem radix_dvd_mmStep {m mp : Nat} (h : (m * mp + 1) % radix = 0) (x y i a : Nat) :
    radix ∣ a + x / radix ^ i % radix * y + mmDigit x y mp i a * m := by
  set t := a + x / radix ^ i % radix * y with ht
  have hlow : (a % radix + x / radix ^ i % radix * (y % radix)) % radix ≡ t [MOD radix] :=
    (Nat.mod_modEq _ _).trans ((Nat.mod_modEq a _).add ((Nat.mod_modEq y _).mul_left _))
  have hdigit : mmDigit x y mp i a ≡ t * mp [MOD radix] := (Nat.mod_modEq _ _).trans (hlow.mul_right mp)
  refine (Nat.modEq_zero_iff_dvd).1 ?_
  calc t + mmDigit x y mp i a * m
      ≡ t + t * mp * m [MOD radix] := (hdigit.mul_right m).add_left t
    _ = t * (m * mp + 1) := by ring
    _ ≡ 0 [MOD radix] := (Nat.modEq_zero_iff_dvd).2 (Dvd.dvd.mul_left (Nat.dvd_of_mod_eq_zero h) t)

/-- Settles O42: exact division, `mmLoop_spec` and `mm_spec`; an inverse of R cancels R in the last. -/
theorem montgomeryProductLaws : Obligations.MontgomeryProductLaws := by
  intro x y m mp _ hmp hx hy
  obtain ⟨hlt, hprod⟩ := mm_spec hmp hx hy
  refine ⟨fun n _ => ?_, fun n _ => (mmLoop_spec hmp hy n).1, hlt, hprod, fun rinv hinv => ?_⟩
  · have hdvd := radix_dvd_mmStep hmp x y n (mmLoop x y m mp n)
    exact ⟨hdvd, Nat.div_mul_cancel hdvd⟩
  · have hcancel : mm x y m mp ≡ x * y * rinv [MOD m] :=
      calc mm x y m mp = mm x y m mp * 1 := (Nat.mul_one _).symm
        _ ≡ mm x y m mp * (radix ^ len m * rinv) [MOD m] := hinv.symm.mul_left _
        _ = mm x y m mp * montR m * rinv := (Nat.mul_assoc ..).symm
        _ ≡ x * y * rinv [MOD m] := hprod.mul_right rinv
    rw [← hcancel, Nat.mod_eq_of_lt hlt]

/-! #### The Montgomery commands (R138, R186, R192) -/

/-- Checks that all have one code raise it when one of them fails. -/
theorem firstFailing_of_uniform {cs : List (Bool × ErrCode)} {code : ErrCode}
    (hcode : ∀ c ∈ cs, c.2 = code) (hfail : ∃ c ∈ cs, c.1 = true) : firstFailing cs = some code := by
  cases hf : firstFailing cs with
  | none =>
    obtain ⟨c, hc, htrue⟩ := hfail
    rw [firstFailing_eq_none.1 hf c hc] at htrue
    cases htrue
  | some code' => exact congrArg some (hcode _ (firstFailing_mem hf))

/-- A command whose earlier checks fail does not come to the later ones. -/
theorem State.guarded_append_some {s : State} {cs : List (Bool × ErrCode)} {code : ErrCode}
    (h : firstFailing cs = some code) (ds : List (Bool × ErrCode)) (go : Out) :
    s.guarded (cs ++ ds) go = .next (s.failed code) :=
  guarded_some (by rw [firstFailing_append, h]; rfl)

/-- A command whose earlier checks pass goes on with the later ones. -/
theorem State.guarded_append_none {s : State} {cs : List (Bool × ErrCode)} (h : firstFailing cs = none)
    (ds : List (Bool × ErrCode)) (go : Out) : s.guarded (cs ++ ds) go = s.guarded ds go := by
  unfold State.guarded
  rw [firstFailing_append, h]
  rfl

namespace State

variable {s : State}

/-- R138, check 2. -/
theorem contextChecks_zero (h : s.nval 7 = 0) : firstFailing s.contextChecks = some .invalidArgument := by
  have hm : s.modulus = 0 := h
  simp [contextChecks, modulusChecks, hm]

/-- R138, check 3. -/
theorem contextChecks_even (h : s.nval 7 ≠ 0) (h2 : s.nval 7 % 2 = 0) :
    firstFailing s.contextChecks = some .preconditionFailed := by
  have hm : s.modulus ≠ 0 := h
  have hm2 : s.modulus % 2 = 0 := h2
  simp [contextChecks, modulusChecks, hm, hm2]

/-- R138, check 4. -/
theorem contextChecks_mprime (h2 : s.nval 7 % 2 = 1) (hp : (s.nval 7 * s.mprime.toNat + 1) % 2 ^ 31 ≠ 0) :
    firstFailing s.contextChecks = some .preconditionFailed := by
  have hm : s.modulus ≠ 0 := fun h0 => by
    rw [show s.nval 7 = 0 from h0] at h2
    cases h2
  have hm2 : s.modulus % 2 ≠ 0 := by rw [show s.modulus % 2 = 1 from h2]; decide
  have hbad : mPrimeOK s.modulus s.mp = false := beq_eq_false_iff_ne.2 hp
  simp [contextChecks, modulusChecks, hm, hm2, hbad]

end State

/-! ##### Operands below m -/

section
variable {s : State} (h : s.ContextOK) (vs : List Nat)
include h

/-- In a good context, operands below m pass their checks. -/
theorem State.guarded_below_ok (hv : ∀ v ∈ vs, v < s.nval 7) (go : Out) :
    s.guarded (s.contextChecks ++ vs.map (belowCheck · s.modulus)) go = go := by
  rw [guarded_append_none ((contextChecks_none s).2 h)]
  refine guarded_none (firstFailing_eq_none.2 fun c hc => ?_)
  obtain ⟨v, hmem, rfl⟩ := List.mem_map.1 hc
  exact decide_eq_false (not_le.2 (hv v hmem))

/-- In a good context, one operand not below m fails the command. -/
theorem State.guarded_below_fail (hv : ∃ v ∈ vs, s.nval 7 ≤ v) (ds : List (Bool × ErrCode)) (go : Out) :
    s.guarded (s.contextChecks ++ (vs.map (belowCheck · s.modulus) ++ ds)) go =
      .next (s.failed .invalidArgument) := by
  rw [guarded_append_none ((contextChecks_none s).2 h)]
  refine guarded_append_some (firstFailing_of_uniform (fun c hc => ?_) ?_) ds go
  · obtain ⟨v, _, rfl⟩ := List.mem_map.1 hc
    rfl
  · obtain ⟨v, hmem, hle⟩ := hv
    exact ⟨_, List.mem_map_of_mem hmem, decide_eq_true hle⟩

end

/-- The four commands that compute modulo m. -/
def UsesContext (i : Instr) : Prop :=
  (∃ rd x y, i = .montmul rd x y) ∨ (∃ rd x e, i = .montexp rd x e) ∨ (∃ e, i = .rsaenc e) ∨ ∃ d, i = .rsadec d

/-- The values that they check to be below m right after the context (R186, R192, R212, R216). -/
def State.operandsBelow (s : State) (i : Instr) : List Nat :=
  match i with
  | .montmul _ x y => [s.nval x, s.nval y]
  | .montexp _ x _ => [s.nval x, s.nval 6, s.nval 5]
  | .rsaenc _ | .rsadec _ => [s.nval 6, s.nval 5]
  | .nop | .loadb _ _ _ | .storeb _ _ | .minv | .aeskeyexp | .aesblk | .aesctr => []

/-- They begin with the same checks: the context, then operands below m. -/
theorem exec_eq_guarded {i : Instr} (hi : UsesContext i) (s : State) : ∃ ds go, exec i s =
    s.guarded (s.contextChecks ++ ((s.operandsBelow i).map (belowCheck · s.modulus) ++ ds)) go := by
  rcases hi with ⟨_, _, _, rfl⟩ | ⟨_, _, _, rfl⟩ | ⟨_, rfl⟩ | ⟨_, rfl⟩
  · exact ⟨[], _, rfl⟩
  · exact ⟨[], _, rfl⟩
  · exact ⟨_, _, rfl⟩
  · exact ⟨_, _, rfl⟩

/-- All but MONTMUL also need RM and RR below m. -/
theorem residues_mem_operandsBelow {i : Instr} (hi : UsesContext i) (hne : ∀ rd x y, i ≠ .montmul rd x y)
    (s : State) : s.nval 6 ∈ s.operandsBelow i ∧ s.nval 5 ∈ s.operandsBelow i := by
  rcases hi with ⟨rd, x, y, rfl⟩ | ⟨_, _, _, rfl⟩ | ⟨_, rfl⟩ | ⟨_, rfl⟩
  · exact absurd rfl (hne rd x y)
  all_goals simp [State.operandsBelow]

/-- Settles O47: the check that fails stands behind checks that pass or have its code. -/
theorem montgomeryErrorsInOrder : Obligations.MontgomeryErrorsInOrder := by
  intro i s hi
  obtain ⟨ds, go, he⟩ := exec_eq_guarded hi s
  have below (hctx : s.ContextOK) {v : Nat} (hmem : v ∈ s.operandsBelow i) (hle : s.nval 7 ≤ v) :
      exec i s = .next (s.failed .invalidArgument) := by
    rw [he]
    exact State.guarded_below_fail hctx _ ⟨v, hmem, hle⟩ ds go
  refine ⟨fun h0 => ?_, fun h0 h2 => ?_, fun h2 hp => ?_, fun hctx => ⟨?_, ?_, fun hne hle => ?_⟩⟩
  · rw [he, State.guarded_append_some (State.contextChecks_zero h0)]
  · rw [he, State.guarded_append_some (State.contextChecks_even h0 h2)]
  · rw [he, State.guarded_append_some (State.contextChecks_mprime h2 hp)]
  · rintro rd x y rfl (hle | hle)
    · exact below hctx (by simp [State.operandsBelow]) hle
    · exact below hctx (by simp [State.operandsBelow]) hle
  · rintro rd x e rfl hle
    exact below hctx (by simp [State.operandsBelow]) hle
  · obtain ⟨h6, h5⟩ := residues_mem_operandsBelow hi hne s
    rcases hle with hle | hle
    · exact below hctx h6 hle
    · exact below hctx h5 hle

/-! ##### The results -/

/-- A value below m written to a BigNum register is read back whole (R8, R36). -/
theorem State.nval_setN_self {s : State} (hs : s.Inv) (rd : RegNo) {v : Nat} (hv : v < s.nval 7) :
    (s.setN rd v).nval rd = v := by
  rw [nval_setN, if_pos rfl, Nat.mod_eq_of_lt (hv.trans (nval_lt hs 7))]

theorem State.nreg_setN_of_ne (s : State) {rd k : RegNo} (v : Nat) (h : k ≠ rd) :
    (s.setN rd v).nreg[k] = s.nreg[k] :=
  Vector.getElem_set_ne rd.isLt k.isLt fun e => h (Fin.ext e.symm)

theorem execMontmul_ok {s : State} (rd : RegNo) {rs1 rs2 : RegNo} (h : s.ContextOK)
    (hx : s.nval rs1 < s.nval 7) (hy : s.nval rs2 < s.nval 7) : execMontmul rd rs1 rs2 s =
      .next ((s.setN rd (mm (s.nval rs1) (s.nval rs2) s.modulus s.mp)).succeeded 0) :=
  State.guarded_below_ok h [_, _] (by simp [hx, hy]) _

theorem execMontexp_ok {s : State} (rd : RegNo) {rs1 : RegNo} (rs2 : RegNo) (h : s.ContextOK)
    (hx : s.nval rs1 < s.nval 7) (h6 : s.nval 6 < s.nval 7) (h5 : s.nval 5 < s.nval 7) :
    execMontexp rd rs1 rs2 s = .next ((s.setN rd (s.modExp (s.nval rs1) (s.nval rs2))).succeeded 0) :=
  State.guarded_below_ok h [_, s.nval 6, s.nval 5] (by simp [hx, h6, h5]) _

/-- Settles O43: what MONTMUL writes is `mm_spec`'s product, which fits in the register. -/
theorem montmulIsTheProduct : Obligations.MontmulIsTheProduct := by
  intro rd rs1 rs2 s hs hctx hx hy
  obtain ⟨hlt, hprod⟩ := mm_spec hctx.2 hx hy
  have hread := State.nval_setN_self hs rd hlt
  refine ⟨_, execMontmul_ok rd hctx hx hy, hread.trans_lt hlt, ?_, fun k hk => s.nreg_setN_of_ne _ hk, rfl⟩
  calc _ = mm (s.nval rs1) (s.nval rs2) (s.nval 7) s.mp * montR (s.nval 7) := congrArg (· * _) hread
    _ ≡ s.nval rs1 * s.nval rs2 [MOD s.nval 7] := hprod

/-- Correct residues are below m (R180). -/
theorem State.ResiduesOK.lt {s : State} (hr : s.ResiduesOK) (h : s.ContextOK) :
    s.nval 6 < s.nval 7 ∧ s.nval 5 < s.nval 7 := by
  obtain ⟨h6, h5⟩ := hr
  exact ⟨h6.trans_lt (Nat.mod_lt _ h.modulus_pos), h5.trans_lt (Nat.mod_lt _ h.modulus_pos)⟩

/-- Settles O45: with correct residues ME is the power, which fits in the register. -/
theorem montexpIsThePower : Obligations.MontexpIsThePower := by
  intro rd rs1 rs2 s hs hctx hres hx
  obtain ⟨h6, h5⟩ := hres.lt hctx
  refine ⟨_, execMontexp_ok rd rs2 hctx hx h6 h5, ?_, fun k hk => s.nreg_setN_of_ne _ hk, rfl⟩
  exact (State.nval_setN_self hs rd (modExp_lt hctx hx h6 h5 _)).trans (modExp_eq hctx hres hx _)

end Sys2Proof.Machine

/-! ### LOADB, STOREB and the swizzle, the range checks of the AES commands, and the exponentiation ladder
(41_bigint_datapath.md R158-R168; 42_montgomery.md R190, R193; 44_aes.md R246, R251; 60_exceptions.md R271) -/

namespace Sys2Proof.Machine

/-! #### Swizzle (R160) -/

/-- Byte j of group q comes from the other end of its group. -/
theorem swizzle_getElem? {s : List Byte} {g q j : Nat} (hj : j < g) (hp : q * g + j < s.length)
    (hn : s.length % g = 0) : (swizzle s g)[q * g + j]? = s[q * g + (g - 1 - j)]? := by
  have hg : 0 < g := Nat.zero_lt_of_lt hj
  have hdiv : (q * g + j) / g = q := by
    rw [Nat.mul_comm, Nat.mul_add_div hg, Nat.div_eq_of_lt hj, Nat.add_zero]
  have hmod : (q * g + j) % g = j := by rw [Nat.mul_add_mod', Nat.mod_eq_of_lt hj]
  have hplace := swizzle_place_lt hg hn hp
  rw [hdiv, hmod] at hplace
  have hget := swizzle_getD s g _ hp
  rw [hdiv, hmod, List.getD_eq_getElem _ _ (by simpa using hp), List.getD_eq_getElem _ _ hplace] at hget
  rw [List.getElem?_eq_getElem (by simpa using hp), List.getElem?_eq_getElem hplace, hget]

/-- A whole group lies inside the string. -/
theorem group_lt_length {n g q j : Nat} (hq : q < n / g) (hj : j < g) : q * g + j < n :=
  calc q * g + j < q * g + g := Nat.add_lt_add_left hj _
    _ = (q + 1) * g := (Nat.succ_mul q g).symm
    _ ≤ n / g * g := Nat.mul_le_mul_right _ hq
    _ ≤ n := Nat.div_mul_le_self n g

/-- Groups of one byte stay as they are. -/
theorem swizzle_one (s : List Byte) : swizzle s 1 = s := by
  refine List.ext_getElem? fun p => ?_
  by_cases hp : p < s.length
  · simpa using swizzle_getElem? (q := p) (j := 0) Nat.one_pos (by simpa using hp) (Nat.mod_one _)
  · rw [List.getElem?_eq_none (by simpa using hp), List.getElem?_eq_none (not_lt.1 hp)]

/-- Settles O38: by the place each byte comes from, and `swizzle_swizzle`. -/
theorem swizzleReversesEachGroup : Obligations.SwizzleReversesEachGroup := fun s g hg hn =>
  ⟨swizzle_length s g, fun _ _ hq hj => swizzle_getElem? hj (group_lt_length hq hj) hn, swizzle_one s,
    swizzle_swizzle s g hg hn⟩

/-! #### Bytes of a value, and a range read after it was written (R9) -/

/-- Byte j of n big-endian bytes is digit n - 1 - j in base 256. -/
theorem beBytes_getD (v : Nat) {n j : Nat} (hj : j < n) :
    (beBytes v n).getD j 0 = BitVec.ofNat 8 (v / 256 ^ (n - 1 - j)) := by
  induction n generalizing j with
  | zero => omega
  | succ n ih =>
    cases j with
    | zero => rfl
    | succ j =>
      rw [beBytes, List.getD_cons_succ, ih (by omega)]
      congr 3
      omega

/-- A byte inside a range that was just written. -/
theorem State.bufRead_memWrite_inside (s : State) {a j : Nat} {xs : List Byte}
    (hin : a + xs.length ≤ s.cfg.bufBytes) (hj : j < xs.length) :
    (s.memWrite a xs).bufRead (a + j) = xs.getD j 0 := by
  rw [bufRead_memWrite _ _ _ _ hin, if_pos ⟨Nat.le_add_right _ _, Nat.add_lt_add_left hj _⟩,
    Nat.add_sub_cancel_left]

theorem State.memRead_memWrite_self (s : State) {a : Nat} {xs : List Byte}
    (hin : a + xs.length ≤ s.cfg.bufBytes) : (s.memWrite a xs).memRead a xs.length = xs := by
  refine List.ext_getElem (memRead_length ..) fun j hj hj' => ?_
  rw [memRead_getElem, bufRead_memWrite_inside s hin hj', List.getD_eq_getElem]

/-! #### The checks of the byte transfers (R76, R161, R167) -/

@[simp] theorem swizzleCheck_fst_eq_true_iff (g n : Nat) :
    (swizzleCheck g n).1 = true ↔ g ≠ 0 ∧ n % g ≠ 0 := by
  simp [swizzleCheck]

@[simp] theorem State.rangeCheck_fst_eq_true_iff (s : State) (a n : Nat) :
    (s.rangeCheck a n).1 = true ↔ s.cfg.bufBytes < a + n := by
  simp [State.rangeCheck, State.inBuf]

@[simp] theorem State.rangeCheck_snd (s : State) (a n : Nat) : (s.rangeCheck a n).2 = .outOfRange := rfl

/-- The first check of LOADB and STOREB fails: a count that is no multiple of the swizzle size. -/
theorem firstFailing_swizzleCheck_fails {g n : Nat} (hg : g ≠ 0) (hn : n % g ≠ 0) (cs : List (Bool × ErrCode)) :
    firstFailing (swizzleCheck g n :: cs) = some .invalidArgument :=
  (firstFailing_cons _ _ _).trans (if_pos ((swizzleCheck_fst_eq_true_iff g n).2 ⟨hg, hn⟩))

/-- The first check of LOADB and STOREB passes. -/
theorem firstFailing_swizzleCheck_passes {g n : Nat} (h : g = 0 ∨ n % g = 0) (cs : List (Bool × ErrCode)) :
    firstFailing (swizzleCheck g n :: cs) = firstFailing cs := by
  refine (firstFailing_cons _ _ _).trans (if_neg fun hfail => ?_)
  obtain ⟨hg, hn⟩ := (swizzleCheck_fst_eq_true_iff g n).1 hfail
  exact h.elim hg hn

/-- Settles O40: behind the swizzle check every check has the code OUT_OF_RANGE, and so do both of the AES
commands. -/
theorem transferAndAesErrorsInOrder : Obligations.TransferAndAesErrorsInOrder := by
  intro r swsz pz s
  refine ⟨fun hg hn => State.guarded_some (firstFailing_swizzleCheck_fails hg hn _), fun hn hfail => ?_,
    fun hg hn => State.guarded_some (firstFailing_swizzleCheck_fails hg hn _), fun hn hfail => ?_,
    fun hfail => ?_, fun hfail => ?_⟩
  · refine State.guarded_some ((firstFailing_swizzleCheck_passes hn _).trans ?_)
    exact firstFailing_of_uniform (by simp) (by simpa [State.loadValue, State.loadBytes] using hfail)
  · refine State.guarded_some ((firstFailing_swizzleCheck_passes hn _).trans ?_)
    exact firstFailing_of_uniform (by simp) (by simpa using hfail)
  · exact State.guarded_some (firstFailing_of_uniform (by simp) (by simpa using hfail))
  · exact State.guarded_some (firstFailing_of_uniform (by simp) (by simpa using hfail))

/-! #### LOADB and STOREB past their checks (R161, R167, R168) -/

theorem execLoadb_ok {s : State} (rd : RegNo) {swsz : Nat} {pz : Bool} (hn : swsz = 0 ∨ s.srcLen % swsz = 0)
    (hin : s.srcAddr + s.srcLen ≤ s.cfg.bufBytes) (hv : s.loadValue rd swsz pz < radix ^ s.cfg.lMax) :
    execLoadb rd swsz pz s = .next ((s.setN rd (s.loadValue rd swsz pz)).succeeded 0) := by
  refine State.guarded_none ((firstFailing_swizzleCheck_passes hn _).trans ?_)
  simp [firstFailing_eq_none, -firstFailing_cons, ← Bool.not_eq_true, hin, hv]

theorem execStoreb_ok {s : State} (rs1 : RegNo) {swsz : Nat} (hn : swsz = 0 ∨ s.dstLen % swsz = 0)
    (hin : s.dstAddr + s.dstLen ≤ s.cfg.bufBytes) :
    execStoreb rs1 swsz s = .next ((s.memWrite s.dstAddr (s.storeBytes rs1 swsz)).succeeded 0) := by
  refine State.guarded_none ((firstFailing_swizzleCheck_passes hn _).trans ?_)
  simp [firstFailing_eq_none, -firstFailing_cons, ← Bool.not_eq_true, hin]

/-- Settles O36: the value passes the last check, so the register holds it whole. -/
theorem loadbLoadsTheValue : Obligations.LoadbLoadsTheValue := by
  rintro rd swsz pz s v hn hin rfl hv
  refine ⟨_, execLoadb_ok rd hn hin hv, ?_, fun k hk => s.nreg_setN_of_ne _ hk, rfl⟩
  exact (s.nval_setN rd rd _).trans ((if_pos rfl).trans (Nat.mod_eq_of_lt hv))

/-- Settles O37: what MemWrite leaves in its range, byte by byte, and outside it. -/
theorem storebStoresTheBytes : Obligations.StorebStoresTheBytes := by
  intro rs1 swsz s hn hin
  have hlen : (s.storeBytes rs1 swsz).length = s.dstLen := storeBytes_length s rs1 swsz
  rw [← hlen] at hin
  have hstep := State.BufStep.memWrite s s.dstAddr (s.storeBytes rs1 swsz)
  have hread := s.memRead_memWrite_self hin
  rw [hlen] at hread hstep
  refine ⟨_, execStoreb_ok rs1 hn (hlen ▸ hin), hread, fun h0 j hj => ?_, hstep.outside,
    congrArg (State.succeeded · 0) hstep.only⟩
  have hplain : s.storeBytes rs1 swsz = beBytes (s.nval rs1) s.dstLen := if_pos h0
  have hget : (s.storeBytes rs1 swsz).getD j 0 = BitVec.ofNat 8 (s.nval rs1 / 256 ^ (s.dstLen - 1 - j)) := by
    rw [hplain, beBytes_getD _ hj]
  have hbyte := (s.bufRead_memWrite_inside hin (hj.trans_eq hlen.symm)).trans hget
  exact (congrArg BitVec.toNat hbyte).trans (BitVec.toNat_ofNat ..)

/-- Settles O39: the register holds the swizzled bytes' value, whose bytes are they; swizzling undoes itself. -/
theorem loadThenStoreWritesBack : Obligations.LoadThenStoreWritesBack := by
  intro k swsz s hn hcount hfit hsrc hdst
  have hlen : (swizzleBy swsz (s.memRead s.srcAddr s.srcLen)).length = s.srcLen := by simp
  have hbound := beVal_lt (swizzleBy swsz (s.memRead s.srcAddr s.srcLen))
  rw [hlen] at hbound
  obtain ⟨t, ht, hval, _, hframe⟩ := loadbLoadsTheValue k swsz true s _ hn hsrc
    (by rw [if_pos rfl, Nat.zero_mul, Nat.zero_add]) (hbound.trans_le hfit)
  have haddr : t.dstAddr = s.dstAddr := by rw [hframe]; rfl
  have htlen : t.dstLen = s.srcLen := by rw [hframe]; exact hcount
  have hcfg : t.cfg = s.cfg := by rw [hframe]; rfl
  obtain ⟨u, hu, hread, _⟩ := storebStoresTheBytes k swsz t (by rwa [htlen])
    (by rwa [haddr, htlen, hcfg, ← hcount])
  refine ⟨t, u, ht, hu, ?_⟩
  rw [haddr, htlen, hval, beBytes_beVal _ _ hlen] at hread
  rw [hcount, hread, swizzleBy_swizzleBy _ _ (by simpa using hn)]

/-! #### The exponentiation ladder (R158, R190, R193) -/

theorem foldl_bits_lt (bits : List Bool) : bits.foldl (fun p b => 2 * p + b.toNat) 0 < 2 ^ bits.length := by
  induction bits with
  | nil => simp
  | cons b bits ih =>
    have hb : b.toNat * 2 ^ bits.length ≤ 1 * 2 ^ bits.length := Nat.mul_le_mul_right _ b.toNat_le
    rw [List.foldl_cons, foldl_bits_from, List.length_cons, pow_succ, Nat.mul_zero, Nat.zero_add]
    omega

/-- The leading j bits are the number without its other bits. -/
theorem foldl_bits_take (bits : List Bool) (j : Nat) : (bits.take j).foldl (fun p b => 2 * p + b.toNat) 0 =
    bits.foldl (fun p b => 2 * p + b.toNat) 0 / 2 ^ (bits.length - j) := by
  have hsplit : bits.foldl (fun p b => 2 * p + b.toNat) 0 =
      (bits.take j).foldl (fun p b => 2 * p + b.toNat) 0 * 2 ^ (bits.length - j) +
        (bits.drop j).foldl (fun p b => 2 * p + b.toNat) 0 := by
    rw [← List.length_drop, ← foldl_bits_from, ← List.foldl_append, List.take_append_drop]
  have hlow := foldl_bits_lt (bits.drop j)
  rw [List.length_drop] at hlow
  rw [hsplit, Nat.mul_comm, Nat.mul_add_div (by positivity), Nat.div_eq_of_lt hlow, Nat.add_zero]

/-- After any bits the accumulator is x^p in Montgomery form, p their number (R193, derived there). -/
theorem ladder_modEq {x m mp : Nat} (h : (m * mp + 1) % radix = 0) (hx : x < m) (bits : List Bool) :
    bits.foldl (meStep (mm x (montR m ^ 2 % m) m mp) m mp) (montR m % m) ≡
      x ^ bits.foldl (fun p b => 2 * p + b.toNat) 0 * montR m [MOD m] := by
  have hpos : 0 < m := Nat.zero_lt_of_lt hx
  have hrr : montR m ^ 2 % m < m := Nat.mod_lt _ hpos
  have hunit : (montR m : ZMod m) * (montR m : ZMod m)⁻¹ = 1 := ZMod.coe_mul_inv_eq_one _ (coprime_radix h _)
  have hxbar : ((mm x (montR m ^ 2 % m) m mp : Nat) : ZMod m) * (montR m : ZMod m)⁻¹ = x := by
    rw [mm_cast h hx hrr, ZMod.natCast_mod]
    push_cast
    linear_combination (x : ZMod m) * ((montR m : ZMod m) * (montR m : ZMod m)⁻¹ + 1) * hunit
  obtain ⟨_, hladder⟩ := ladder_spec h (mm_spec h hx hrr).1 bits _ (Nat.mod_lt (montR m) hpos)
  rw [ZMod.natCast_mod, hunit, one_pow, one_mul, hxbar] at hladder
  rw [← ZMod.natCast_eq_natCast_iff]
  push_cast
  rw [← hladder, mul_assoc, mul_comm _ (montR m : ZMod m), hunit, mul_one]

/-- Settles O44: `me_spec`, and the ladder's invariant on the leading bits. -/
theorem ladderIsThePower : Obligations.LadderIsThePower := by
  intro x e m mp _ hmp hx
  refine ⟨me_spec hmp hx, fun j _ => ?_⟩
  have hleading := foldl_bits_take (ebits e) j
  rw [foldl_ebits, ebits_length] at hleading
  rw [← hleading]
  exact ladder_modEq hmp hx _

end Sys2Proof.Machine

/-! ### MINV, and MONTEXP with any residues (42_montgomery.md R181, R192, R194) -/

namespace Sys2Proof.Machine

/-! #### MINV (R181) -/

/-- R181's first check. -/
theorem modulusChecks_zero {m : Nat} (h0 : m = 0) :
    firstFailing (modulusChecks m) = some .invalidArgument := by
  subst h0
  rfl

/-- R181's second check. -/
theorem modulusChecks_even {m : Nat} (h0 : m ≠ 0) (h2 : m % 2 = 0) :
    firstFailing (modulusChecks m) = some .preconditionFailed := by
  simp [modulusChecks, h0, h2]

/-- R181's checks pass for an odd modulus. -/
theorem modulusChecks_odd {m : Nat} (h : m % 2 = 1) : firstFailing (modulusChecks m) = none := by
  have h0 : m ≠ 0 := by rintro rfl; cases h
  simp [modulusChecks, h0, h]

/-- The digit m' of an odd modulus as MPRIME holds it. -/
def minvDigit (m : Nat) : BitVec 31 := BitVec.ofNat 31 (montInverse m)

theorem minvDigit_spec {m : Nat} (h : m % 2 = 1) : (m * (minvDigit m).toNat + 1) % 2 ^ 31 = 0 := by
  obtain ⟨hlt, hinv⟩ := montInverse_spec h
  rwa [minvDigit, BitVec.toNat_ofNat, Nat.mod_eq_of_lt hlt]

/-- MINV past its checks writes the digit to MPRIME and RESULT. -/
theorem execMinv_ok {s : State} (h : s.nval 7 % 2 = 1) : execMinv s =
    .next (({ s with mprime := minvDigit (s.nval 7) } : State).succeeded
      (BitVec.ofNat 32 (minvDigit (s.nval 7)).toNat)) := by
  rw [BitVec.ofNat_toNat]
  exact State.guarded_none (modulusChecks_odd h)

/-- Whatever digit solves R181's equation is the one that MINV writes. -/
theorem eq_minvDigit {m u : Nat} (h : m % 2 = 1) (hu : u < 2 ^ 31) (hsol : (m * u + 1) % 2 ^ 31 = 0) :
    u = (minvDigit m).toNat :=
  mprime_unique hu (minvDigit m).isLt hsol (minvDigit_spec h)

/-- Settles O41: MINV's digit solves R181's equation, and the corner values by its uniqueness. -/
theorem minvFindsTheInverse : Obligations.MinvFindsTheInverse := by
  refine ⟨by decide, fun s => ⟨fun hodd => ?_, fun h0 => ?_, fun h0 h2 => ?_⟩⟩
  · have corner {m u : Nat} (hm : s.nval 7 = m) (hu : u < 2 ^ 31) (hsol : (m * u + 1) % 2 ^ 31 = 0) :
        (minvDigit (s.nval 7)).toNat = u :=
      (eq_minvDigit hodd hu (hm ▸ hsol)).symm
    exact ⟨_, execMinv_ok hodd, minvDigit_spec hodd, fun u => eq_minvDigit hodd, rfl,
      fun hm => corner hm (by decide) (by decide), fun hm => corner hm (by decide) (by decide),
      fun hm => corner hm (by decide) (by decide)⟩
  · exact State.guarded_some (modulusChecks_zero h0)
  · exact State.guarded_some (modulusChecks_even h0 h2)

/-! #### MONTEXP with any residues (R194) -/

/-- R194's closed form of ME, with its powers of R^-1 multiplied away. -/
theorem me_mul_montR_pow {x e m mp rm rr : Nat} (h : (m * mp + 1) % radix = 0) (hx : x < m) (hm : rm < m)
    (hr : rr < m) : me x e m mp rm rr * montR m ^ (2 ^ bitlen e + 2 * e) ≡
      rm ^ 2 ^ bitlen e * (x * rr) ^ e [MOD m] := by
  have hunit : (montR m : ZMod m) * (montR m : ZMod m)⁻¹ = 1 := ZMod.coe_mul_inv_eq_one _ (coprime_radix h _)
  rw [← ZMod.natCast_eq_natCast_iff]
  push_cast
  rw [(me_cast h hx hm hr).2]
  set R : ZMod m := (montR m : ZMod m)
  calc _ = (rm * (R * R⁻¹)) ^ 2 ^ bitlen e * (x * rr * (R * R⁻¹) * (R * R⁻¹)) ^ e := by
        rw [pow_add, pow_mul]
        ring
    _ = rm ^ 2 ^ bitlen e * (x * rr) ^ e := by rw [hunit, mul_one, mul_one, mul_one]

/-- Settles O46: what MONTEXP writes has R194's closed form and fits in the register. -/
theorem montexpWithAnyResidues : Obligations.MontexpWithAnyResidues := by
  intro rd rs1 rs2 s hs hctx hx h6 h5
  have hlt := modExp_lt hctx hx h6 h5 (s.nval rs2)
  have hread := State.nval_setN_self hs rd hlt
  refine ⟨_, execMontexp_ok rd rs2 hctx hx h6 h5, hread.trans_lt hlt, ?_,
    fun k hk => s.nreg_setN_of_ne _ hk, rfl⟩
  calc _ = s.modExp (s.nval rs1) (s.nval rs2) * _ := congrArg (· * _) hread
    _ ≡ _ [MOD s.nval 7] := me_mul_montR_pow hctx.2 hx h6 h5

end Sys2Proof.Machine

/-! ### The RSA block layer: input blocks, what fails, and the round trip (43_rsa.md R210-R219;
60_exceptions.md R271, R274) -/

namespace Sys2Proof.Machine

/-! #### Input blocks, and RSADEC failing at a block (R211, R216) -/

/-- Settles O48: a string is below 256 to its length, and ib bytes are at most bitlen(m) - 1 bits. -/
theorem rsaInputBlocksAreBelowTheModulus : Obligations.RsaInputBlocksAreBelowTheModulus := by
  intro m s hm hlen
  refine ⟨(beVal_lt s).trans_le (Nat.pow_le_pow_right (by norm_num) hlen), ?_, pow_bitlen_le hm.ne'⟩
  calc 256 ^ inBlock m = 2 ^ (8 * inBlock m) := by rw [pow_mul]; norm_num
    _ ≤ 2 ^ (bitlen m - 1) := Nat.pow_le_pow_right (by norm_num) (Nat.mul_div_le _ 8)

/-- Settles O51: the loop is the chain up to block j, whose failure makes the destination unspecified. -/
theorem rsadecFailsMidRun : Obligations.RsadecFailsMidRun := by
  intro r s j hop hlen f c hj hfits hbad
  have hexec : exec (.rsadec r) s = _ := execRsadec_midrun r hop hlen hj hfits hbad
  obtain ⟨_, _, _, _, hdst⟩ := hop
  exact ⟨_, hexec, congrArg (State.failed · _) (s.unspecify_eq _ _), fun a => s.bufRead_unspecify _ _ a hdst⟩

/-! #### The checks after the shared ones (R212, R216, R271) -/

section
variable {s : State} (hctx : s.ContextOK) (h6 : s.nval 6 < s.nval 7) (h5 : s.nval 5 < s.nval 7)
include hctx h6 h5

/-- With a good context, and RM and RR below m, only the checks behind these are left. -/
theorem State.guarded_residues_ok (ds : List (Bool × ErrCode)) (go : Out) :
    s.guarded (s.contextChecks ++ ([belowCheck s.rModM s.modulus, belowCheck s.rrModM s.modulus] ++ ds)) go =
      s.guarded ds go := by
  have hbelow : firstFailing [belowCheck s.rModM s.modulus, belowCheck s.rrModM s.modulus] = none := by
    have hrm : ¬ s.modulus ≤ s.rModM := not_le.2 h6
    have hrr : ¬ s.modulus ≤ s.rrModM := not_le.2 h5
    simp [belowCheck, hrm, hrr]
  rw [guarded_append_none ((contextChecks_none s).2 hctx), guarded_append_none hbelow]

/-- RSAENC behind the shared checks. -/
theorem exec_rsaenc_eq_guarded (r : RegNo) : ∃ go, exec (.rsaenc r) s =
    s.guarded ([s.rangeCheck s.srcAddr s.srcLen, s.rangeCheck s.dstAddr s.dstLen] ++
      [(inBlock (s.nval 7) == 0, .invalidArgument),
       (decide (s.dstLen < (s.srcLen + inBlock (s.nval 7) - 1) / inBlock (s.nval 7) * outBlock (s.nval 7)),
        .invalidArgument)]) go :=
  ⟨_, State.guarded_residues_ok hctx h6 h5 _ _⟩

/-- RSADEC behind the shared checks. -/
theorem exec_rsadec_eq_guarded (r : RegNo) : ∃ go, exec (.rsadec r) s =
    s.guarded ([s.rangeCheck s.srcAddr s.srcLen, s.rangeCheck s.dstAddr s.dstLen] ++
      [(decide (s.srcLen % outBlock (s.nval 7) ≠ 0), .invalidArgument)]) go :=
  ⟨_, State.guarded_residues_ok hctx h6 h5 _ _⟩

end

/-- Settles O52: the two ranges have one code, and so have the checks behind them. -/
theorem rsaErrorsInOrder : Obligations.RsaErrorsInOrder := by
  intro r s hctx h6 h5
  obtain ⟨_, henc⟩ := exec_rsaenc_eq_guarded hctx h6 h5 r
  obtain ⟨_, hdec⟩ := exec_rsadec_eq_guarded hctx h6 h5 r
  rw [henc, hdec]
  refine ⟨fun hfail => ?_, fun ⟨_, _, _, hsrc, hdst⟩ => ?_⟩
  · have hrange : firstFailing [s.rangeCheck s.srcAddr s.srcLen, s.rangeCheck s.dstAddr s.dstLen] =
        some .outOfRange := firstFailing_of_uniform (by simp) (by simpa using hfail)
    exact ⟨State.guarded_append_some hrange _ _, State.guarded_append_some hrange _ _⟩
  · have hrange : firstFailing [s.rangeCheck s.srcAddr s.srcLen, s.rangeCheck s.dstAddr s.dstLen] = none := by
      simp [firstFailing_eq_none, -firstFailing_cons, ← Bool.not_eq_true, hsrc, hdst]
    rw [State.guarded_append_none hrange, State.guarded_append_none hrange]
    refine ⟨fun hfail => State.guarded_some (firstFailing_of_uniform (by simp) ?_),
      fun hfail => State.guarded_some (firstFailing_of_uniform (by simp) ?_)⟩
    · simpa using hfail
    · simpa using hfail

/-! #### RSA in the integers modulo m (R219) -/

/-- A number that every prime factor of a squarefree m divides is a multiple of m. -/
theorem dvd_of_squarefree {m n : Nat} (hm : Squarefree m) (h : ∀ p, p.Prime → p ∣ m → p ∣ n) : m ∣ n := by
  rw [← Nat.prod_primeFactors_of_squarefree hm]
  exact Finset.prod_primes_dvd n (fun p hp => (Nat.prime_of_mem_primeFactors hp).prime) fun p hp =>
    h p (Nat.prime_of_mem_primeFactors hp) (Nat.dvd_of_mem_primeFactors hp)

/-- Fermat's little theorem for an exponent that is 1 modulo p - 1. -/
theorem pow_modEq_self_of_prime {p k : Nat} (hp : p.Prime) (hk : k ≠ 0) (h : k ≡ 1 [MOD p - 1]) (x : Nat) :
    x ^ k ≡ x [MOD p] := by
  have := Fact.mk hp
  rw [← ZMod.natCast_eq_natCast_iff]
  push_cast
  by_cases hx : (x : ZMod p) = 0
  · rw [hx, zero_pow hk]
  · rw [pow_eq_pow_of_modEq h (ZMod.pow_card_sub_one_eq_one hx), pow_one]

/-- The same modulo a product of distinct primes. -/
theorem pow_modEq_self_of_squarefree {m k : Nat} (hm : Squarefree m) (hk : k ≠ 0)
    (h : ∀ p, p.Prime → p ∣ m → k ≡ 1 [MOD p - 1]) (x : Nat) : x ^ k ≡ x [MOD m] := by
  refine ((Nat.modEq_iff_dvd' (Nat.le_self_pow hk x)).2 (dvd_of_squarefree hm fun p hp hpm => ?_)).symm
  exact (Nat.modEq_iff_dvd' (Nat.le_self_pow hk x)).1 (pow_modEq_self_of_prime hp hk (h p hp hpm) x).symm

/-- An exponent that is 1 modulo p - 1 for a factor p of an odd m above 1 is not 0. -/
theorem exponent_ne_zero {m k : Nat} (hodd : m % 2 = 1) (hm : m ≠ 1)
    (h : ∀ p, p.Prime → p ∣ m → k ≡ 1 [MOD p - 1]) : k ≠ 0 := by
  rintro rfl
  obtain ⟨p, hp, hpm⟩ := Nat.exists_prime_and_dvd hm
  have hp2 : p ≠ 2 := by
    rintro rfl
    omega
  have hle := Nat.le_of_dvd Nat.one_pos ((Nat.modEq_zero_iff_dvd).1 (h p hp hpm).symm)
  have := hp.two_le
  omega

/-- Decryption undoes encryption on values below m. -/
theorem pow_mod_pow_mod {m e d x : Nat} (hodd : m % 2 = 1) (hm : m ≠ 1) (hsq : Squarefree m)
    (h : ∀ p, p.Prime → p ∣ m → e * d ≡ 1 [MOD p - 1]) (hx : x < m) : (x ^ e % m) ^ d % m = x :=
  calc (x ^ e % m) ^ d % m = x ^ (e * d) % m := by rw [← Nat.pow_mod, ← pow_mul]
    _ = x % m := pow_modEq_self_of_squarefree hsq (exponent_ne_zero hodd hm h) h x
    _ = x := Nat.mod_eq_of_lt hx

/-! #### Byte strings and ranges of BUF (R9) -/

/-- A string that does not start with a zero byte is the significant bytes of its value. -/
theorem beBytes_nbytes_beVal {s : List Byte} (h : s.head? ≠ some 0) :
    beBytes (beVal s) (nbytes (beVal s)) = s := by
  refine beBytes_beVal s _ ?_
  cases s with
  | nil => rfl
  | cons x s =>
    have hx : 1 ≤ x.toNat := Nat.pos_of_ne_zero fun h0 => h (congrArg some (BitVec.eq_of_toNat_eq h0))
    have hlarge : 256 ^ s.length ≤ beVal (x :: s) := by
      rw [beVal_cons]
      exact (Nat.le_mul_of_pos_left _ hx).trans (Nat.le_add_right _ _)
    have hgt : s.length < nbytes (beVal (x :: s)) :=
      not_le.1 ((not_congr (nbytes_le_iff _ _)).2 (not_lt.2 hlarge))
    exact Nat.le_antisymm hgt ((nbytes_le_iff _ _).2 (beVal_lt _))

namespace State

theorem memRead_head? (s : State) (a : Nat) {n : Nat} (hn : n ≠ 0) : (s.memRead a n).head? = some (s.bufRead a) := by
  simp [memRead, List.head?_range, hn]

theorem memRead_add (s : State) (a m n : Nat) :
    s.memRead a (m + n) = s.memRead a m ++ s.memRead (a + m) n := by
  simp [memRead, List.range_add, Nat.add_assoc, Function.comp_def]

/-- A stretch of a range is a range. -/
theorem take_drop_memRead (s : State) (a n i k : Nat) :
    ((s.memRead a n).drop i).take k = s.memRead (a + i) (min k (n - i)) := by
  refine List.ext_getElem (by simp) fun j _ _ => ?_
  simp only [List.getElem_take, List.getElem_drop, memRead_getElem, Nat.add_assoc]

/-- A string written right behind a range lengthens what is read. -/
theorem memRead_memWrite_append (s : State) {a w : Nat} {xs : List Byte}
    (hin : a + w + xs.length ≤ s.cfg.bufBytes) :
    (s.memWrite (a + w) xs).memRead a (w + xs.length) = s.memRead a w ++ xs := by
  rw [memRead_add, memRead_memWrite_self s hin,
    memRead_congr fun j hj => bufRead_memWrite_outside s _ _ (.inl (Nat.add_lt_add_left hj a))]

/-- A range that does not meet the changed one reads as before. -/
theorem BufStep.memRead_eq {s t : State} {a n b k : Nat} (h : s.BufStep t a n) (hd : b + k ≤ a ∨ a + n ≤ b) :
    t.memRead b k = s.memRead b k :=
  memRead_congr fun j hj => h.outside (b + j) (by omega)

end State

/-! #### What the block loops leave (R212, R216, R77) -/

/-- Block j is one of the ceil(n / ib) blocks when it starts inside the n bytes. -/
theorem lt_ceil_iff_mul_lt {n ib : Nat} (hib : 0 < ib) (j : Nat) : j < (n + ib - 1) / ib ↔ j * ib < n := by
  rw [← not_le, ← not_le, not_iff_not, mul_comm]
  exact ceilDiv_le_iff_le_mul hib

section
variable {s : State} {f : Nat → Nat}

/-- When the input and the output do not meet, RSAENC reads each block as it was at START. -/
theorem encValue_encChain {j : Nat} (hj : j * inBlock (s.nval 7) ≤ s.srcLen)
    (hd : s.srcAddr + s.srcLen ≤ s.dstAddr ∨ s.dstAddr + j * outBlock (s.nval 7) ≤ s.srcAddr) :
    s.encValue (s.encChain f j) j = s.encValue s j :=
  congrArg beVal ((encChain_bufStep s f j).memRead_eq (by omega))

/-- RSAENC leaves each block in its output slot. -/
theorem memRead_encChain {n j : Nat} (hj : j < n) (hin : s.dstAddr + n * outBlock (s.nval 7) ≤ s.cfg.bufBytes) :
    (s.encChain f n).memRead (s.dstAddr + j * outBlock (s.nval 7)) (outBlock (s.nval 7)) =
      beBytes (f (s.encValue (s.encChain f j) j)) (outBlock (s.nval 7)) := by
  induction n with
  | zero => exact absurd hj (Nat.not_lt_zero j)
  | succ n ih =>
    rw [Nat.succ_mul] at hin
    rw [State.encChain]
    rcases Nat.lt_succ_iff_lt_or_eq.1 hj with hlt | rfl
    · have hslot : (j + 1) * outBlock (s.nval 7) ≤ n * outBlock (s.nval 7) := Nat.mul_le_mul_right _ hlt
      rw [Nat.succ_mul] at hslot
      rw [(State.BufStep.memWrite _ _ _).memRead_eq (.inl (by omega)), ih hlt (by omega)]
    · have hself := (s.encChain f j).memRead_memWrite_self (a := s.dstAddr + j * outBlock (s.nval 7))
        (xs := beBytes (f (s.encValue (s.encChain f j) j)) (outBlock (s.nval 7)))
        (by rw [beBytes_length, (encChain_bufStep s f j).cfg]; omega)
      rwa [beBytes_length] at hself

/-- When the input and the output do not meet, each slot holds f of its block's value. -/
theorem beVal_memRead_encChain {n j : Nat} (hj : j < n) (hstart : j * inBlock (s.nval 7) ≤ s.srcLen)
    (hd : s.srcAddr + s.srcLen ≤ s.dstAddr ∨ s.dstAddr + n * outBlock (s.nval 7) ≤ s.srcAddr)
    (hin : s.dstAddr + n * outBlock (s.nval 7) ≤ s.cfg.bufBytes) (hf : ∀ x, f x < s.nval 7) :
    beVal ((s.encChain f n).memRead (s.dstAddr + j * outBlock (s.nval 7)) (outBlock (s.nval 7))) =
      f (s.encValue s j) := by
  have hslot : j * outBlock (s.nval 7) ≤ n * outBlock (s.nval 7) := Nat.mul_le_mul_right _ hj.le
  rw [memRead_encChain hj hin, encValue_encChain hstart (by omega), beVal_beBytes,
    Nat.mod_eq_of_lt ((hf _).trans (lt_pow_outBlock _))]

/-- When the ciphertext and the output do not meet, RSADEC reads each block as it was at START. -/
theorem decValue_decChain {n j l : Nat} (hd : s.dstAddr + l ≤ s.srcAddr ∨
      s.srcAddr + n * outBlock (s.nval 7) ≤ s.dstAddr) (hj : j < n) (hl : (s.decChain f j).2 ≤ l) :
    s.decValue (s.decChain f j).1 j = s.decValue s j := by
  have hslot : (j + 1) * outBlock (s.nval 7) ≤ n * outBlock (s.nval 7) := Nat.mul_le_mul_right _ hj
  rw [Nat.succ_mul] at hslot
  exact congrArg beVal ((decChain_bufStep s f j).memRead_eq (by omega))

end

/-- The first n blocks of RSADEC, as they stand at START, go out as the successive pieces of ib bytes of xs. -/
def State.DecodesTo (s : State) (f : Nat → Nat) (xs : List Byte) (ib n : Nat) : Prop :=
  ∀ j, j < n → beBytes (f (s.decValue s j)) (nbytes (f (s.decValue s j))) = (xs.drop (j * ib)).take ib

section
variable {s : State} {f : Nat → Nat} {xs : List Byte} {ib n : Nat} (h : s.DecodesTo f xs ib n)
  (hin : s.dstAddr + xs.length ≤ s.cfg.bufBytes)
  (hd : s.dstAddr + xs.length ≤ s.srcAddr ∨ s.srcAddr + n * outBlock (s.nval 7) ≤ s.dstAddr)
include h hin hd

/-- After j blocks of RSADEC the output is the first j pieces of xs. -/
theorem memRead_decChain {j : Nat} (hj : j ≤ n) :
    (s.decChain f j).1.memRead s.dstAddr (s.decChain f j).2 = xs.take (j * ib) := by
  induction j with
  | zero => simp [State.decChain, State.memRead]
  | succ j ih =>
    have hread := ih (by omega)
    have hcount : (s.decChain f j).2 = min (j * ib) xs.length := by
      rw [← List.length_take, ← hread, State.memRead_length]
    have hvalue := decValue_decChain (f := f) hd hj (hcount.trans_le (min_le_right _ _))
    have hroom : s.dstAddr + (s.decChain f j).2 + ((xs.drop (j * ib)).take ib).length ≤
        (s.decChain f j).1.cfg.bufBytes := by
      rw [(decChain_bufStep s f j).cfg, hcount, List.length_take, List.length_drop]
      omega
    have happend := State.memRead_memWrite_append _ hroom
    rw [Nat.succ_mul, List.take_add, ← hread, ← happend, ← h j hj, beBytes_length, ← hvalue]
    rfl

/-- After j blocks of RSADEC the count of bytes written is the length of the first j pieces. -/
theorem decChain_snd {j : Nat} (hj : j ≤ n) : (s.decChain f j).2 = min (j * ib) xs.length := by
  rw [← List.length_take, ← memRead_decChain h hin hd hj, State.memRead_length]

end

/-- RSADEC in a correct context, past its checks, on blocks that decode to xs: it writes xs. -/
theorem exec_rsadec_of_decodesTo {s : State} (r : RegNo) {xs : List Byte} {ib n : Nat} (hop : s.RsaOperandsOK)
    (hres : s.ResiduesOK) (hlen : s.srcLen = n * outBlock (s.nval 7))
    (hbelow : ∀ j, j < n → s.decValue s j < s.nval 7)
    (h : s.DecodesTo (fun c => c ^ s.nval r % s.nval 7) xs ib n) (hxs : xs.length ≤ n * ib)
    (hcap : xs.length ≤ s.dstLen) (hd : s.dstAddr + xs.length ≤ s.srcAddr ∨
      s.srcAddr + n * outBlock (s.nval 7) ≤ s.dstAddr) :
    ∃ t, exec (.rsadec r) s = .next t ∧ t.status.errcode = .noError ∧ t.result.toNat = xs.length ∧
      t.memRead s.dstAddr xs.length = xs := by
  have ⟨hctx, _, _, _, hdst⟩ := hop
  have hin : s.dstAddr + xs.length ≤ s.cfg.bufBytes := by omega
  have hblocks : s.srcLen / outBlock (s.nval 7) = n := by
    rw [hlen, Nat.mul_div_cancel _ (outBlock_pos hctx.modulus_pos)]
  have hcount {j : Nat} (hj : j ≤ n) := (decChain_snd h hin hd hj).trans_le (min_le_right _ _)
  have hfits : ∀ j, j < n → s.decFits (fun c => c ^ s.nval r % s.nval 7) j := fun j hj =>
    ⟨(decValue_decChain hd hj (hcount hj.le)).trans_lt (hbelow j hj), (hcount hj).trans hcap⟩
  have hexec := (rsadecDecryptsEachBlock r s hop (by rw [hlen, Nat.mul_mod_left])).2 hres (hblocks ▸ hfits)
  rw [hblocks] at hexec
  have hall : (s.decChain (fun c => c ^ s.nval r % s.nval 7) n).2 = xs.length :=
    (decChain_snd h hin hd le_rfl).trans (min_eq_right hxs)
  have hread := memRead_decChain h hin hd le_rfl
  rw [hall, List.take_of_length_le hxs] at hread
  refine ⟨_, hexec, rfl, ?_, hread⟩
  have hword : xs.length < 2 ^ 32 := hcap.trans_lt s.args[3].isLt
  exact (BitVec.toNat_ofNat ..).trans (by rw [hall, Nat.mod_eq_of_lt hword])

/-! #### The round trip (R219) -/

/-- A modulus that holds a byte is not 1. -/
theorem ne_one_of_inBlock_pos {m : Nat} (h : 0 < inBlock m) : m ≠ 1 := by
  rintro rfl
  exact absurd h (by decide)

/-- The significant bytes of an input block that starts with a nonzero byte are the block. -/
theorem beBytes_nbytes_encValue {s : State} {j : Nat} (hib : 0 < inBlock (s.nval 7))
    (hj : j * inBlock (s.nval 7) < s.srcLen) (hlead : s.bufRead (s.srcAddr + j * inBlock (s.nval 7)) ≠ 0) :
    beBytes (s.encValue s j) (nbytes (s.encValue s j)) =
      ((s.memRead s.srcAddr s.srcLen).drop (j * inBlock (s.nval 7))).take (inBlock (s.nval 7)) := by
  rw [State.take_drop_memRead]
  refine beBytes_nbytes_beVal ?_
  rw [State.memRead_head? _ _ (by omega)]
  exact fun h0 => hlead (Option.some.inj h0)

/-- Settles O53: RSAENC leaves x^e mod m of each block x, whose d-th power is x again, and the significant
bytes of x are the block. -/
theorem rsaRoundTrip : Obligations.RsaRoundTrip := by
  intro re rd s out cap hop hres hsq hed hib need hroom hsrc hlead hout hcap hdst
  let nb := (s.srcLen + inBlock (s.nval 7) - 1) / inBlock (s.nval 7)
  have ⟨hctx, h6, h5, _, hdin⟩ := hop
  have hexec := (rsaencEncryptsEachBlock re s hop hib hroom).2 hres
  have hceil := lt_ceil_iff_mul_lt (n := s.srcLen) hib
  have hneed : (BitVec.ofNat 32 need).toNat = need :=
    (BitVec.toNat_ofNat ..).trans (Nat.mod_eq_of_lt (hroom.trans_lt s.args[3].isLt))
  have hfit : s.dstAddr + need ≤ s.cfg.bufBytes := (Nat.add_le_add_left hroom _).trans hdin
  have hcipher : ∀ j, j < nb → beVal ((s.encChain (fun x => x ^ s.nval re % s.nval 7) nb).memRead
      (s.dstAddr + j * outBlock (s.nval 7)) (outBlock (s.nval 7))) = s.encValue s j ^ s.nval re % s.nval 7 :=
    fun j hj => beVal_memRead_encChain hj ((hceil j).1 hj).le hsrc hfit fun x =>
      Nat.mod_lt _ hctx.modulus_pos
  obtain ⟨b, hb⟩ : ∃ b, s.encChain (fun x => x ^ s.nval re % s.nval 7) nb = { s with buf := b } :=
    ⟨_, (encChain_bufStep s _ nb).only⟩
  rw [hb] at hexec hcipher
  have hplain : ∀ j, j < nb → beVal (({ s with buf := b } : State).memRead
      (s.dstAddr + j * outBlock (s.nval 7)) (outBlock (s.nval 7))) ^ s.nval rd % s.nval 7 = s.encValue s j :=
    fun j hj => by
      rw [hcipher j hj]
      exact pow_mod_pow_mod hctx.1 (ne_one_of_inBlock_pos hib) hsq hed (encValue_lt hctx.modulus_pos s j)
  obtain ⟨u, hdec, hok, hlen, hread⟩ := exec_rsadec_of_decodesTo (ib := inBlock (s.nval 7)) (n := nb)
    (xs := s.memRead s.srcAddr s.srcLen)
    (s := { ({ s with buf := b } : State).succeeded (BitVec.ofNat 32 need) with
      args := #v[s.args[2], BitVec.ofNat 32 need, out, cap] })
    rd ⟨hctx, h6, h5, (congrArg (s.dstAddr + ·) hneed).trans_le hfit, hout⟩ hres hneed
    (fun j hj => (hcipher j hj).trans_lt (Nat.mod_lt _ hctx.modulus_pos))
    (fun j hj => (congrArg (fun p => beBytes p (nbytes p)) (hplain j hj)).trans
      (beBytes_nbytes_encValue hib ((hceil j).1 hj) (hlead j ((hceil j).1 hj))))
    (by rw [State.memRead_length]; exact not_lt.1 fun hlt => lt_irrefl nb ((hceil nb).2 hlt))
    (by rwa [State.memRead_length]) (by rwa [State.memRead_length])
  rw [State.memRead_length] at hlen hread
  exact ⟨_, u, hexec, hdec, rfl, hok, hlen, hread⟩

end Sys2Proof.Machine

/-! ### AES-256: the round transformations, the cipher, the schedule and the three commands
(44_aes.md R231-R253) -/

namespace Sys2Proof.Machine

/-! #### The round transformations byte by byte (R235-R237) -/

theorem subBytes_getD {s : List Byte} {i : Nat} (hi : i < s.length) :
    (subBytes s).getD i 0 = sbox (s.getD i 0) := by
  simp [subBytes, hi]

theorem shiftRows_getD (s : List Byte) {r c : Nat} (hr : r < 4) (hc : c < 4) :
    (shiftRows s).getD (c * 4 + r) 0 = s.getD ((c + r) % 4 * 4 + r) 0 := by
  have hlt : c * 4 + r < 16 := by omega
  have hrow : (c * 4 + r) % 4 = r := by omega
  have hcol : (c * 4 + r) / 4 = c := by omega
  rw [List.getD_eq_getElem _ _ (by simpa using hlt)]
  simp only [shiftRows, List.getElem_map, List.getElem_range, hrow, hcol]

/-- A byte of column c of MixColumns is that byte of MixColumn of column c. -/
theorem mixColumns_getD {s : List Byte} {c r : Nat} (hs : c * 4 + 4 ≤ s.length) (hr : r < 4) :
    (mixColumns s).getD (c * 4 + r) 0 = (mixColumn (s.getD (c * 4) 0) (s.getD (c * 4 + 1) 0)
      (s.getD (c * 4 + 2) 0) (s.getD (c * 4 + 3) 0)).getD r 0 := by
  induction c generalizing s with
  | zero =>
    match s, hs with
    | s0 :: s1 :: s2 :: s3 :: rest, _ =>
      rw [mixColumns, List.getD_append _ _ _ _ (by simpa [mixColumn] using hr)]
      simp
  | succ c ih =>
    match s, hs with
    | s0 :: s1 :: s2 :: s3 :: rest, hs =>
      have hlen : (mixColumn s0 s1 s2 s3).length = 4 := rfl
      have hplace : (c + 1) * 4 + r = 4 + (c * 4 + r) := by omega
      rw [mixColumns, List.getD_append_right _ _ _ _ (by omega), hlen, hplace, Nat.add_sub_cancel_left,
        ih (by simpa [Nat.succ_mul] using hs)]
      simp [Nat.succ_mul]

theorem wordBytesBE_getD (w : Word) {r : Nat} (hr : r < 4) :
    (wordBytesBE w).getD r 0 = w.extractLsb' (24 - 8 * r) 8 := by
  interval_cases r <;> rfl

/-- Byte r of word c, where the words' bytes stand in a row. -/
theorem flatMap_wordBytesBE_getD {ws : List Word} {r c : Nat} (hr : r < 4) (hc : c < ws.length) :
    (ws.flatMap wordBytesBE).getD (c * 4 + r) 0 = (ws.getD c 0).extractLsb' (24 - 8 * r) 8 := by
  induction ws generalizing c with
  | nil => simp at hc
  | cons w ws ih =>
    have hlen : (wordBytesBE w).length = 4 := rfl
    rw [List.flatMap_cons]
    cases c with
    | zero =>
      rw [List.getD_append _ _ _ _ (by omega), Nat.zero_mul, Nat.zero_add, wordBytesBE_getD w hr,
        List.getD_cons_zero]
    | succ c =>
      have hplace : (c + 1) * 4 + r = 4 + (c * 4 + r) := by omega
      rw [List.getD_append_right _ _ _ _ (by omega), hlen, hplace, Nat.add_sub_cancel_left,
        ih (by simpa using hc), List.getD_cons_succ]

theorem roundKey_getD {w : List Word} {k r c : Nat} (hk : 4 * k + 4 ≤ w.length) (hr : r < 4) (hc : c < 4) :
    (roundKey w k).getD (c * 4 + r) 0 = (w.getD (4 * k + c) 0).extractLsb' (24 - 8 * r) 8 := by
  rw [roundKey, flatMap_wordBytesBE_getD hr (by simp; omega)]
  simp [List.getElem?_take_of_lt hc]

theorem addRoundKey_getD {w : List Word} {s : List Byte} {k r c : Nat} (hk : 4 * k + 4 ≤ w.length)
    (hs : s.length = 16) (hr : r < 4) (hc : c < 4) : (addRoundKey w k s).getD (c * 4 + r) 0 =
      s.getD (c * 4 + r) 0 ^^^ (w.getD (4 * k + c) 0).extractLsb' (24 - 8 * r) 8 := by
  have hlt : c * 4 + r < 16 := by omega
  rw [← roundKey_getD hk hr hc, List.getD_eq_getElem _ _ (by rwa [addRoundKey_length hk hs]),
    List.getD_eq_getElem _ _ (by rwa [hs]), List.getD_eq_getElem _ _ (by rwa [roundKey_length hk])]
  exact List.getElem_zipWith

/-- Settles O55: one lemma per transformation, and the examples evaluated. -/
theorem roundTransformations : Obligations.RoundTransformations := by
  refine ⟨fun s hs => ⟨fun i hi => subBytes_getD (by omega), fun r c => shiftRows_getD s, fun c hc => ?_,
    fun w k r c hw hk => addRoundKey_getD (by omega) hs⟩, by decide, by decide, by decide⟩
  have column {r : Nat} (hr : r < 4) := mixColumns_getD (s := s) (c := c) (by omega) hr
  exact ⟨column (r := 0) (by decide), column (r := 1) (by decide), column (r := 2) (by decide),
    column (r := 3) (by decide)⟩

/-! #### The cipher (R245) -/

theorem aesRounds_eq_foldl (w : List Word) (s : List Byte) (n : Nat) : aesRounds w s n =
    (List.range' 1 n).foldl (fun t k => addRoundKey w k (mixColumns (shiftRows (subBytes t))))
      (addRoundKey w 0 s) := by
  induction n with
  | zero => rfl
  | succ n ih =>
    rw [aesRounds, ih, List.range'_1_concat, List.foldl_append, Nat.add_comm 1 n]
    rfl

/-- Settles O60: thirteen rounds are the fold over their numbers. -/
theorem aesEncIsTheRoundSequence : Obligations.AesEncIsTheRoundSequence := by
  refine fun w s => ⟨?_, fun hw _ => aesEnc_length hw s⟩
  rw [aesEnc, aesRounds_eq_foldl]
  rfl

/-! #### AESBLK (R246) -/

/-- AESBLK past its checks. -/
theorem execAesblk_ok {s : State} (h1 : s.srcAddr + 16 ≤ s.cfg.bufBytes)
    (h2 : s.dstAddr + 16 ≤ s.cfg.bufBytes) : execAesblk s =
      .next (((s.memWrite s.dstAddr (aesEnc s.schedule (s.memRead s.srcAddr 16))).setRk
        s.schedule).succeeded 0) :=
  State.guarded_none (by simp [firstFailing_eq_none, -firstFailing_cons, ← Bool.not_eq_true, h1, h2])

/-- Settles O57: the block is written whole, and read back where it was written. -/
theorem aesblkEncryptsOneBlock : Obligations.AesblkEncryptsOneBlock := by
  intro s h1 h2
  have hlen := aesEnc_length (schedule_length s) (s.memRead s.srcAddr 16)
  have hread := s.memRead_memWrite_self (a := s.dstAddr) (hlen ▸ h2)
  have hstep := State.BufStep.memWrite s s.dstAddr (aesEnc s.schedule (s.memRead s.srcAddr 16))
  rw [hlen] at hread hstep
  refine ⟨_, execAesblk_ok h1 h2, hread, rkWords_getElem _, hstep.outside, ?_⟩
  rw [hstep.only]
  rfl

/-! #### The schedule in RK (R240, R241) -/

/-- An AES command that succeeds leaves the schedule of KEY in RK. -/
theorem rk_of_aes_noError {i : Instr} {s t : State} (hi : i = .aeskeyexp ∨ i = .aesblk ∨ i = .aesctr)
    (h : exec i s = .next t) (hok : t.status.errcode = .noError) : t.rk = rkWords s.schedule := by
  have raised {code : ErrCode} (hc : code.raisable = true) (hf : exec i s = .next (s.failed code)) : False := by
    obtain rfl := Host.Outcome.next.inj (h.symm.trans hf)
    exact (code.raisable_iff.1 hc).1 hok
  have scheduled {u : State} (hu : exec i s = .next ((u.setRk s.schedule).succeeded 0)) :
      t.rk = rkWords s.schedule := by
    obtain rfl := Host.Outcome.next.inj (h.symm.trans hu)
    rfl
  rcases hi with rfl | rfl | rfl
  · exact scheduled (execAeskeyexp_eq s)
  · rcases execAesblk_cases s with ⟨code, hc, hf⟩ | ⟨_, hu⟩
    · exact (raised hc hf).elim
    · exact scheduled hu
  · rcases execAesctr_cases s with ⟨code, hc, hf⟩ | ⟨_, hu⟩
    · exact (raised hc hf).elim
    · exact scheduled hu

/-- Settles O56: RK holds the schedule, whose recurrence is `keyExpand_getD`. -/
theorem keyExpansionRecurrence : Obligations.KeyExpansionRecurrence := by
  refine ⟨fun s => ⟨_, execAeskeyexp_eq s, rfl⟩, fun i s t hi h hok => ?_⟩
  have word {n : Nat} (hn : n < 60) : t.rk[n] = s.schedule.getD n 0 := by
    rw [rk_of_aes_noError hi h hok]
    exact rkWords_getElem s.schedule ⟨n, hn⟩
  refine ⟨fun n hn => ?_, fun n hn => ?_⟩
  · rw [word, State.schedule, keyExpand_getD_key _ (by simp) n hn]
    simp [hn]
  · intro b
    have hrec := keyExpand_getD s.key.toList (by simp) (n + 8) (by omega) hn
    have hprev : n + 8 - 1 = n + 7 := rfl
    rw [← State.schedule, keyWord, hprev, Nat.add_sub_cancel, ← word hn, ← word, ← word, subWord_rotWord,
      subWord_eq] at hrec
    exact hrec

/-! #### AESCTR undoes itself (R253) -/

/-- Two ranges with the same bytes. -/
theorem State.memRead_eq_memRead {s t : State} {a b n : Nat}
    (h : ∀ j, j < n → t.bufRead (a + j) = s.bufRead (b + j)) : t.memRead a n = s.memRead b n :=
  List.map_congr_left fun j hj => h j (List.mem_range.1 hj)

/-- AESCTR whose destination does not start inside its source behind the source's first byte: every byte
it reads is an old one. -/
theorem exec_aesctr_of_not_ahead {s : State} (h1 : s.srcAddr + s.srcLen ≤ s.cfg.bufBytes)
    (h2 : s.dstAddr + s.srcLen ≤ s.cfg.bufBytes)
    (h3 : ¬ (s.srcAddr < s.dstAddr ∧ s.dstAddr < s.srcAddr + s.srcLen)) :
    ∃ t, exec .aesctr s = .next t ∧ t.cfg = s.cfg ∧ t.schedule = s.schedule ∧
      ∀ p, p < s.srcLen →
        t.bufRead (s.dstAddr + p) = s.bufRead (s.srcAddr + p) ^^^ ctrKey s.schedule s.ctrVal p := by
  obtain ⟨t, hexec, hbytes, _, _, _, ht⟩ := aesctrXorsTheKeystream s h1 h2
  refine ⟨t, hexec, by rw [ht]; rfl, by rw [ht]; rfl, fun p hp => ?_⟩
  rw [hbytes p hp, if_neg (by omega)]
  rfl

/-- Settles O59: both runs XOR the same keystream. -/
theorem aesctrUndoesItself : Obligations.AesctrUndoesItself := by
  intro s out cap h1 h2 hout hahead hahead'
  obtain ⟨t, hexec, hcfg, hsched, hbytes⟩ := exec_aesctr_of_not_ahead h1 h2 hahead
  obtain ⟨u, hexec', _, _, hbytes'⟩ := exec_aesctr_of_not_ahead
    (s := { t with ctr := s.ctr, args := #v[s.args[2], s.args[1], out, cap] })
    (hcfg ▸ h2) (hcfg ▸ hout) hahead'
  refine ⟨t, u, hexec, hexec', State.memRead_eq_memRead fun p hp => ?_⟩
  calc u.bufRead (out.toNat + p)
      = t.bufRead (s.dstAddr + p) ^^^ ctrKey s.schedule s.ctrVal p := by
        rw [← hsched]
        exact hbytes' p hp
    _ = s.bufRead (s.srcAddr + p) ^^^ ctrKey s.schedule s.ctrVal p ^^^ ctrKey s.schedule s.ctrVal p := by
        rw [hbytes p hp]
    _ = s.bufRead (s.srcAddr + p) := by rw [BitVec.xor_assoc, BitVec.xor_self, BitVec.xor_zero]

end Sys2Proof.Machine

/-! ### Power-on reset and soft reset (70_reset_and_hazards.md R300-R303) -/

namespace Sys2Proof.Machine

/-! #### The abort of a command in flight (R302) -/

namespace State

/-- Dest(cmd) starts at ARG2 and has `destLength` bytes; where it is empty, there is none. -/
theorem dest_cases (s : State) (i : Instr) :
    s.dest i = some (s.dstAddr, s.destLength i) ∨ s.dest i = none ∧ s.destLength i = 0 := by
  cases i with
  | storeb | rsaenc | rsadec | aesblk | aesctr => exact .inl rfl
  | nop | loadb | minv | montmul | montexp | aeskeyexp => exact .inr ⟨rfl, rfl⟩

section

variable {s : State}

theorem latchedDest_ok {i : Instr} (h : decode s.cmd = .ok i) : s.latchedDest = s.dest i := by
  rw [latchedDest, h]

theorem latchedDest_error {why : DecodeReject} (h : decode s.cmd = .error why) : s.latchedDest = none := by
  rw [latchedDest, h]

theorem abort_idle (h : s.status.busy = false) : s.abort = s := by
  rw [abort, h]
  rfl

theorem abort_none (h : s.latchedDest = none) : s.abort = s := by
  rw [abort, h, ite_self]

theorem abort_some {a n : Nat} (hb : s.status.busy = true) (h : s.latchedDest = some (a, n)) :
    s.abort = s.unspecify a (s.clip a n) := by
  rw [abort, if_pos hb, h]

end

/-- The abort changes BUF, and makes a draw for it. -/
theorem abort_eq (s : State) : s.abort = { s with buf := s.abort.buf, draws := s.abort.draws } := by
  cases hb : s.status.busy with
  | false => rw [abort_idle hb]
  | true =>
    cases hd : s.latchedDest with
    | none => rw [abort_none hd]
    | some r =>
      rw [abort_some hb hd, unspecify_draws]
      exact s.unspecify_eq _ _

/-- A range cut off at the end of BUF frees its bytes in BUF, wherever it starts. -/
theorem bufRead_unspecify_clip (s : State) (a n : Nat) {b : Nat} (hb : b < s.cfg.bufBytes) :
    (s.unspecify a (s.clip a n)).bufRead b =
      if a ≤ b ∧ b < a + n then Config.freeByte s.draws b else s.bufRead b := by
  by_cases ha : a ≤ s.cfg.bufBytes
  · have hin : a + s.clip a n ≤ s.cfg.bufBytes := by rw [clip]; omega
    have hcut : b < a + s.clip a n ↔ b < a + n := by rw [clip]; omega
    rw [bufRead_unspecify _ _ _ _ hin]
    simp only [hcut]
  · have hclip : s.clip a n = 0 := by rw [clip]; omega
    rw [hclip, if_neg (by omega)]
    rfl

/-- R302: an aborted command leaves free bytes in its destination and every other byte of BUF alone. -/
theorem bufRead_abort {s : State} {i : Instr} {a : Nat} (hb : s.status.busy = true) (hi : decode s.cmd = .ok i)
    (ha : a < s.cfg.bufBytes) : s.abort.bufRead a =
      if s.dstAddr ≤ a ∧ a < s.dstAddr + s.destLength i then Config.freeByte s.draws a else s.bufRead a := by
  have hlatched := latchedDest_ok hi
  rcases s.dest_cases i with hd | ⟨hd, hlen⟩ <;> rw [hd] at hlatched
  · rw [abort_some hb hlatched, bufRead_unspecify_clip _ _ _ ha]
  · rw [abort_none hlatched, if_neg (by omega)]

/-! #### The registers after a reset (R300, R302) -/

theorem softReset_eq (s : State) : s.softReset = { State.resetWith s.cfg with
    buf := s.softReset.buf, bufFill := s.bufFill, draws := s.softReset.draws, sched := s.sched,
    resp := s.resp } :=
  congrArg resetRegisters s.abort_eq

theorem bufRead_softReset (s : State) (a : Nat) : s.softReset.bufRead a = s.abort.bufRead a :=
  bufRead_congr rfl rfl a

/-- A soft reset with nothing to abort leaves all of BUF. -/
theorem sameBytes_softReset {s : State} (h : s.abort = s) : s.SameBytes s.softReset := fun a => by
  rw [bufRead_softReset, h]

end State

/-- Settles O25: the reset is the abort, which alone reaches BUF, and then every register's reset value. -/
theorem softResetAbortsAndRestores : Obligations.SoftResetAbortsAndRestores := by
  intro s w hw
  have hmakes := s.writeMakes_ctrl w
  rw [State.writeCtrl_srst hw] at hmakes
  refine ⟨s.softReset, hmakes, s.softReset_eq, s.irq_softReset, fun hb i hi a ha => ?_, fun _ why hwhy => ?_,
    fun hb => ?_⟩
  · rw [State.bufRead_softReset, State.bufRead_abort hb hi ha]
  · exact State.sameBytes_softReset (State.abort_none (State.latchedDest_error hwhy))
  · exact State.sameBytes_softReset (State.abort_idle hb)

theorem Status.word_reset : Status.reset.word = 0 := by decide

theorem digitsVal_replicate_zero (n : Nat) : digitsVal (List.replicate n 0) = 0 := by
  induction n with
  | zero => rfl
  | succ n ih => rw [List.replicate_succ, digitsVal, ih]; rfl

namespace State

theorem resetRegisters_nreg_getElem (s : State) (k : RegNo) :
    s.resetRegisters.nreg[k] = List.replicate s.cfg.lMax 0 := Vector.getElem_replicate k.isLt

@[simp] theorem resetRegisters_nval (s : State) (k : RegNo) : s.resetRegisters.nval k = 0 := by
  rw [nval, resetRegisters_nreg_getElem, digitsVal_replicate_zero]

@[simp] theorem resetRegisters_used (s : State) (k : RegNo) : s.resetRegisters.used k = 0 := by
  rw [used_eq_len, resetRegisters_nval]
  rfl

/-- After power-on, and where the model starts, every register has its reset value (R300). -/
theorem eq_resetRegisters_of_powerOn {s t : State} (h : s.event .powerOn = .next t ∨ t = State.reset) :
    ∃ u : State, t = u.resetRegisters := by
  rcases h with h | rfl
  · obtain rfl := Host.Outcome.next.inj h
    exact ⟨s.powerOn, rfl⟩
  · exact ⟨State.reset, rfl⟩

end State

/-- Settles O24: both states are the result of `resetRegisters`, whose registers are read one by one. -/
theorem powerOnResetValues : Obligations.PowerOnResetValues := by
  intro s t h
  obtain ⟨u, rfl⟩ := State.eq_resetRegisters_of_powerOn h
  refine ⟨rfl, rfl, rfl, rfl, rfl, fun k => Vector.getElem_replicate k.isLt,
    fun k => ⟨u.resetRegisters_nreg_getElem k, u.resetRegisters_nval k, u.resetRegisters_used k⟩,
    fun k => Vector.getElem_replicate k.isLt, fun k => Vector.getElem_replicate k.isLt,
    fun i => Vector.getElem_replicate i.isLt, rfl, State.engineTurn_idle rfl, ?_, ?_, ?_, fun hc => ?_,
    fun hnext => ?_⟩
  · exact State.readsAs_legible (r := .id) rfl (by decide) rfl rfl rfl
  · exact State.readsAs_legible (r := .ctrl) rfl (by decide) rfl rfl rfl
  · exact State.readsAs_legible (r := .status) rfl (by decide) rfl rfl Status.word_reset
  · exact State.readsAs_legible (r := .param) rfl (by decide) rfl rfl (paramWord_eq hc)
  · rw [← Host.Outcome.next.inj hnext, State.powerOn_cfg]

end Sys2Proof.Machine
